-- ==== Sys2Proof/Word.lean ====
section
/-! DEFINITION. The widths of UT181A-FSD: a byte is 8 bits (20_memory.md R30); multi-byte fields are 16 or 32 bits (R36). -/

namespace Sys2Proof

/-- A byte of a byte sequence. -/
abbrev Byte := BitVec 8

/-- A 16-bit field: length, checksum, reply code, mode code (R36). -/
abbrev Half := BitVec 16

/-- A 32-bit field: float pattern, duration, packed date/time (R36). -/
abbrev Word := BitVec 32

/-- A byte sequence in wire order, first byte on the wire first (00_scope.md section 5). -/
abbrev Bytes := List Byte

end Sys2Proof
end

