-- ==== Sys2Proof/Machine/Bytes.lean ====
section
/-! DEFINITION. Byte order and access to byte sequences (00_scope.md section 5; 20_memory.md R31 to R37). -/

namespace Sys2Proof.Machine

/-- The unsigned number of a little-endian byte sequence: the byte at the lower offset is the less significant (R31). -/
def leNat : Bytes → Nat
  | [] => 0
  | b :: t => b.toNat + 256 * leNat t

/-- `LE16` of a two-byte sequence (R31). -/
def le16 (bs : Bytes) : Half := BitVec.ofNat 16 (leNat bs)

/-- `LE32` of a four-byte sequence (R32). -/
def le32 (bs : Bytes) : Word := BitVec.ofNat 32 (leNat bs)

/-- The two bytes of a 16-bit number in wire order (R31): `[v & 0xFF, v >> 8]`. -/
def le16Bytes (v : Half) : Bytes := [v.setWidth 8, (v >>> 8).setWidth 8]

/-- The four bytes of a 32-bit number in wire order (R32). -/
def le32Bytes (v : Word) : Bytes :=
  [v.setWidth 8, (v >>> 8).setWidth 8, (v >>> 16).setWidth 8, (v >>> 24).setWidth 8]

/-- `s[off .. off+n)` (00_scope.md section 5). -/
def slice (s : Bytes) (off n : Nat) : Bytes := (s.drop off).take n

/-- `BufRead(s, off, n)`: the n bytes at `off`, defined only when they are all there (00_scope.md section 5, R37). -/
def bufRead (s : Bytes) (off n : Nat) : Option Bytes :=
  if off + n ≤ s.length then some (slice s off n) else none

/-- The string of a field: its bytes before the first 0x00, or all of them (44_primitive_codecs.md R156). -/
def cstr (field : Bytes) : Bytes := field.takeWhile (fun b => b != 0x00#8)

end Sys2Proof.Machine
end

