-- ==== Sys2Proof/Syntax.lean ====
section
/-! DEFINITION. The syntax: what a host presents (`Request`) and what it means (`Instr`), one constructor per mnemonic of
spec/opcode_table.json (30_encoding.md R76). What the rows outside format HOSTOP stand for: log 2, log 3. -/

namespace Sys2Proof

/-- The operand forms of DROP (R74): `DROP <decimal>` and `DROP CONSUMED`. -/
inductive DropCount where
  | count (k : Nat)
  | consumed
  deriving DecidableEq, Repr

/-- The operands a host has at hand for an operation: a byte sequence and a count (R51); no wire form (D2). -/
structure Operand where
  bytes : Bytes := []
  count : DropCount := .count 0
  deriving DecidableEq, Repr

/-- A host operation as it is presented (R51): a select code and the operand that R51 gives that code. The type is closed
(D3: "A model may use a closed type instead"), so a code is never presented with another operation's operand; log 13. -/
inductive HostOp where
  | reset
  | push (b : Bytes)
  | scan
  | drop (k : DropCount)
  | csum (p : Bytes)
  | build (p : Bytes)
  | classify (p : Bytes)
  /-- Code `7 + k`, which R51 gives no operand: whatever the host has at hand (R201). -/
  | reserved (k : Fin 9) (operand : Operand)
  deriving DecidableEq, Repr

/-- The four measurement kinds (30_encoding.md R59). -/
inductive Kind where
  | normal
  | relative
  | minMax
  | peak
  deriving DecidableEq, Repr

/-- The bits of a measurement header byte beside its kind (R59). Bit 0 has no meaning and is kept. -/
structure HdrFlags where
  hold : Bool
  fast : Bool
  tertiary : Bool
  secondary : Bool
  bit0 : Bool
  deriving DecidableEq, Repr

/-- What stands before a measurement in its payload: tag 0x02, or tag 0x03 and the four date/time bytes (R54, R55). -/
inductive Carrier where
  | live
  | saved (d0 d1 d2 d3 : Byte)
  deriving DecidableEq, Repr

/-- A use of a range code: everything of the payload but the range byte itself (R59). -/
structure RangeUse where
  carrier : Carrier
  kind : Kind
  flags : HdrFlags
  auto : Byte
  mode : Half
  body : Bytes
  deriving DecidableEq, Repr

/-- One constructor per mnemonic of spec/opcode_table.json. -/
inductive Instr where
  -- format HOSTOP (R51)
  | reset
  | push (b : Bytes)
  | scan
  | drop (k : DropCount)
  | csum (p : Bytes)
  | build (p : Bytes)
  | classify (p : Bytes)
  | hostopReserved (op : Fin 9) (operand : Operand)
  -- format FRAME (R50): the length field and the bytes it declares (payload, then checksum)
  | frame (len : Half) (rest : Bytes)
  -- format MSG (R52): `rest` is `payload[1..)`
  | msgReplyCode (rest : Bytes)
  | msgMeas (rest : Bytes)
  | msgSaved (rest : Bytes)
  | msgRecInfo (rest : Bytes)
  | msgRecData (rest : Bytes)
  | msgReply (rest : Bytes)
  -- format REPLYCODE (R53): `rest` is `payload[3..)`
  | replySuccess (rest : Bytes)
  | replyDeviceError (rest : Bytes)
  -- format MEAS (R59): `rest` is everything after the header byte
  | measNormal (c : Carrier) (f : HdrFlags) (rest : Bytes)
  | measRelative (c : Carrier) (f : HdrFlags) (rest : Bytes)
  | measMinMax (c : Carrier) (f : HdrFlags) (rest : Bytes)
  | measPeak (c : Carrier) (f : HdrFlags) (rest : Bytes)
  -- format RANGE (R67)
  | rangeAuto (u : RangeUse)
  | rangeStep1 (u : RangeUse)
  | rangeStep2 (u : RangeUse)
  | rangeStep3 (u : RangeUse)
  | rangeStep4 (u : RangeUse)
  | rangeStep5 (u : RangeUse)
  | rangeStep6 (u : RangeUse)
  | rangeStep7 (u : RangeUse)
  | rangeStep8 (u : RangeUse)
  -- format REQ (R73): `operand` is the request payload after its tag
  | reqSetMode (operand : Bytes)
  | reqSetRange (operand : Bytes)
  | reqSetRef (operand : Bytes)
  | reqSetMinMax (operand : Bytes)
  | reqMonitor (operand : Bytes)
  | reqSave (operand : Bytes)
  | reqReadSave (operand : Bytes)
  | reqSaveCount (operand : Bytes)
  | reqDelSave (operand : Bytes)
  | reqRecStart (operand : Bytes)
  | reqRecStop (operand : Bytes)
  | reqRecInfo (operand : Bytes)
  | reqRecData (operand : Bytes)
  | reqRecCount (operand : Bytes)
  | reqHold (operand : Bytes)
  deriving DecidableEq, Repr

/-- What the host presents, by the format its code is read in (R76). The codes of different formats overlap, so the format
is part of what is presented; log 12. -/
inductive Request where
  /-- A host operation (R51). -/
  | hostop (op : HostOp)
  /-- The bytes of a frame, marker first (R50). -/
  | frame (bytes : Bytes)
  /-- A payload, read by its tag (R52). -/
  | msg (payload : Bytes)
  /-- A payload of tag 0x01, read by its reply code (R53). -/
  | replyCode (payload : Bytes)
  /-- A payload of tag 0x02 or 0x03, read by its measurement header byte (R59). -/
  | meas (payload : Bytes)
  /-- A payload of tag 0x02 or 0x03, read by its range byte (R67). -/
  | range (payload : Bytes)
  /-- A request payload, read by its tag (R73). -/
  | req (payload : Bytes)
  deriving DecidableEq, Repr

/-- Why the decoder rejects what was presented: it matches no row of its format (R76), or is not of that format. -/
inductive Reject where
  /-- Not the marker and two length bytes (R50). -/
  | notAFrame
  /-- More or fewer bytes than the length field declares (R50). -/
  | frameLength (declared : Half) (present : Nat)
  /-- The bytes end before the field that holds the code. -/
  | tooShort
  /-- The payload's tag is in no row of format MSG (R52). -/
  | unknownTag (tag : Byte)
  /-- The reply code is in no row of format REPLYCODE (R53). -/
  | unknownReplyCode (code : Half)
  /-- The payload's tag carries no field of this format. -/
  | wrongTag (tag : Byte)
  /-- The header byte is in no row of format MEAS (R59). -/
  | unknownKind (hdr : Byte)
  /-- The range byte is in no row of format RANGE (R67). -/
  | unknownRange (b : Byte)
  /-- The request tag is not assigned (R73). -/
  | unknownRequest (tag : Byte)
  deriving DecidableEq, Repr

/-- What was presented and is of no row: why, and the bytes the block is given all the same. What it does with them is said by
30_encoding.md R71 and, for requests, by R73; log 13. -/
inductive Illegal where
  /-- Not a frame: bytes for RXBUF. -/
  | stream (why : Reject) (bytes : Bytes)
  /-- A payload of no row of its format. -/
  | payload (why : Reject) (p : Bytes)
  /-- A request payload of no row. -/
  | request (why : Reject) (p : Bytes)
  deriving DecidableEq, Repr

end Sys2Proof
end

