-- ==== Sys2Proof/WellFormed.lean ====
section
/-! DEFINITION. Well-formed instructions: the conditions of 30_encoding.md on operands that the types do not already make true. -/

namespace Sys2Proof

/-- Number of payload bytes before the measurement header byte (30_encoding.md R54, R55): the `base` of R130. -/
def Carrier.base : Carrier → Nat
  | .live => 1
  | .saved _ _ _ _ => 5

/-- A payload fits a frame: at most 65533 bytes (R50). -/
abbrev fitsFrame (n : Nat) : Prop := n ≤ 65533

/-- The operand conditions of each format. -/
def Instr.wellFormed : Instr → Bool
  | .reset => true
  | .push _ => true
  | .scan => true
  | .drop _ => true
  | .csum _ => true
  | .build _ => true
  | .classify _ => true
  | .hostopReserved _ _ => true                                    -- R51: 0x7..0xF by its type
  | .frame len rest => rest.length == len.toNat                    -- R50: `len` gives the length
  | .msgReplyCode rest => fitsFrame (1 + rest.length)
  | .msgMeas rest => fitsFrame (1 + rest.length)
  | .msgSaved rest => fitsFrame (1 + rest.length)
  | .msgRecInfo rest => fitsFrame (1 + rest.length)
  | .msgRecData rest => fitsFrame (1 + rest.length)
  | .msgReply rest => fitsFrame (1 + rest.length)                 -- R58: 0 to 65532
  | .replySuccess rest => fitsFrame (3 + rest.length)
  | .replyDeviceError rest => fitsFrame (3 + rest.length)
  | .measNormal c _ rest => fitsFrame (c.base + 1 + rest.length)
  | .measRelative c _ rest => fitsFrame (c.base + 1 + rest.length)
  | .measMinMax c _ rest => fitsFrame (c.base + 1 + rest.length)
  | .measPeak c _ rest => fitsFrame (c.base + 1 + rest.length)
  | .rangeAuto u => fitsFrame (u.carrier.base + 5 + u.body.length)
  | .rangeStep1 u => fitsFrame (u.carrier.base + 5 + u.body.length)
  | .rangeStep2 u => fitsFrame (u.carrier.base + 5 + u.body.length)
  | .rangeStep3 u => fitsFrame (u.carrier.base + 5 + u.body.length)
  | .rangeStep4 u => fitsFrame (u.carrier.base + 5 + u.body.length)
  | .rangeStep5 u => fitsFrame (u.carrier.base + 5 + u.body.length)
  | .rangeStep6 u => fitsFrame (u.carrier.base + 5 + u.body.length)
  | .rangeStep7 u => fitsFrame (u.carrier.base + 5 + u.body.length)
  | .rangeStep8 u => fitsFrame (u.carrier.base + 5 + u.body.length)
  | .reqSetMode o => fitsFrame (1 + o.length)
  | .reqSetRange o => fitsFrame (1 + o.length)
  | .reqSetRef o => fitsFrame (1 + o.length)
  | .reqSetMinMax o => fitsFrame (1 + o.length)
  | .reqMonitor o => fitsFrame (1 + o.length)
  | .reqSave o => fitsFrame (1 + o.length)
  | .reqReadSave o => fitsFrame (1 + o.length)
  | .reqSaveCount o => fitsFrame (1 + o.length)
  | .reqDelSave o => fitsFrame (1 + o.length)
  | .reqRecStart o => fitsFrame (1 + o.length)
  | .reqRecStop o => fitsFrame (1 + o.length)
  | .reqRecInfo o => fitsFrame (1 + o.length)
  | .reqRecData o => fitsFrame (1 + o.length)
  | .reqRecCount o => fitsFrame (1 + o.length)
  | .reqHold o => fitsFrame (1 + o.length) && o.head? == some 0x5A#8  -- R73: byte 1 is 0x5A

end Sys2Proof
end

