-- ==== Sys2Proof/Decode.lean ====
section
/-! DEFINITION. Decoding what the host presents into an instruction (30_encoding.md R50 to R76), total and rejecting by name,
and then the encoder, written from the same tables. -/

namespace Sys2Proof

open Sys2Proof.Machine (le16 le16Bytes)

/-! ## The header byte of a measurement (R59) -/

/-- The kind field `hdr & 0x70`; 0x30, 0x50, 0x60, 0x70 are no kind (R59). -/
def kindOf (hdr : Byte) : Option Kind :=
  match (hdr &&& 0x70#8).toNat with
  | 0x00 => some .normal
  | 0x10 => some .relative
  | 0x20 => some .minMax
  | 0x40 => some .peak
  | _ => none

/-- The other bits of the header byte (R59). -/
def flagsOf (hdr : Byte) : HdrFlags where
  hold := (hdr &&& 0x80#8) != 0#8
  fast := (hdr &&& 0x08#8) != 0#8
  tertiary := (hdr &&& 0x04#8) != 0#8
  secondary := (hdr &&& 0x02#8) != 0#8
  bit0 := (hdr &&& 0x01#8) != 0#8

/-! ## Decoding -/

/-- The operation a select code stands for, with the operand it takes of those at hand: the table of R51. -/
def HostOp.select (op : BitVec 4) (x : Operand) : HostOp :=
  match op.toNat with
  | 0x0 => .reset
  | 0x1 => .push x.bytes
  | 0x2 => .scan
  | 0x3 => .drop x.count
  | 0x4 => .csum x.bytes
  | 0x5 => .build x.bytes
  | 0x6 => .classify x.bytes
  | n => .reserved (Fin.ofNat 9 (n - 7)) x

/-- Format HOSTOP (R51). -/
def decodeHostop : HostOp → Instr
  | .reset => .reset
  | .push b => .push b
  | .scan => .scan
  | .drop k => .drop k
  | .csum p => .csum p
  | .build p => .build p
  | .classify p => .classify p
  | .reserved k x => .hostopReserved k x

/-- Format FRAME (R50): the length of a frame is told from `len` alone. -/
def decodeFrame : Bytes → Except Reject Instr
  | 0xAB#8 :: 0xCD#8 :: l0 :: l1 :: rest =>
    if rest.length = (le16 [l0, l1]).toNat then .ok (.frame (le16 [l0, l1]) rest)
    else .error (.frameLength (le16 [l0, l1]) rest.length)
  | _ => .error .notAFrame

/-- Format MSG (R52). -/
def decodeMsg : Bytes → Except Reject Instr
  | [] => .error .tooShort
  | tag :: rest =>
    match tag.toNat with
    | 0x01 => .ok (.msgReplyCode rest)
    | 0x02 => .ok (.msgMeas rest)
    | 0x03 => .ok (.msgSaved rest)
    | 0x04 => .ok (.msgRecInfo rest)
    | 0x05 => .ok (.msgRecData rest)
    | 0x72 => .ok (.msgReply rest)
    | _ => .error (.unknownTag tag)

/-- Format REPLYCODE (R53): `LE16(p, 1)` under tag 0x01. -/
def decodeReplyCode : Bytes → Except Reject Instr
  | 0x01#8 :: c0 :: c1 :: rest =>
    match (le16 [c0, c1]).toNat with
    | 0x4B4F => .ok (.replySuccess rest)
    | 0x5245 => .ok (.replyDeviceError rest)
    | _ => .error (.unknownReplyCode (le16 [c0, c1]))
  | tag :: _ => if tag = 0x01#8 then .error .tooShort else .error (.wrongTag tag)
  | [] => .error .tooShort

/-- The payload before and after the measurement's first byte, by the tag (R54, R55). -/
def splitCarrier : Bytes → Except Reject (Carrier × Bytes)
  | 0x02#8 :: m => .ok (.live, m)
  | 0x03#8 :: d0 :: d1 :: d2 :: d3 :: m => .ok (.saved d0 d1 d2 d3, m)
  | tag :: _ => if tag = 0x03#8 then .error .tooShort else .error (.wrongTag tag)
  | [] => .error .tooShort

/-- The instruction of format MEAS for a kind (R76). -/
def measInstr (c : Carrier) (f : HdrFlags) (rest : Bytes) : Kind → Instr
  | .normal => .measNormal c f rest
  | .relative => .measRelative c f rest
  | .minMax => .measMinMax c f rest
  | .peak => .measPeak c f rest

/-- Format MEAS (R59): the header byte of the measurement. -/
def decodeMeas (p : Bytes) : Except Reject Instr :=
  match splitCarrier p with
  | .error e => .error e
  | .ok (_, []) => .error .tooShort
  | .ok (c, hdr :: rest) =>
    match kindOf hdr with
    | some k => .ok (measInstr c (flagsOf hdr) rest k)
    | none => .error (.unknownKind hdr)

/-- The instruction of format RANGE for a range byte (R67). -/
def rangeInstr (u : RangeUse) (b : Byte) : Except Reject Instr :=
  match b.toNat with
  | 0x00 => .ok (.rangeAuto u)
  | 0x01 => .ok (.rangeStep1 u)
  | 0x02 => .ok (.rangeStep2 u)
  | 0x03 => .ok (.rangeStep3 u)
  | 0x04 => .ok (.rangeStep4 u)
  | 0x05 => .ok (.rangeStep5 u)
  | 0x06 => .ok (.rangeStep6 u)
  | 0x07 => .ok (.rangeStep7 u)
  | 0x08 => .ok (.rangeStep8 u)
  | _ => .error (.unknownRange b)

/-- Format RANGE (R67): measurement byte 4. -/
def decodeRange (p : Bytes) : Except Reject Instr :=
  match splitCarrier p with
  | .error e => .error e
  | .ok (c, hdr :: auto :: m0 :: m1 :: b :: body) =>
    match kindOf hdr with
    | some k => rangeInstr ⟨c, k, flagsOf hdr, auto, le16 [m0, m1], body⟩ b
    | none => .error (.unknownKind hdr)
  | .ok _ => .error .tooShort

/-- Format REQ (R73). -/
def decodeReq : Bytes → Except Reject Instr
  | [] => .error .tooShort
  | tag :: o =>
    match tag.toNat with
    | 0x01 => .ok (.reqSetMode o)
    | 0x02 => .ok (.reqSetRange o)
    | 0x03 => .ok (.reqSetRef o)
    | 0x04 => .ok (.reqSetMinMax o)
    | 0x05 => .ok (.reqMonitor o)
    | 0x06 => .ok (.reqSave o)
    | 0x07 => .ok (.reqReadSave o)
    | 0x08 => .ok (.reqSaveCount o)
    | 0x09 => .ok (.reqDelSave o)
    | 0x0A => .ok (.reqRecStart o)
    | 0x0B => .ok (.reqRecStop o)
    | 0x0C => .ok (.reqRecInfo o)
    | 0x0D => .ok (.reqRecData o)
    | 0x0E => .ok (.reqRecCount o)
    | 0x12 => .ok (.reqHold o)
    | _ => .error (.unknownRequest tag)

/-- The instruction that a request stands for, or what is illegal in it (R71). -/
def decode : Request → Except Illegal Instr
  | .hostop op => .ok (decodeHostop op)
  | .frame bytes => (decodeFrame bytes).mapError (.stream · bytes)
  | .msg p => (decodeMsg p).mapError (.payload · p)
  | .replyCode p => (decodeReplyCode p).mapError (.payload · p)
  | .meas p => (decodeMeas p).mapError (.payload · p)
  | .range p => (decodeRange p).mapError (.payload · p)
  | .req p => (decodeReq p).mapError (.request · p)

/-! ## Encoding -/

/-- One bit of a byte. -/
def bitAt (b : Bool) (v : Byte) : Byte := if b then v else 0#8

/-- The kind field in place (R59). -/
def kindBits : Kind → Byte
  | .normal => 0x00#8
  | .relative => 0x10#8
  | .minMax => 0x20#8
  | .peak => 0x40#8

/-- The header byte of a measurement (R59). -/
def hdrByte (k : Kind) (f : HdrFlags) : Byte :=
  kindBits k ||| bitAt f.hold 0x80#8 ||| bitAt f.fast 0x08#8 ||| bitAt f.tertiary 0x04#8 |||
    bitAt f.secondary 0x02#8 ||| bitAt f.bit0 0x01#8

/-- The payload bytes before the measurement (R54, R55). -/
def Carrier.lead : Carrier → Bytes
  | .live => [0x02#8]
  | .saved d0 d1 d2 d3 => [0x03#8, d0, d1, d2, d3]

/-- The payload of a measurement with a given header byte and what follows it (R59). -/
def measPayload (c : Carrier) (hdr : Byte) (rest : Bytes) : Bytes := c.lead ++ hdr :: rest

/-- The payload of a measurement with range byte `b` (R59). -/
def RangeUse.payload (u : RangeUse) (b : Byte) : Bytes :=
  measPayload u.carrier (hdrByte u.kind u.flags) (u.auto :: (le16Bytes u.mode ++ b :: u.body))

/-- The bytes of a frame with a given length field (R50). -/
def frameBytes (len : Half) (rest : Bytes) : Bytes := [0xAB#8, 0xCD#8] ++ le16Bytes len ++ rest

/-- The select code of a reserved operation (R51). -/
def reservedOp (k : Fin 9) : BitVec 4 := BitVec.ofNat 4 (7 + k.val)

/-- The select code of a host operation (R51). -/
def HostOp.code : HostOp → BitVec 4
  | .reset => 0x0#4
  | .push _ => 0x1#4
  | .scan => 0x2#4
  | .drop _ => 0x3#4
  | .csum _ => 0x4#4
  | .build _ => 0x5#4
  | .classify _ => 0x6#4
  | .reserved k _ => reservedOp k

/-- What the host presents for an instruction. -/
def encode : Instr → Request
  | .reset => .hostop .reset
  | .push b => .hostop (.push b)
  | .scan => .hostop .scan
  | .drop k => .hostop (.drop k)
  | .csum p => .hostop (.csum p)
  | .build p => .hostop (.build p)
  | .classify p => .hostop (.classify p)
  | .hostopReserved k x => .hostop (.reserved k x)
  | .frame len rest => .frame (frameBytes len rest)
  | .msgReplyCode rest => .msg (0x01#8 :: rest)
  | .msgMeas rest => .msg (0x02#8 :: rest)
  | .msgSaved rest => .msg (0x03#8 :: rest)
  | .msgRecInfo rest => .msg (0x04#8 :: rest)
  | .msgRecData rest => .msg (0x05#8 :: rest)
  | .msgReply rest => .msg (0x72#8 :: rest)
  | .replySuccess rest => .replyCode (0x01#8 :: (le16Bytes 0x4B4F#16 ++ rest))
  | .replyDeviceError rest => .replyCode (0x01#8 :: (le16Bytes 0x5245#16 ++ rest))
  | .measNormal c f rest => .meas (measPayload c (hdrByte .normal f) rest)
  | .measRelative c f rest => .meas (measPayload c (hdrByte .relative f) rest)
  | .measMinMax c f rest => .meas (measPayload c (hdrByte .minMax f) rest)
  | .measPeak c f rest => .meas (measPayload c (hdrByte .peak f) rest)
  | .rangeAuto u => .range (u.payload 0x00#8)
  | .rangeStep1 u => .range (u.payload 0x01#8)
  | .rangeStep2 u => .range (u.payload 0x02#8)
  | .rangeStep3 u => .range (u.payload 0x03#8)
  | .rangeStep4 u => .range (u.payload 0x04#8)
  | .rangeStep5 u => .range (u.payload 0x05#8)
  | .rangeStep6 u => .range (u.payload 0x06#8)
  | .rangeStep7 u => .range (u.payload 0x07#8)
  | .rangeStep8 u => .range (u.payload 0x08#8)
  | .reqSetMode o => .req (0x01#8 :: o)
  | .reqSetRange o => .req (0x02#8 :: o)
  | .reqSetRef o => .req (0x03#8 :: o)
  | .reqSetMinMax o => .req (0x04#8 :: o)
  | .reqMonitor o => .req (0x05#8 :: o)
  | .reqSave o => .req (0x06#8 :: o)
  | .reqReadSave o => .req (0x07#8 :: o)
  | .reqSaveCount o => .req (0x08#8 :: o)
  | .reqDelSave o => .req (0x09#8 :: o)
  | .reqRecStart o => .req (0x0A#8 :: o)
  | .reqRecStop o => .req (0x0B#8 :: o)
  | .reqRecInfo o => .req (0x0C#8 :: o)
  | .reqRecData o => .req (0x0D#8 :: o)
  | .reqRecCount o => .req (0x0E#8 :: o)
  | .reqHold o => .req (0x12#8 :: o)

/-! ## Words of the opcode table -/

/-- The request that a word of spec/opcode_table.json stands for: the row's field holds the word and every operand byte is 0.
A table word does not say which format it belongs to and the formats' codes overlap; the formats are tried in the order
FRAME, REPLYCODE for 16 bits and HOSTOP, MSG, REQ, MEAS for 8 bits (log 12). -/
def requestOfWord (nbits w : Nat) : Request :=
  if nbits = 16 then
    if w = 0xCDAB then .frame [0xAB#8, 0xCD#8, 0x00#8, 0x00#8]
    else .replyCode (0x01#8 :: le16Bytes (BitVec.ofNat 16 w))
  else if w < 16 then .hostop (.select (BitVec.ofNat 4 w) ⟨[], .count 0⟩)
  else if w = 0x72 then .msg [0x72#8]
  else if w = 0x12 then .req [0x12#8, 0x00#8]
  else .meas (0x02#8 :: BitVec.ofNat 8 w :: List.replicate 55 0x00#8)

/-- The instruction the decoder reads from a word of spec/opcode_table.json. -/
def decodeTableWord (nbits w : Nat) : Option Instr :=
  match decode (requestOfWord nbits w) with
  | .ok i => some i
  | .error _ => none

end Sys2Proof
end

