-- ==== Sys2Proof/Config.lean ====
section
/-! DEFINITION. The configuration of the block: the parameters of 00_scope.md R3, and the opaque free values the spec leaves
open. A configuration is plain data, fixed for the life of the block (10_state.md R25); log 4. -/

namespace Sys2Proof

/-- `ModeId`: an opaque identifier, one per entry of `MODE_TABLE` (10_state.md R24, 91_not_in_source.md N25); log 16. -/
structure ModeId where
  id : Nat
  deriving DecidableEq, Repr

/-- `BaseUnit`: an opaque identifier, one per base unit of `UNIT_TABLE` (10_state.md R24); log 16. -/
structure BaseUnit where
  id : Nat
  deriving DecidableEq, Repr

/-- `UnitExp`: a base unit and a decimal exponent (10_state.md R24). -/
structure UnitExp where
  base : BaseUnit
  exponent : Int
  deriving DecidableEq, Repr

/-- `MINMAX_LAYOUT`: measurement offsets of the shared unit and of the four (value, duration) pairs (R3, 30_encoding.md R62). -/
structure MinMaxLayout where
  unit : Nat
  main : Nat
  max : Nat
  average : Nat
  min : Nat
  deriving DecidableEq, Repr

/-- The place of a field in a payload. -/
structure LayoutField where
  off : Nat
  width : Nat
  deriving DecidableEq, Repr

/-- `RECINFO_LAYOUT`: payload offsets and widths of the RecordInfo fields (R3, 30_encoding.md R56). -/
structure RecInfoLayout where
  name : LayoutField
  unit : LayoutField
  interval : LayoutField
  duration : LayoutField
  samples : LayoutField
  max : LayoutField
  average : LayoutField
  min : LayoutField
  start : LayoutField
  deriving DecidableEq, Repr

/-- The parameters of R3. -/
structure Config where
  /-- `RXCAP`: `none` is `unbounded`. -/
  rxCap : Option Nat
  /-- `MODE_TABLE`: a finite map given by its entries. -/
  modeTable : List (Half × ModeId)
  /-- `UNIT_TABLE`: a finite map given by its entries. -/
  unitTable : List (Bytes × UnitExp)
  /-- `DEGREE_BYTE`. -/
  degreeByte : Byte
  /-- `FAST_UNIT_W`. -/
  fastUnitW : Nat
  /-- `MINMAX_LAYOUT`. -/
  minMax : MinMaxLayout
  /-- `RECINFO_LAYOUT`. -/
  recInfo : RecInfoLayout
  /-- `HOST_DROPS_ON_DECODE_ERROR`: a parameter of the host, read by Machine/Driver.lean only (45_host_contract.md R173). -/
  hostDrops : Bool
  deriving DecidableEq, Repr

/-- `MODE_TABLE` is a map and is injective (R3, R222, 44_primitive_codecs.md R154). -/
abbrev ModeTableOk (t : List (Half × ModeId)) : Prop := (t.map (·.1)).Nodup ∧ (t.map (·.2)).Nodup

/-- `UNIT_TABLE` is a map; its keys have at most 8 bytes, no 0x00 inside, and are ASCII but for the degree byte (R3, R222). -/
abbrev UnitTableOk (degree : Byte) (t : List (Bytes × UnitExp)) : Prop :=
  (t.map (·.1)).Nodup ∧
  ∀ e ∈ t, e.1.length ≤ 8 ∧ ∀ b ∈ e.1, b ≠ 0x00#8 ∧ (b < 0x80#8 ∨ b = degree)

/-- The constraints of R3 on the tables and of R222 (1). On a finite `RXCAP` there is none: R3 quotes a capacity of at least 4096
bytes for the source's growable buffer, D5 takes the parameter without a bound and vector PG8 has 16; that every capacity is
admitted is the model's choice (DESIGN CHOICE, log 23). -/
abbrev Config.Ok (c : Config) : Prop :=
  ModeTableOk c.modeTable ∧ 0x80#8 ≤ c.degreeByte ∧ UnitTableOk c.degreeByte c.unitTable

/-- OPEN (D32): entries of `MODE_TABLE` before the constraint of R3 is applied; log 6. -/
opaque Config.freeModeTable : List (Half × ModeId)

/-- OPEN (D32): entries of `UNIT_TABLE` before the constraint of R3 is applied; log 6. -/
opaque Config.freeUnitTable : List (Bytes × UnitExp)

/-- OPEN (D32): the low seven bits of `DEGREE_BYTE`; log 6. -/
opaque Config.freeDegree : BitVec 7

/-- OPEN (D11): `HOST_DROPS_ON_DECODE_ERROR`; log 6. -/
opaque Config.freeHostDrops : Bool

/-- The value RESET leaves in ACC, unspecified (70_reset_and_hazards.md R220); log 8. -/
opaque Config.freeAcc : Nat → Half

/-- The value RESET leaves in LENR, unspecified (R220); log 8. -/
opaque Config.freeLenr : Nat → Half

/-- The value RESET leaves in SCANOFF, unspecified (R220); log 8. -/
opaque Config.freeScanoff : Nat → Nat

end Sys2Proof
end

