-- ==== Sys2Proof/Machine/Message.lean ====
section
/-! DEFINITION. The data types of the results (10_state.md R20 to R24). -/

namespace Sys2Proof.Machine

/-- `Range` (R24). -/
inductive Range where
  | auto
  | step1
  | step2
  | step3
  | step4
  | step5
  | step6
  | step7
  | step8
  deriving DecidableEq, Repr

/-- `DateTime`: six numbers (R24). -/
structure DateTime where
  year : Nat
  month : Nat
  day : Nat
  hour : Nat
  minute : Nat
  second : Nat
  deriving DecidableEq, Repr

/-- `Value` (R22). The magnitude is the raw float pattern, carried and never computed with. -/
structure Value where
  overloadNeg : Bool
  overloadPos : Bool
  magnitude : Word
  precision : Option (BitVec 4)
  unit : Option UnitExp
  deriving DecidableEq, Repr

/-- `FastValue` (R22). -/
structure FastValue where
  magnitude : Word
  unit : UnitExp
  deriving DecidableEq, Repr

/-- `TimedValue`: a value and a duration in whole seconds (R22). -/
structure TimedValue where
  v : Value
  duration : Word
  deriving DecidableEq, Repr

/-- The body of a measurement (R21). -/
inductive Body where
  | normal (main : Value) (secondary tertiary : Option Value) (fast : Option FastValue)
  | relative (relative reference absolute : Value) (fast : Option FastValue)
  | minMax (unit : UnitExp) (main max average min : TimedValue)
  | peak (max min : Value)
  deriving DecidableEq, Repr

/-- `Measurement` (R21). -/
structure Measurement where
  mode : ModeId
  range : Range
  hold : Bool
  autoRange : Bool
  body : Body
  deriving DecidableEq, Repr

/-- `RecordInfo` (R23). -/
structure RecordInfo where
  name : Bytes
  unit : UnitExp
  interval : Nat
  duration : Nat
  samples : Nat
  max : Value
  average : Value
  min : Value
  start : DateTime
  deriving DecidableEq, Repr

/-- `RecordDataItem` (R23). -/
structure RecordDataItem where
  v : Value
  ts : DateTime
  deriving DecidableEq, Repr

/-- `Message`: a closed sum of seven variants (R20). -/
inductive Message where
  | success
  | deviceError
  | measurement (m : Measurement)
  | savedMeasurement (ts : DateTime) (m : Measurement)
  | reply (raw : Bytes)
  | recordInfo (ri : RecordInfo)
  | recordDataBatch (items : List RecordDataItem)
  deriving DecidableEq, Repr

/-- The decode errors and what each records (60_exceptions.md R190 to R198). -/
inductive DecodeError where
  | unknownReplyCode (code : Half)
  | unknownMessageFormat (tag : Byte)
  | unknownMeasurementKind (hdr : Byte)
  | unknownMeasurementMode (code : Half)
  | unknownMeasurementRange (b : Byte)
  | unknownMeasurementUnit (s : Bytes)
  | invalidDateTime (t : DateTime)
  | truncated (needed have_ : Nat)
  deriving DecidableEq, Repr

/-- The refusals of the block and what each records (60_exceptions.md R190, R199, R201). They are outcomes of the block, with
a next state; the model's own refusals are `Refusal` of Machine/State.lean. -/
inductive OpRefusal where
  | bufOverflow (rxlen k : Nat)
  | badDrop (k rxlen : Nat)
  | payloadTooLong (n : Nat)
  | badOp (op : BitVec 4)
  deriving DecidableEq, Repr

/-- The values of ERRCODE (R190). -/
inductive ErrCode where
  | unknownReplyCode
  | unknownMessageFormat
  | unknownMeasurementKind
  | unknownMeasurementMode
  | unknownMeasurementRange
  | unknownMeasurementUnit
  | invalidDateTime
  | truncated
  | bufOverflow
  | badDrop
  | payloadTooLong
  | badOp
  deriving DecidableEq, Repr

/-- The contents of ERRINFO, by the shapes of R190's ERRINFO column. -/
inductive ErrInfo where
  | code (c : Half)
  | byte (b : Byte)
  | bytes (s : Bytes)
  | dateTime (t : DateTime)
  | pair (a b : Nat)
  | number (n : Nat)
  | op (o : BitVec 4)
  deriving DecidableEq, Repr

/-- The values of STATUS (R14). -/
inductive Status where
  | idle
  | done
  | foundMsg
  | foundErr
  | incomplete
  | refused
  deriving DecidableEq, Repr

end Sys2Proof.Machine
end

