-- ==== Sys2Proof/Machine/Params.lean ====
section
/-! DEFINITION. The constants of 00_scope.md R2, the spec's default layouts, and the configuration of the block. -/

namespace Sys2Proof.Machine

/-- `MARKER0` (R2). -/
def marker0 : Byte := 0xAB#8

/-- `MARKER1` (R2). -/
def marker1 : Byte := 0xCD#8

/-- `CSUM_BIAS` (R2; the formula of R80 wins over the source's literal, 90_conflicts.md C1; log 20). -/
def csumBias : Half := 2#16

/-- `MAX_PAYLOAD` (R2). -/
def maxPayload : Nat := 65533

/-- `UNIT_W` (R2). -/
def unitW : Nat := 8

/-- Width of a full Value, `VALUE_W` (R2). -/
def valueW : Nat := 13

/-- Width of a value without its unit, format VALUE5 (30_encoding.md R65). -/
def value5W : Nat := 5

/-- `ITEM_W` (R2). -/
def itemW : Nat := 9

/-- `DATETIME_W` (R2). -/
def dateTimeW : Nat := 4

/-- Width of the measurement header (30_encoding.md R59). -/
def measHeaderW : Nat := 5

/-- Default `MINMAX_LAYOUT` (D21, 30_encoding.md R62), unvalidated; log 5. -/
def defaultMinMax : MinMaxLayout := ⟨5, 13, 22, 31, 40⟩

/-- Default `RECINFO_LAYOUT` (D22, 30_encoding.md R56), unvalidated; log 5. -/
def defaultRecInfo : RecInfoLayout where
  name := ⟨1, 11⟩
  unit := ⟨12, 8⟩
  interval := ⟨20, 2⟩
  duration := ⟨22, 4⟩
  samples := ⟨26, 4⟩
  max := ⟨30, 5⟩
  average := ⟨35, 5⟩
  min := ⟨40, 5⟩
  start := ⟨45, 4⟩

/-- `DEGREE_BYTE` of the block: any byte 0x80..0xFF (R3); log 6. -/
def deviceDegree : Byte := 0x80#8 ||| Config.freeDegree.setWidth 8

/-- The configuration of the block: the spec's defaults (D5, D17, D21, D22) and, where it says OPEN, a free value that meets
the constraint of R3; log 4, 5, 6. -/
def device : Config where
  rxCap := none
  modeTable := if ModeTableOk Config.freeModeTable then Config.freeModeTable else []
  unitTable := if UnitTableOk deviceDegree Config.freeUnitTable then Config.freeUnitTable else []
  degreeByte := deviceDegree
  fastUnitW := 8
  minMax := defaultMinMax
  recInfo := defaultRecInfo
  hostDrops := Config.freeHostDrops

end Sys2Proof.Machine
end

