-- ==== Sys2Proof/Machine/State.lean ====
section
/-! DEFINITION. The state of the block (10_state.md), the reasons a step of the model stops, and the state after reset. -/

namespace Sys2Proof.Machine

/-- The result and status registers (10_state.md section 3). `none` is the spec's `invalid`. Every operation writes STATUS
once and invalidates every result register it does not make valid (R14), so every operation writes this record whole. -/
structure Results where
  /-- STATUS (R14). -/
  status : Status
  /-- CONSUMED (R15). -/
  consumed : Option Nat := none
  /-- PAYLOAD, whose length is PLEN (R16). -/
  payload : Option Bytes := none
  /-- MSG (R17). -/
  msg : Option Message := none
  /-- CSUMOUT (R18). -/
  csumOut : Option Half := none
  /-- TXBUF, whose length is TXLEN (R18). -/
  txbuf : Option Bytes := none
  /-- ERRCODE (R19). -/
  errCode : Option ErrCode := none
  /-- ERRINFO (R19). -/
  errInfo : Option ErrInfo := none
  deriving DecidableEq, Repr

/-- The state of the machine. -/
structure State where
  /-- RXBUF (R10): the byte at offset `i` from the front is element `i`; log 11. -/
  rxbuf : Bytes
  /-- ACC (R11). -/
  acc : Half
  /-- LENR (R12). -/
  lenr : Half
  /-- SCANOFF (R13). -/
  scanoff : Nat
  /-- The result and status registers (R14 to R19). -/
  results : Results
  /-- The configuration, which no operation changes (R25); log 4. -/
  config : Config
  /-- The host operations issued and not yet performed, oldest first (20_memory.md R39); log 1. -/
  requests : List Request
  /-- Counts the free values taken by RESET; log 8. -/
  freeTick : Nat
  deriving DecidableEq, Repr

/-- The names of the registers a host reads (10_state.md section 3). -/
inductive ResultReg where
  | status
  | consumed
  | payload
  | plen
  | msg
  | csumOut
  | txbuf
  | txlen
  | errCode
  | errInfo
  deriving DecidableEq, Repr

/-- Why the machine stops with a fault. -/
inductive Fault where
  /-- A host's read of a result register that is invalid; raised by `State.readResult` and by `DROP CONSUMED`. 10_state.md
  section 3: "a model must fault or refuse such a read, never return a number". Safe; log 10, 22. -/
  | invalidResultRead (r : ResultReg)
  deriving DecidableEq, Repr

/-- Why the model gives no next state. -/
inductive Refusal where
  /-- An instruction without a meaning; raised by no arm of `exec`. Safe. -/
  | notModelled (mnemonic : String)
  /-- The host has issued no operation; raised by `step`. The block takes one step per host operation (00_scope.md
  section 6), so it has no step here. Safe; log 1. -/
  | noOperation
  deriving DecidableEq, Repr

/-- The state after RESET (R27), with nothing issued by the host. ACC, LENR and SCANOFF are unspecified there; 0 is the model's
choice (log 7). -/
def State.reset : State where
  rxbuf := []
  acc := 0#16
  lenr := 0#16
  scanoff := 0
  results := { status := .idle }
  config := device
  requests := []
  freeTick := 0

end Sys2Proof.Machine
end

