-- ==== Sys2Proof/Machine/Flags.lean ====
section
/-! DEFINITION. The codes of STATUS and ERRCODE, what each error records, and the flags byte of a Value (10_state.md R14;
60_exceptions.md R190; 44_primitive_codecs.md R150). -/

namespace Sys2Proof.Machine

/-- The numeric code of STATUS (R14). -/
def Status.num : Status → Nat
  | .idle => 0
  | .done => 1
  | .foundMsg => 2
  | .foundErr => 3
  | .incomplete => 4
  | .refused => 5

/-- The numeric code of ERRCODE (R190); 0, no error, is never written. -/
def ErrCode.num : ErrCode → Nat
  | .unknownReplyCode => 1
  | .unknownMessageFormat => 2
  | .unknownMeasurementKind => 3
  | .unknownMeasurementMode => 4
  | .unknownMeasurementRange => 5
  | .unknownMeasurementUnit => 6
  | .invalidDateTime => 7
  | .truncated => 8
  | .bufOverflow => 9
  | .badDrop => 10
  | .payloadTooLong => 11
  | .badOp => 12

/-- The code of a decode error (R190). -/
def DecodeError.code : DecodeError → ErrCode
  | .unknownReplyCode _ => .unknownReplyCode
  | .unknownMessageFormat _ => .unknownMessageFormat
  | .unknownMeasurementKind _ => .unknownMeasurementKind
  | .unknownMeasurementMode _ => .unknownMeasurementMode
  | .unknownMeasurementRange _ => .unknownMeasurementRange
  | .unknownMeasurementUnit _ => .unknownMeasurementUnit
  | .invalidDateTime _ => .invalidDateTime
  | .truncated _ _ => .truncated

/-- The diagnostic of a decode error (R190 to R198). -/
def DecodeError.info : DecodeError → ErrInfo
  | .unknownReplyCode c => .code c
  | .unknownMessageFormat t => .byte t
  | .unknownMeasurementKind h => .byte h
  | .unknownMeasurementMode c => .code c
  | .unknownMeasurementRange b => .byte b
  | .unknownMeasurementUnit s => .bytes s
  | .invalidDateTime t => .dateTime t
  | .truncated needed have_ => .pair needed have_

/-- The code of a refusal (R190). -/
def OpRefusal.code : OpRefusal → ErrCode
  | .bufOverflow _ _ => .bufOverflow
  | .badDrop _ _ => .badDrop
  | .payloadTooLong _ => .payloadTooLong
  | .badOp _ => .badOp

/-- The diagnostic of a refusal (R190). -/
def OpRefusal.info : OpRefusal → ErrInfo
  | .bufOverflow rxlen k => .pair rxlen k
  | .badDrop k rxlen => .pair k rxlen
  | .payloadTooLong n => .number n
  | .badOp op => .op op

/-- `overload_neg` (R150): bit 1 set and bits 3, 2 clear. -/
def overloadNeg (f : Byte) : Bool := (f &&& 0x0E#8) == 0x02#8

/-- `overload_pos` (R150). -/
def overloadPos (f : Byte) : Bool := (f &&& 0x01#8) == 0x01#8

/-- `precision` (R150): the high nibble. -/
def precisionOf (f : Byte) : BitVec 4 := (f >>> 4).setWidth 4

end Sys2Proof.Machine
end

