-- ==== Sys2Proof/Machine/Ops.lean ====
section
/-! DEFINITION. The operations every meaning is written over: reads of a payload, the result registers, and the two ways an
operation ends other than well (60_exceptions.md R204). -/

namespace Sys2Proof.Machine

/-! ## Reading a payload -/

/-- `need(p, off, n)` (00_scope.md section 5, R197). -/
def need (p : Bytes) (off n : Nat) : Except DecodeError Unit :=
  if off + n ≤ p.length then .ok () else .error (.truncated (off + n) p.length)

/-- The n-byte field at `off`, guarded by `need` (20_memory.md R37). -/
def field (p : Bytes) (off n : Nat) : Except DecodeError Bytes :=
  match bufRead p off n with
  | some bs => .ok bs
  | none => .error (.truncated (off + n) p.length)

/-- The byte at `off`. -/
def readByte (p : Bytes) (off : Nat) : Except DecodeError Byte := do
  let bs ← field p off 1
  return BitVec.ofNat 8 (leNat bs)

/-- `LE16(p, off)` (20_memory.md R31). -/
def readLE16 (p : Bytes) (off : Nat) : Except DecodeError Half := do
  let bs ← field p off 2
  return le16 bs

/-- `LE32(p, off)` (20_memory.md R32). -/
def readLE32 (p : Bytes) (off : Nat) : Except DecodeError Word := do
  let bs ← field p off 4
  return le32 bs

/-- An unsigned little-endian number of `w` bytes at `off` (20_memory.md R32); log 14. -/
def readNat (p : Bytes) (off w : Nat) : Except DecodeError Nat := do
  let bs ← field p off w
  return leNat bs

/-! ## RXBUF as a memory -/

/-- The byte of RXBUF at an offset; an offset at or past RXLEN does not exist (20_memory.md R30, R37); log 11. -/
def State.rxRead (s : State) (a : Nat) : Option Byte := s.rxbuf[a]?

/-- RXBUF as (address, byte) pairs. -/
def State.rxCells (s : State) : List Host.Cell := s.rxbuf.zipIdx.map (fun e => (e.2, e.1))

/-- The canonical form of a memory of pairs: addresses strictly rising. RXBUF's also has no gap. -/
abbrev Memory.wf (cells : List Host.Cell) : Prop := (cells.map (·.1)).Pairwise (· < ·)

/-- `RXLEN` (10_state.md R10). -/
def State.rxlen (s : State) : Nat := s.rxbuf.length

/-- `PLEN`, valid with PAYLOAD (10_state.md R16). -/
def State.plen (s : State) : Option Nat := s.results.payload.map List.length

/-- `TXLEN`, valid with TXBUF (10_state.md R18). -/
def State.txlen (s : State) : Option Nat := s.results.txbuf.map List.length

/-! ## Result registers -/

/-- What a host reads from a result register. -/
inductive ResultValue where
  | status (s : Status)
  | number (n : Nat)
  | bytes (b : Bytes)
  | msg (m : Message)
  | half (h : Half)
  | errCode (c : ErrCode)
  | errInfo (i : ErrInfo)
  deriving DecidableEq, Repr

/-- The value of a result register, if it is valid (10_state.md R14). -/
def State.result? (s : State) : ResultReg → Option ResultValue
  | .status => some (.status s.results.status)
  | .consumed => s.results.consumed.map .number
  | .payload => s.results.payload.map .bytes
  | .plen => s.plen.map .number
  | .msg => s.results.msg.map .msg
  | .csumOut => s.results.csumOut.map .half
  | .txbuf => s.results.txbuf.map .bytes
  | .txlen => s.txlen.map .number
  | .errCode => s.results.errCode.map .errCode
  | .errInfo => s.results.errInfo.map .errInfo

/-- A host's read of a result register: an invalid one gives no value but a fault (10_state.md R14). -/
def State.readResult (s : State) (r : ResultReg) : Except Fault ResultValue :=
  match s.result? r with
  | some v => .ok v
  | none => .error (.invalidResultRead r)

/-- The end of an operation: it writes STATUS once and makes every result register it does not name invalid (R14). -/
def State.finish (s : State) (r : Results) : State := { s with results := r }

/-- The end of PUSH and DROP: no result register but STATUS is valid (R14). -/
def State.finishDone (s : State) : State := s.finish { status := .done }

/-! ## Entry (R204) -/

/-- A refusal: STATUS, ERRCODE and ERRINFO are written, every other result register becomes invalid, nothing else changes
(R199, R204). -/
def State.refuse (s : State) (r : OpRefusal) : State :=
  s.finish { status := .refused, errCode := some r.code, errInfo := some r.info }

/-- A decode error: STATUS, ERRCODE, ERRINFO, PAYLOAD and, from SCAN, CONSUMED are written and MSG stays invalid (R204). -/
def State.decodeError (s : State) (p : Bytes) (consumed : Option Nat) (e : DecodeError) : State :=
  s.finish { status := .foundErr, consumed := consumed, payload := some p,
             errCode := some e.code, errInfo := some e.info }

/-- A decoded message (R96, R111). -/
def State.foundMsg (s : State) (p : Bytes) (consumed : Option Nat) (m : Message) : State :=
  s.finish { status := .foundMsg, consumed := consumed, payload := some p, msg := some m }

/-- What SCAN and CLASSIFY write for the result of the decoder (R96, R111). -/
def State.report (s : State) (p : Bytes) (consumed : Option Nat) : Except DecodeError Message → State
  | .ok m => s.foundMsg p consumed m
  | .error e => s.decodeError p consumed e

end Sys2Proof.Machine
end

