-- ==== Sys2Proof/Machine/Reset.lean ====
section
/-! DEFINITION. RESET (70_reset_and_hazards.md R220) and the reserved operation codes (60_exceptions.md R201). -/

namespace Sys2Proof.Machine

/-- RESET (R220). ACC, LENR and SCANOFF are left unspecified: free values (log 8). The configuration and what the host has
issued are unchanged. -/
def execReset (s : State) : Host.Outcome State Fault Refusal :=
  .next ({ s with
    rxbuf := []
    acc := Config.freeAcc s.freeTick
    lenr := Config.freeLenr s.freeTick
    scanoff := Config.freeScanoff s.freeTick
    freeTick := s.freeTick + 1 }.finish { status := .idle })

/-- HOSTOP.RESERVED (R201): refused with `BadOp`; the operand is ignored. -/
def execHostopReserved (k : Fin 9) (_operand : Operand) (s : State) : Host.Outcome State Fault Refusal :=
  .next (s.refuse (.badOp (reservedOp k)))

end Sys2Proof.Machine
end

