-- ==== Sys2Proof/Machine/Operands.lean ====
section
/-! DEFINITION. The primitive codecs (44_primitive_codecs.md): Value, Mode, Range, UnitExp, fast value, packed date/time. -/

namespace Sys2Proof.Machine

/-! ## Tables (00_scope.md R3) -/

/-- The value of a finite map at a key. -/
def tableGet {α β : Type} [DecidableEq α] (t : List (α × β)) (k : α) : Option β :=
  match t with
  | [] => none
  | (a, b) :: rest => if a = k then some b else tableGet rest k

/-- A key of a finite map with a given value. -/
def tableKey {α β : Type} [DecidableEq β] (t : List (α × β)) (v : β) : Option α :=
  match t with
  | [] => none
  | (a, b) :: rest => if b = v then some a else tableKey rest v

/-! ## Mode (R153, R154) -/

/-- `DecMode` (R153). -/
def decMode (cfg : Config) (code : Half) : Except DecodeError ModeId :=
  match tableGet cfg.modeTable code with
  | some id => .ok id
  | none => .error (.unknownMeasurementMode code)

/-- `EncMode` (R154); not used by the block. -/
def encMode (cfg : Config) (id : ModeId) : Option Half := tableKey cfg.modeTable id

/-! ## Range (R155) -/

/-- `DecRange` (R155). -/
def decRange (b : Byte) : Except DecodeError Range :=
  match b.toNat with
  | 0x00 => .ok .auto
  | 0x01 => .ok .step1
  | 0x02 => .ok .step2
  | 0x03 => .ok .step3
  | 0x04 => .ok .step4
  | 0x05 => .ok .step5
  | 0x06 => .ok .step6
  | 0x07 => .ok .step7
  | 0x08 => .ok .step8
  | _ => .error (.unknownMeasurementRange b)

/-- `EncRange` (R155); not used by the block. -/
def encRange : Range → Byte
  | .auto => 0x00#8
  | .step1 => 0x01#8
  | .step2 => 0x02#8
  | .step3 => 0x03#8
  | .step4 => 0x04#8
  | .step5 => 0x05#8
  | .step6 => 0x06#8
  | .step7 => 0x07#8
  | .step8 => 0x08#8

/-! ## UnitExp (R156, R157) -/

/-- `DecUnitExp` (R157): the string's bytes are looked up, exactly. -/
def decUnitExp (cfg : Config) (p : Bytes) (o : Nat) : Except DecodeError UnitExp := do
  let bs ← field p o unitW
  match tableGet cfg.unitTable (cstr bs) with
  | some u => return u
  | none => throw (.unknownMeasurementUnit (cstr bs))

/-! ## Values (R151, R152, R158) -/

/-- A value from its magnitude, flags byte and unit (R150 to R152). -/
def mkValue (magnitude : Word) (flags : Byte) (unit : Option UnitExp) : Value where
  overloadNeg := overloadNeg flags
  overloadPos := overloadPos flags
  magnitude := magnitude
  precision := some (precisionOf flags)
  unit := unit

/-- `DecValue13` (R151): the 13 bytes are checked as a whole first. -/
def decValue13 (cfg : Config) (p : Bytes) (o : Nat) : Except DecodeError Value := do
  need p o valueW
  let magnitude ← readLE32 p o
  let flags ← readByte p (o + 4)
  let unit ← decUnitExp cfg p (o + 5)
  return mkValue magnitude flags (some unit)

/-- `DecValue5` (R152). -/
def decValue5 (p : Bytes) (o : Nat) : Except DecodeError Value := do
  need p o value5W
  let magnitude ← readLE32 p o
  let flags ← readByte p (o + 4)
  return mkValue magnitude flags none

/-- `DecFast` (R158): `FAST_UNIT_W` says how many bytes must be there, and the unit is read by `DecUnitExp`; log 14. -/
def decFast (cfg : Config) (p : Bytes) (o : Nat) : Except DecodeError FastValue := do
  need p o (4 + cfg.fastUnitW)
  let magnitude ← readLE32 p o
  let unit ← decUnitExp cfg p (o + 4)
  return { magnitude := magnitude, unit := unit }

/-! ## Packed date/time (R160 to R162) -/

/-- `DaysIn` (R161); the leap-year rule is the Gregorian calendar's within 2000..2063 (G2; log 21). -/
def daysIn (y mo : Nat) : Nat :=
  match mo with
  | 1 => 31
  | 2 => if y % 4 = 0 then 29 else 28
  | 3 => 31
  | 4 => 30
  | 5 => 31
  | 6 => 30
  | 7 => 31
  | 8 => 31
  | 9 => 30
  | 10 => 31
  | 11 => 30
  | 12 => 31
  | _ => 0

/-- `ValidDateTime` (R161). -/
def validDateTime (t : DateTime) : Bool :=
  1 ≤ t.month && t.month ≤ 12 && 1 ≤ t.day && t.day ≤ daysIn t.year t.month &&
    t.hour ≤ 23 && t.minute ≤ 59 && t.second ≤ 59

/-- The six fields of four packed bytes, by the formulas of R160. -/
def unpackDateTime (b0 b1 b2 b3 : Byte) : DateTime where
  year := 2000 + (b0 &&& 0x3F#8).toNat
  month := ((b0 >>> 6) ||| ((b1 &&& 0x03#8) <<< 2)).toNat
  day := ((b1 >>> 2) &&& 0x1F#8).toNat
  hour := ((b1 >>> 7) ||| ((b2 &&& 0x0F#8) <<< 1)).toNat
  minute := ((b2 >>> 4) ||| ((b3 &&& 0x03#8) <<< 4)).toNat
  second := (b3 >>> 2).toNat

/-- `DecDateTime` (R160). -/
def decDateTime (p : Bytes) (o : Nat) : Except DecodeError DateTime := do
  need p o dateTimeW
  let b0 ← readByte p o
  let b1 ← readByte p (o + 1)
  let b2 ← readByte p (o + 2)
  let b3 ← readByte p (o + 3)
  let t := unpackDateTime b0 b1 b2 b3
  if validDateTime t then return t else throw (.invalidDateTime t)

/-- `EncDateTime` (R162); not used by the block. -/
def encDateTime (t : DateTime) : Bytes :=
  le32Bytes (BitVec.ofNat 32 (t.year - 2000) ||| BitVec.ofNat 32 t.month <<< 6 ||| BitVec.ofNat 32 t.day <<< 10 |||
    BitVec.ofNat 32 t.hour <<< 15 ||| BitVec.ofNat 32 t.minute <<< 20 ||| BitVec.ofNat 32 t.second <<< 26)

end Sys2Proof.Machine
end

