-- ==== Sys2Proof/Machine/Measurement.lean ====
section
/-! DEFINITION. The measurement decoder (43_measurement_decoder.md). `base` is the payload offset of the header byte. -/

namespace Sys2Proof.Machine

/-- An optional field of `w` bytes at the running offset `o`; an absent field takes no room (R131, D18). -/
def optField {α : Type} (present : Bool) (o w : Nat) (dec : Nat → Except DecodeError α) :
    Except DecodeError (Option α × Nat) :=
  if present then do
    let v ← dec o
    return (some v, o + w)
  else return (none, o)

/-- `DecNormal` (R131). -/
def decNormal (cfg : Config) (p : Bytes) (base : Nat) (f : HdrFlags) : Except DecodeError Body := do
  let o := base + measHeaderW
  let main ← decValue13 cfg p o
  let o := o + valueW
  let (secondary, o) ← optField f.secondary o valueW (decValue13 cfg p)
  let (tertiary, o) ← optField f.tertiary o valueW (decValue13 cfg p)
  let (fast, _) ← optField f.fast o (4 + cfg.fastUnitW) (decFast cfg p)
  return .normal main secondary tertiary fast

/-- `DecRelative` (R132). -/
def decRelative (cfg : Config) (p : Bytes) (base : Nat) (f : HdrFlags) : Except DecodeError Body := do
  let relative ← decValue13 cfg p (base + 5)
  let reference ← decValue13 cfg p (base + 18)
  let absolute ← decValue13 cfg p (base + 31)
  let (fast, _) ← optField f.fast (base + 44) (4 + cfg.fastUnitW) (decFast cfg p)
  return .relative relative reference absolute fast

/-- One (value, duration) pair of a MinMax body (R133). -/
def decTimed (p : Bytes) (o : Nat) : Except DecodeError TimedValue := do
  let v ← decValue5 p o
  let duration ← readLE32 p (o + value5W)
  return { v := v, duration := duration }

/-- `DecMinMax` (R133), at the offsets of `MINMAX_LAYOUT`. -/
def decMinMax (cfg : Config) (p : Bytes) (base : Nat) : Except DecodeError Body := do
  let unit ← decUnitExp cfg p (base + cfg.minMax.unit)
  let main ← decTimed p (base + cfg.minMax.main)
  let max ← decTimed p (base + cfg.minMax.max)
  let average ← decTimed p (base + cfg.minMax.average)
  let min ← decTimed p (base + cfg.minMax.min)
  return .minMax unit main max average min

/-- `DecPeak` (R134). -/
def decPeak (cfg : Config) (p : Bytes) (base : Nat) : Except DecodeError Body := do
  let max ← decValue13 cfg p (base + 5)
  let min ← decValue13 cfg p (base + 18)
  return .peak max min

/-- The body of a measurement, by its kind (R130). -/
def decBody (cfg : Config) (p : Bytes) (base : Nat) (f : HdrFlags) : Kind → Except DecodeError Body
  | .normal => decNormal cfg p base f
  | .relative => decRelative cfg p base f
  | .minMax => decMinMax cfg p base
  | .peak => decPeak cfg p base

/-- A measurement after its header byte has been read: auto-range byte, mode, range, then the body (R130). -/
def decMeasRest (cfg : Config) (p : Bytes) (base : Nat) (f : HdrFlags) (body : Except DecodeError Body) :
    Except DecodeError Measurement := do
  let auto ← readByte p (base + 1)
  let code ← readLE16 p (base + 2)
  let mode ← decMode cfg code
  let rangeByte ← readByte p (base + 4)
  let range ← decRange rangeByte
  let body ← body
  return { mode := mode, range := range, hold := f.hold, autoRange := auto == 0x01#8, body := body }

/-- `DecMeas` (R130). -/
def decMeas (cfg : Config) (p : Bytes) (base : Nat) : Except DecodeError Measurement := do
  let hdr ← readByte p base
  match kindOf hdr with
  | none => throw (.unknownMeasurementKind hdr)
  | some k => decMeasRest cfg p base (flagsOf hdr) (decBody cfg p base (flagsOf hdr) k)

end Sys2Proof.Machine
end

