-- ==== Sys2Proof/Machine/Classifier.lean ====
section
/-! DEFINITION. The message classifier (42_message_classifier.md): CLASSIFY and the rows of formats MSG, REPLYCODE, MEAS and RANGE,
each of which is CLASSIFY of a payload that holds the row's code, decoded by the row's own rule (log 2). -/

namespace Sys2Proof.Machine

/-! ## The shapes (R112 to R117) -/

/-- Tag 0x01 (R112). -/
def replyCode (p : Bytes) : Except DecodeError Message := do
  let code ← readLE16 p 1
  match code.toNat with
  | 0x4B4F => return .success
  | 0x5245 => return .deviceError
  | _ => throw (.unknownReplyCode code)

/-- A live measurement from the decoded measurement (R113). -/
def liveMessage (m : Except DecodeError Measurement) : Except DecodeError Message := do
  return .measurement (← m)

/-- A saved measurement: the date/time, then the measurement (R114). -/
def savedMessage (p : Bytes) (m : Except DecodeError Measurement) : Except DecodeError Message := do
  let ts ← decDateTime p 1
  return .savedMeasurement ts (← m)

/-- Tag 0x02 (R113). -/
def meas (cfg : Config) (p : Bytes) : Except DecodeError Message := liveMessage (decMeas cfg p 1)

/-- Tag 0x03 (R114). -/
def saved (cfg : Config) (p : Bytes) : Except DecodeError Message := savedMessage p (decMeas cfg p 5)

/-- A field of a layout whose format has a reader of its own: the field's bytes must all be there, and the reader is applied at
its offset; log 14. -/
def readAt {α : Type} (dec : Bytes → Nat → Except DecodeError α) (p : Bytes) (l : LayoutField) : Except DecodeError α := do
  need p l.off l.width
  dec p l.off

/-- Tag 0x04 (R115), at the offsets and widths of `RECINFO_LAYOUT`. -/
def recInfo (cfg : Config) (p : Bytes) : Except DecodeError Message := do
  let l := cfg.recInfo
  let name ← field p l.name.off l.name.width
  let unit ← readAt (decUnitExp cfg) p l.unit
  let interval ← readNat p l.interval.off l.interval.width
  let duration ← readNat p l.duration.off l.duration.width
  let samples ← readNat p l.samples.off l.samples.width
  let max ← readAt decValue5 p l.max
  let average ← readAt decValue5 p l.average
  let min ← readAt decValue5 p l.min
  let start ← readAt decDateTime p l.start
  return .recordInfo {
    name := cstr name, unit := unit, interval := interval, duration := duration, samples := samples,
    max := max, average := average, min := min, start := start }

/-- The record data item at `o` (R116). -/
def decItem (p : Bytes) (o : Nat) : Except DecodeError RecordDataItem := do
  let v ← decValue5 p o
  let ts ← decDateTime p (o + value5W)
  return { v := v, ts := ts }

/-- `n` items in wire order from `o`; the first that does not decode gives the error (R116). -/
def decItems (p : Bytes) (o : Nat) : Nat → Except DecodeError (List RecordDataItem)
  | 0 => .ok []
  | n + 1 => do
    let item ← decItem p o
    let rest ← decItems p (o + itemW) n
    return item :: rest

/-- Tag 0x05 (R116). -/
def recData (p : Bytes) : Except DecodeError Message := do
  let count ← readByte p 1
  return .recordDataBatch (← decItems p 2 count.toNat)

/-- Tag 0x72 (R117). -/
def reply (p : Bytes) : Except DecodeError Message := .ok (.reply (p.drop 1))

/-- `Classify` (R110, R118). -/
def classify (cfg : Config) (p : Bytes) : Except DecodeError Message := do
  let tag ← readByte p 0
  match tag.toNat with
  | 0x01 => replyCode p
  | 0x02 => meas cfg p
  | 0x03 => saved cfg p
  | 0x04 => recInfo cfg p
  | 0x05 => recData p
  | 0x72 => reply p
  | _ => throw (.unknownMessageFormat tag)

/-! ## Operations -/

/-- The end of CLASSIFY for a payload and what the decoder made of it (R111). -/
def State.classified (s : State) (p : Bytes) (r : Except DecodeError Message) : State :=
  if p.length > maxPayload then s.refuse (.payloadTooLong p.length) else s.report p none r

/-- CLASSIFY (R111). -/
def execClassify (p : Bytes) (s : State) : Host.Outcome State Fault Refusal :=
  .next (s.classified p (classify s.config p))

/-! ### Rows of format MSG -/

/-- MSG.REPLYCODE (R112). -/
def execMsgReplyCode (rest : Bytes) (s : State) : Host.Outcome State Fault Refusal :=
  .next (s.classified (0x01#8 :: rest) (replyCode (0x01#8 :: rest)))

/-- MSG.MEAS (R113). -/
def execMsgMeas (rest : Bytes) (s : State) : Host.Outcome State Fault Refusal :=
  .next (s.classified (0x02#8 :: rest) (meas s.config (0x02#8 :: rest)))

/-- MSG.SAVED (R114). -/
def execMsgSaved (rest : Bytes) (s : State) : Host.Outcome State Fault Refusal :=
  .next (s.classified (0x03#8 :: rest) (saved s.config (0x03#8 :: rest)))

/-- MSG.RECINFO (R115). -/
def execMsgRecInfo (rest : Bytes) (s : State) : Host.Outcome State Fault Refusal :=
  .next (s.classified (0x04#8 :: rest) (recInfo s.config (0x04#8 :: rest)))

/-- MSG.RECDATA (R116). -/
def execMsgRecData (rest : Bytes) (s : State) : Host.Outcome State Fault Refusal :=
  .next (s.classified (0x05#8 :: rest) (recData (0x05#8 :: rest)))

/-- MSG.REPLY (R117). -/
def execMsgReply (rest : Bytes) (s : State) : Host.Outcome State Fault Refusal :=
  .next (s.classified (0x72#8 :: rest) (reply (0x72#8 :: rest)))

/-! ### Rows of format REPLYCODE -/

/-- REPLY.SUCCESS (R112). -/
def execReplySuccess (rest : Bytes) (s : State) : Host.Outcome State Fault Refusal :=
  .next (s.classified (0x01#8 :: (le16Bytes 0x4B4F#16 ++ rest)) (.ok .success))

/-- REPLY.DEVICEERROR (R112). -/
def execReplyDeviceError (rest : Bytes) (s : State) : Host.Outcome State Fault Refusal :=
  .next (s.classified (0x01#8 :: (le16Bytes 0x5245#16 ++ rest)) (.ok .deviceError))

/-! ### Rows of format MEAS -/

/-- The message a measurement makes in its payload (R113, R114). -/
def carried (c : Carrier) (p : Bytes) (m : Except DecodeError Measurement) : Except DecodeError Message :=
  match c with
  | .live => liveMessage m
  | .saved _ _ _ _ => savedMessage p m

/-- CLASSIFY of a measurement whose kind and header bits are known and whose body is decoded by `body` (R130). -/
def State.classifiedMeas (s : State) (c : Carrier) (k : Kind) (f : HdrFlags) (rest : Bytes)
    (body : Bytes → Except DecodeError Body) : State :=
  let p := measPayload c (hdrByte k f) rest
  s.classified p (carried c p (decMeasRest s.config p c.base f (body p)))

/-- MEAS.NORMAL (R131). -/
def execMeasNormal (c : Carrier) (f : HdrFlags) (rest : Bytes) (s : State) : Host.Outcome State Fault Refusal :=
  .next (s.classifiedMeas c .normal f rest (fun p => decNormal s.config p c.base f))

/-- MEAS.RELATIVE (R132). -/
def execMeasRelative (c : Carrier) (f : HdrFlags) (rest : Bytes) (s : State) : Host.Outcome State Fault Refusal :=
  .next (s.classifiedMeas c .relative f rest (fun p => decRelative s.config p c.base f))

/-- MEAS.MINMAX (R133). -/
def execMeasMinMax (c : Carrier) (f : HdrFlags) (rest : Bytes) (s : State) : Host.Outcome State Fault Refusal :=
  .next (s.classifiedMeas c .minMax f rest (fun p => decMinMax s.config p c.base))

/-- MEAS.PEAK (R134). -/
def execMeasPeak (c : Carrier) (f : HdrFlags) (rest : Bytes) (s : State) : Host.Outcome State Fault Refusal :=
  .next (s.classifiedMeas c .peak f rest (fun p => decPeak s.config p c.base))

/-! ### Rows of format RANGE -/

/-- A measurement whose range byte is known to mean `r` (R130, R155). -/
def decMeasRange (cfg : Config) (p : Bytes) (u : RangeUse) (r : Range) : Except DecodeError Measurement := do
  let mode ← decMode cfg u.mode
  let body ← decBody cfg p u.carrier.base u.flags u.kind
  return { mode := mode, range := r, hold := u.flags.hold, autoRange := u.auto == 0x01#8, body := body }

/-- CLASSIFY of a measurement with range byte `b`, which means `r`. -/
def State.classifiedRange (s : State) (u : RangeUse) (b : Byte) (r : Range) : State :=
  s.classified (u.payload b) (carried u.carrier (u.payload b) (decMeasRange s.config (u.payload b) u r))

/-- RANGE.AUTO (R155). -/
def execRangeAuto (u : RangeUse) (s : State) : Host.Outcome State Fault Refusal := .next (s.classifiedRange u 0x00#8 .auto)

/-- RANGE.STEP1 (R155). -/
def execRangeStep1 (u : RangeUse) (s : State) : Host.Outcome State Fault Refusal := .next (s.classifiedRange u 0x01#8 .step1)

/-- RANGE.STEP2 (R155). -/
def execRangeStep2 (u : RangeUse) (s : State) : Host.Outcome State Fault Refusal := .next (s.classifiedRange u 0x02#8 .step2)

/-- RANGE.STEP3 (R155). -/
def execRangeStep3 (u : RangeUse) (s : State) : Host.Outcome State Fault Refusal := .next (s.classifiedRange u 0x03#8 .step3)

/-- RANGE.STEP4 (R155). -/
def execRangeStep4 (u : RangeUse) (s : State) : Host.Outcome State Fault Refusal := .next (s.classifiedRange u 0x04#8 .step4)

/-- RANGE.STEP5 (R155). -/
def execRangeStep5 (u : RangeUse) (s : State) : Host.Outcome State Fault Refusal := .next (s.classifiedRange u 0x05#8 .step5)

/-- RANGE.STEP6 (R155). -/
def execRangeStep6 (u : RangeUse) (s : State) : Host.Outcome State Fault Refusal := .next (s.classifiedRange u 0x06#8 .step6)

/-- RANGE.STEP7 (R155). -/
def execRangeStep7 (u : RangeUse) (s : State) : Host.Outcome State Fault Refusal := .next (s.classifiedRange u 0x07#8 .step7)

/-- RANGE.STEP8 (R155). -/
def execRangeStep8 (u : RangeUse) (s : State) : Host.Outcome State Fault Refusal := .next (s.classifiedRange u 0x08#8 .step8)

end Sys2Proof.Machine
end

