-- ==== Sys2Proof/Machine/Codec.lean ====
section
/-! DEFINITION. The frame codec (40_frame_codec.md): the checksum accumulator, CSUM, BUILD, and the request rows (30_encoding.md
R73), each of which is framed by BUILD. -/

namespace Sys2Proof.Machine

/-- The length field of a payload of `n` bytes (R50). -/
def lenField (n : Nat) : Half := BitVec.ofNat 16 (n + 2)

/-- The value ACC is loaded with (R80). -/
def seed (len : Half) : Half := csumBias + (len &&& 0x00FF#16) + (len >>> 8)

/-- The bytes of `p` added into ACC in order, modulo 2^16 (R80). -/
def addBytes (acc : Half) (p : Bytes) : Half := p.foldl (fun a b => a + b.setWidth 16) acc

/-- `Checksum(p)` (R80). -/
def checksum (p : Bytes) : Half := addBytes (seed (lenField p.length)) p

/-- `FRAME(p)`: the bytes BUILD produces (R82, 30_encoding.md R75). -/
def frameOf (p : Bytes) : Bytes :=
  [marker0, marker1] ++ le16Bytes (lenField p.length) ++ p ++ le16Bytes (checksum p)

/-- ACC and LENR after a checksum (R11, R12; log 9). -/
def State.withChecksumOf (s : State) (p : Bytes) : State :=
  { s with lenr := lenField p.length, acc := checksum p }

/-- CSUM (R81). -/
def State.csum (s : State) (p : Bytes) : State :=
  if p.length > maxPayload then s.refuse (.payloadTooLong p.length)
  else (s.withChecksumOf p).finish { status := .done, csumOut := some (checksum p) }

/-- BUILD (R82). -/
def State.build (s : State) (p : Bytes) : State :=
  if p.length > maxPayload then s.refuse (.payloadTooLong p.length)
  else (s.withChecksumOf p).finish { status := .done, txbuf := some (frameOf p) }

/-- CSUM (R81). -/
def execCsum (p : Bytes) (s : State) : Host.Outcome State Fault Refusal := .next (s.csum p)

/-- BUILD (R82). -/
def execBuild (p : Bytes) (s : State) : Host.Outcome State Fault Refusal := .next (s.build p)

/-! ## Request tags (R73): BUILD of a request payload of that tag -/

/-- REQ.SETMODE. -/
def execReqSetMode (o : Bytes) (s : State) : Host.Outcome State Fault Refusal := .next (s.build (0x01#8 :: o))

/-- REQ.SETRANGE. -/
def execReqSetRange (o : Bytes) (s : State) : Host.Outcome State Fault Refusal := .next (s.build (0x02#8 :: o))

/-- REQ.SETREF. -/
def execReqSetRef (o : Bytes) (s : State) : Host.Outcome State Fault Refusal := .next (s.build (0x03#8 :: o))

/-- REQ.SETMINMAX. -/
def execReqSetMinMax (o : Bytes) (s : State) : Host.Outcome State Fault Refusal := .next (s.build (0x04#8 :: o))

/-- REQ.MONITOR. -/
def execReqMonitor (o : Bytes) (s : State) : Host.Outcome State Fault Refusal := .next (s.build (0x05#8 :: o))

/-- REQ.SAVE. -/
def execReqSave (o : Bytes) (s : State) : Host.Outcome State Fault Refusal := .next (s.build (0x06#8 :: o))

/-- REQ.READSAVE. -/
def execReqReadSave (o : Bytes) (s : State) : Host.Outcome State Fault Refusal := .next (s.build (0x07#8 :: o))

/-- REQ.SAVECOUNT. -/
def execReqSaveCount (o : Bytes) (s : State) : Host.Outcome State Fault Refusal := .next (s.build (0x08#8 :: o))

/-- REQ.DELSAVE. -/
def execReqDelSave (o : Bytes) (s : State) : Host.Outcome State Fault Refusal := .next (s.build (0x09#8 :: o))

/-- REQ.RECSTART. -/
def execReqRecStart (o : Bytes) (s : State) : Host.Outcome State Fault Refusal := .next (s.build (0x0A#8 :: o))

/-- REQ.RECSTOP. -/
def execReqRecStop (o : Bytes) (s : State) : Host.Outcome State Fault Refusal := .next (s.build (0x0B#8 :: o))

/-- REQ.RECINFO. -/
def execReqRecInfo (o : Bytes) (s : State) : Host.Outcome State Fault Refusal := .next (s.build (0x0C#8 :: o))

/-- REQ.RECDATA. -/
def execReqRecData (o : Bytes) (s : State) : Host.Outcome State Fault Refusal := .next (s.build (0x0D#8 :: o))

/-- REQ.RECCOUNT. -/
def execReqRecCount (o : Bytes) (s : State) : Host.Outcome State Fault Refusal := .next (s.build (0x0E#8 :: o))

/-- REQ.HOLD; byte 1 is 0x5A in a well-formed request (log 17). -/
def execReqHold (o : Bytes) (s : State) : Host.Outcome State Fault Refusal := .next (s.build (0x12#8 :: o))

end Sys2Proof.Machine
end

