-- ==== Sys2Proof/Machine/Scanner.lean ====
section
/-! DEFINITION. The receive buffer and the frame scanner (41_frame_scanner.md): PUSH, SCAN, DROP, and the row FRAME. -/

namespace Sys2Proof.Machine

/-! ## PUSH (R90) -/

/-- Whether `k` more bytes fit RXBUF (R90). -/
def State.pushFits (s : State) (k : Nat) : Bool :=
  match s.config.rxCap with
  | none => true
  | some cap => s.rxbuf.length + k ≤ cap

/-- PUSH (R90). -/
def State.push (s : State) (b : Bytes) : State :=
  if s.pushFits b.length then { s with rxbuf := s.rxbuf ++ b }.finishDone
  else s.refuse (.bufOverflow s.rxlen b.length)

/-- PUSH (R90). -/
def execPush (b : Bytes) (s : State) : Host.Outcome State Fault Refusal := .next (s.push b)

/-! ## SCAN (R91 to R98) -/

/-- The least offset in `buf` at which both marker bytes stand (R92). -/
def markerIn : Bytes → Option Nat
  | a :: b :: t => if a = marker0 ∧ b = marker1 then some 0 else (markerIn (b :: t)).map (· + 1)
  | _ => none

/-- The least marker offset at or after `off` (R92). -/
def findMarker (buf : Bytes) (off : Nat) : Option Nat := (markerIn (buf.drop off)).map (· + off)

/-- The registers SCAN works with (10_state.md R11 to R13). -/
structure ScanRegs where
  acc : Half
  lenr : Half
  scanoff : Nat
  deriving DecidableEq, Repr

/-- How a search ends: with no decision, or with a valid frame at marker offset `m` whose length field is `len` (R98). -/
inductive ScanEnd where
  | incomplete
  | found (m : Nat) (len : Half)
  deriving DecidableEq, Repr

/-- The candidate payload at marker offset `m` (R96). -/
def candidate (buf : Bytes) (m : Nat) (len : Half) : Bytes := slice buf (m + 4) (len.toNat - 2)

/-- The passes of R92 to R97. `fuel` bounds their number; RXLEN + 1 of them are more than are needed, since each moves
SCANOFF up by at least 2 (R98). -/
def scanLoop (buf : Bytes) : Nat → ScanRegs → ScanEnd × ScanRegs
  | 0, r => (.incomplete, r)
  | fuel + 1, r =>
    match findMarker buf r.scanoff with
    | none => (.incomplete, r)                                             -- R92
    | some m =>
      if buf.length - (m + 2) < 2 then (.incomplete, r)                    -- R93
      else
        let len := le16 (slice buf (m + 2) 2)                              -- R94
        if len.toNat < 2 then scanLoop buf fuel { r with lenr := len, scanoff := m + 2 }
        else if buf.length - (m + 4) < len.toNat then (.incomplete, { r with lenr := len })  -- R95
        else
          let c := addBytes (seed len) (candidate buf m len)               -- R96
          if c = le16 (slice buf (m + 2 + len.toNat) 2) then (.found m len, { r with lenr := len, acc := c })
          else scanLoop buf fuel { acc := c, lenr := len, scanoff := m + 2 }   -- R97

/-- The search of a SCAN: SCANOFF starts at 0 (R91). -/
def State.search (s : State) : ScanEnd × ScanRegs :=
  scanLoop s.rxbuf (s.rxlen + 1) { acc := s.acc, lenr := s.lenr, scanoff := 0 }

/-- The working registers as SCAN leaves them (log 9). -/
def State.withScanRegs (s : State) (r : ScanRegs) : State :=
  { s with acc := r.acc, lenr := r.lenr, scanoff := r.scanoff }

/-- SCAN (R91 to R99). -/
def State.scan (s : State) : State :=
  match s.search with
  | (.incomplete, r) => (s.withScanRegs r).finish { status := .incomplete }
  | (.found m len, r) =>
    let p := candidate s.rxbuf m len
    (s.withScanRegs r).report p (some (m + 4 + len.toNat)) (classify s.config p)

/-- SCAN (R91 to R99). -/
def execScan (s : State) : Host.Outcome State Fault Refusal := .next s.scan

/-! ## DROP (R100) -/

/-- DROP of a count (R100). -/
def State.drop (s : State) (k : Nat) : State :=
  if k > s.rxlen then s.refuse (.badDrop k s.rxlen)
  else { s with rxbuf := s.rxbuf.drop k }.finishDone

/-- DROP (R100). `DROP CONSUMED` reads CONSUMED first (30_encoding.md R74), which gives no value when it is invalid (R14;
log 10). -/
def execDrop (k : DropCount) (s : State) : Host.Outcome State Fault Refusal :=
  match k with
  | .count k => .next (s.drop k)
  | .consumed =>
    match s.results.consumed with
    | some c => .next (s.drop c)
    | none => .fault (.invalidResultRead .consumed)

/-! ## Bytes of the wire (30_encoding.md R50) -/

/-- Bytes from the wire are pushed (R90, 30_encoding.md R75) and, unless that was refused, scanned (R96); log 3. -/
def State.pushScan (s : State) (b : Bytes) : State :=
  if s.pushFits b.length then (s.push b).scan else s.push b

/-- The row FRAME: a frame of the wire (R50; log 3). -/
def execFrame (len : Half) (rest : Bytes) (s : State) : Host.Outcome State Fault Refusal :=
  .next (s.pushScan (frameBytes len rest))

/-! ## Illegal values (30_encoding.md R71) -/

/-- What the block does with what is of no row of its format: bytes that are no frame are scanned as any bytes are, a payload is
classified, which gives the decode error R71 names, and a request is framed, since BUILD frames any bytes (R73; log 13). -/
def execIllegal (i : Illegal) (s : State) : Host.Outcome State Fault Refusal :=
  match i with
  | .stream _ b => .next (s.pushScan b)
  | .payload _ p => .next (s.classified p (classify s.config p))
  | .request _ p => .next (s.build p)

end Sys2Proof.Machine
end

