-- ==== Sys2Proof/Machine/Dispatch.lean ====
section
/-! DEFINITION. The meaning of each instruction: one arm per constructor of Instr. -/

namespace Sys2Proof.Machine

def exec (i : Instr) (s : State) : Host.Outcome State Fault Refusal :=
  match i with
  | .reset => Sys2Proof.Machine.execReset s
  | .push b => Sys2Proof.Machine.execPush b s
  | .scan => Sys2Proof.Machine.execScan s
  | .drop k => Sys2Proof.Machine.execDrop k s
  | .csum p => Sys2Proof.Machine.execCsum p s
  | .build p => Sys2Proof.Machine.execBuild p s
  | .classify p => Sys2Proof.Machine.execClassify p s
  | .hostopReserved op operand => Sys2Proof.Machine.execHostopReserved op operand s
  | .frame len rest => Sys2Proof.Machine.execFrame len rest s
  | .msgReplyCode rest => Sys2Proof.Machine.execMsgReplyCode rest s
  | .msgMeas rest => Sys2Proof.Machine.execMsgMeas rest s
  | .msgSaved rest => Sys2Proof.Machine.execMsgSaved rest s
  | .msgRecInfo rest => Sys2Proof.Machine.execMsgRecInfo rest s
  | .msgRecData rest => Sys2Proof.Machine.execMsgRecData rest s
  | .msgReply rest => Sys2Proof.Machine.execMsgReply rest s
  | .replySuccess rest => Sys2Proof.Machine.execReplySuccess rest s
  | .replyDeviceError rest => Sys2Proof.Machine.execReplyDeviceError rest s
  | .measNormal c f rest => Sys2Proof.Machine.execMeasNormal c f rest s
  | .measRelative c f rest => Sys2Proof.Machine.execMeasRelative c f rest s
  | .measMinMax c f rest => Sys2Proof.Machine.execMeasMinMax c f rest s
  | .measPeak c f rest => Sys2Proof.Machine.execMeasPeak c f rest s
  | .rangeAuto u => Sys2Proof.Machine.execRangeAuto u s
  | .rangeStep1 u => Sys2Proof.Machine.execRangeStep1 u s
  | .rangeStep2 u => Sys2Proof.Machine.execRangeStep2 u s
  | .rangeStep3 u => Sys2Proof.Machine.execRangeStep3 u s
  | .rangeStep4 u => Sys2Proof.Machine.execRangeStep4 u s
  | .rangeStep5 u => Sys2Proof.Machine.execRangeStep5 u s
  | .rangeStep6 u => Sys2Proof.Machine.execRangeStep6 u s
  | .rangeStep7 u => Sys2Proof.Machine.execRangeStep7 u s
  | .rangeStep8 u => Sys2Proof.Machine.execRangeStep8 u s
  | .reqSetMode operand => Sys2Proof.Machine.execReqSetMode operand s
  | .reqSetRange operand => Sys2Proof.Machine.execReqSetRange operand s
  | .reqSetRef operand => Sys2Proof.Machine.execReqSetRef operand s
  | .reqSetMinMax operand => Sys2Proof.Machine.execReqSetMinMax operand s
  | .reqMonitor operand => Sys2Proof.Machine.execReqMonitor operand s
  | .reqSave operand => Sys2Proof.Machine.execReqSave operand s
  | .reqReadSave operand => Sys2Proof.Machine.execReqReadSave operand s
  | .reqSaveCount operand => Sys2Proof.Machine.execReqSaveCount operand s
  | .reqDelSave operand => Sys2Proof.Machine.execReqDelSave operand s
  | .reqRecStart operand => Sys2Proof.Machine.execReqRecStart operand s
  | .reqRecStop operand => Sys2Proof.Machine.execReqRecStop operand s
  | .reqRecInfo operand => Sys2Proof.Machine.execReqRecInfo operand s
  | .reqRecData operand => Sys2Proof.Machine.execReqRecData operand s
  | .reqRecCount operand => Sys2Proof.Machine.execReqRecCount operand s
  | .reqHold operand => Sys2Proof.Machine.execReqHold operand s

end Sys2Proof.Machine
end

