-- ==== Sys2Proof/Machine/Step.lean ====
section
/-! DEFINITION. One step: the oldest operation the host has issued is decoded and performed (20_memory.md R39); what is of no row
has the effect of 30_encoding.md R71; log 1, log 13. -/

namespace Sys2Proof.Machine

/-- One step of the machine. -/
def step (s : State) : Host.Outcome State Fault Refusal :=
  match s.requests with
  | [] => .refused .noOperation
  | r :: rest =>
    match decode r with
    | .error i => execIllegal i { s with requests := rest }
    | .ok i => exec i { s with requests := rest }

/-- `s` with the instruction of a table word issued as the next operation (log 12). -/
def State.withFetchWord (s : State) (nbits w : Nat) : State :=
  { s with requests := requestOfWord nbits w :: s.requests }

end Sys2Proof.Machine
end

