-- ==== Sys2Proof/Laws/Bytes.lean ====
section
/-! SUPPORT. Byte order and reads of a payload: what a read gives when the bytes are there, and when they are not. -/

namespace Sys2Proof.Machine

/-! ## Little-endian numbers -/

theorem leNat_append (a b : Bytes) : leNat (a ++ b) = leNat a + 256 ^ a.length * leNat b := by
  induction a with
  | nil => simp [leNat]
  | cons x t ih => simp only [List.cons_append, leNat, ih, List.length_cons, pow_succ]; ring

theorem leNat_lt (a : Bytes) : leNat a < 256 ^ a.length := by
  induction a with
  | nil => simp [leNat]
  | cons x t ih =>
    have := x.isLt
    simp only [leNat, List.length_cons, pow_succ]
    omega

@[simp] theorem leNat_singleton (b : Byte) : leNat [b] = b.toNat := by simp [leNat]

@[simp] theorem length_le16Bytes (v : Half) : (le16Bytes v).length = 2 := rfl

@[simp] theorem length_le32Bytes (v : Word) : (le32Bytes v).length = 4 := rfl

theorem leNat_le16Bytes (v : Half) : leNat (le16Bytes v) = v.toNat := by
  have := v.isLt
  simp only [le16Bytes, leNat, BitVec.toNat_setWidth, BitVec.toNat_ushiftRight, Nat.shiftRight_eq_div_pow]
  omega

theorem leNat_le32Bytes (v : Word) : leNat (le32Bytes v) = v.toNat := by
  have := v.isLt
  simp only [le32Bytes, leNat, BitVec.toNat_setWidth, BitVec.toNat_ushiftRight, Nat.shiftRight_eq_div_pow]
  omega

@[simp] theorem le16_le16Bytes (v : Half) : le16 (le16Bytes v) = v := by
  simp [le16, leNat_le16Bytes]

@[simp] theorem le32_le32Bytes (v : Word) : le32 (le32Bytes v) = v := by
  simp [le32, leNat_le32Bytes]

theorem le16_pair_toNat (a b : Byte) : (le16 [a, b]).toNat = a.toNat + 256 * b.toNat := by
  have := a.isLt
  have := b.isLt
  simp only [le16, leNat, BitVec.toNat_ofNat]
  omega

theorem le16_toNat {bs : Bytes} (h : bs.length = 2) : (le16 bs).toNat = leNat bs := by
  have := leNat_lt bs
  rw [h] at this
  simp only [le16, BitVec.toNat_ofNat]
  omega

/-- The two bytes of a number and the number of two bytes are inverse. -/
@[simp] theorem le16Bytes_le16 (a b : Byte) : le16Bytes (le16 [a, b]) = [a, b] := by
  have ha := a.isLt
  have hb := b.isLt
  have h := le16_pair_toNat a b
  simp only [le16Bytes, List.cons.injEq, and_true]
  constructor <;> apply BitVec.eq_of_toNat_eq <;>
    simp only [BitVec.toNat_setWidth, BitVec.toNat_ushiftRight, Nat.shiftRight_eq_div_pow, h] <;> omega

/-! ## Slices -/

theorem slice_append (a b c : Bytes) : slice (a ++ (b ++ c)) a.length b.length = b := by
  simp [slice]

theorem length_slice {s : Bytes} {o n : Nat} (h : o + n ≤ s.length) : (slice s o n).length = n := by
  simp [slice]; omega

/-- Bytes that stand at an offset of a sequence. -/
def StandsAt (p : Bytes) (o : Nat) (bs : Bytes) : Prop := ∃ pre post, p = pre ++ (bs ++ post) ∧ pre.length = o

theorem StandsAt.left {p : Bytes} {o : Nat} {a b : Bytes} (h : StandsAt p o (a ++ b)) : StandsAt p o a := by
  obtain ⟨pre, post, rfl, rfl⟩ := h
  exact ⟨pre, b ++ post, by simp, rfl⟩

theorem StandsAt.right {p : Bytes} {o : Nat} {a b : Bytes} (h : StandsAt p o (a ++ b)) :
    StandsAt p (o + a.length) b := by
  obtain ⟨pre, post, rfl, rfl⟩ := h
  exact ⟨pre ++ a, post, by simp, by simp⟩

theorem StandsAt.head {p : Bytes} {o : Nat} {x : Byte} {b : Bytes} (h : StandsAt p o (x :: b)) :
    StandsAt p o [x] := StandsAt.left (a := [x]) (b := b) h

theorem StandsAt.tail {p : Bytes} {o : Nat} {x : Byte} {b : Bytes} (h : StandsAt p o (x :: b)) :
    StandsAt p (o + 1) b := StandsAt.right (a := [x]) (b := b) h

theorem StandsAt.le {p : Bytes} {o : Nat} {bs : Bytes} (h : StandsAt p o bs) : o + bs.length ≤ p.length := by
  obtain ⟨pre, post, rfl, rfl⟩ := h
  simp

theorem StandsAt.slice {p : Bytes} {o : Nat} {bs : Bytes} (h : StandsAt p o bs) : slice p o bs.length = bs := by
  obtain ⟨pre, post, rfl, rfl⟩ := h
  exact slice_append pre bs post

theorem StandsAt.slice_eq {p : Bytes} {o n : Nat} {bs : Bytes} (h : StandsAt p o bs) (hn : bs.length = n) :
    Machine.slice p o n = bs := by
  subst hn; exact h.slice

/-- A slice that is all there does not depend on what follows. -/
theorem slice_append_left {a b : Bytes} {o n : Nat} (h : o + n ≤ a.length) : slice (a ++ b) o n = slice a o n := by
  simp only [slice]
  rw [List.drop_append_of_le_length (by omega), List.take_append_of_le_length (by simp; omega)]

/-! ## Guarded reads -/

theorem field_ok {p : Bytes} {o n : Nat} (h : o + n ≤ p.length) : field p o n = .ok (slice p o n) := by
  simp [field, bufRead, h]

theorem field_error {p : Bytes} {o n : Nat} (h : p.length < o + n) :
    field p o n = .error (.truncated (o + n) p.length) := by
  simp [field, bufRead, Nat.not_le.mpr h]

/-- Everything a guarded read can do. -/
theorem field_cases (p : Bytes) (o n : Nat) :
    (o + n ≤ p.length ∧ field p o n = .ok (slice p o n)) ∨
      (p.length < o + n ∧ field p o n = .error (.truncated (o + n) p.length)) := by
  by_cases h : o + n ≤ p.length
  · exact .inl ⟨h, field_ok h⟩
  · exact .inr ⟨Nat.not_le.mp h, field_error (Nat.not_le.mp h)⟩

theorem need_ok {p : Bytes} {o n : Nat} (h : o + n ≤ p.length) : need p o n = .ok () := by simp [need, h]

theorem need_error {p : Bytes} {o n : Nat} (h : p.length < o + n) :
    need p o n = .error (.truncated (o + n) p.length) := by simp [need, Nat.not_le.mpr h]

theorem StandsAt.field {p : Bytes} {o n : Nat} {bs : Bytes} (h : StandsAt p o bs) (hn : bs.length = n) :
    field p o n = .ok bs := by
  subst hn
  rw [field_ok h.le, h.slice]

theorem StandsAt.readByte {p : Bytes} {o : Nat} {b : Byte} (h : StandsAt p o [b]) : readByte p o = .ok b := by
  simp [Machine.readByte, h.field (n := 1) rfl, bind, Except.bind, pure, Except.pure]

theorem StandsAt.readLE16 {p : Bytes} {o : Nat} {v : Half} (h : StandsAt p o (le16Bytes v)) :
    readLE16 p o = .ok v := by
  simp [Machine.readLE16, h.field (n := 2) rfl, bind, Except.bind, pure, Except.pure]

theorem StandsAt.readLE32 {p : Bytes} {o : Nat} {v : Word} (h : StandsAt p o (le32Bytes v)) :
    readLE32 p o = .ok v := by
  simp [Machine.readLE32, h.field (n := 4) rfl, bind, Except.bind, pure, Except.pure]

theorem StandsAt.need {p : Bytes} {o n : Nat} {bs : Bytes} (h : StandsAt p o bs) (hn : bs.length = n) :
    need p o n = .ok () := need_ok (hn ▸ h.le)

end Sys2Proof.Machine
end

