-- ==== Sys2Proof/Machine/Driver.lean ====
section
/-! DEFINITION. The host's side (45_host_contract.md), as functions over the block's operations: read_message, the command
exchange, pagination and input validation. It is no part of the block's state and `step` never calls it; log 15. -/

namespace Sys2Proof.Machine

/-- The host's wait deadline (R179). -/
def waitMs : Nat := 5000

/-- The most bytes one transport read gives (R172, R179). -/
def chunkW : Nat := 64

/-- One bounded transport read: up to 64 bytes, possibly none, after some milliseconds (R172, R178). How long one read may take
is implementation-defined (R178) and a parameter of a host model (93_implementation_defined.md U10); DESIGN CHOICE, log 15: no
timeout is fixed, and `ms` is any number, so a session may hold reads of every duration. -/
structure TransportRead where
  bytes : Bytes
  ms : Nat
  fits : bytes.length ≤ chunkW := by decide
  deriving DecidableEq, Repr

/-- Why a host operation fails: an error of the block, which the host passes on, or one of the host's own errors (R180). -/
inductive HostError where
  | block (code : ErrCode) (info : ErrInfo)
  | waitTimeout
  | commandError
  | transport
  | invalidInput
  deriving DecidableEq, Repr

/-- A session: the block, the time in milliseconds, the reads the transport will still give, whether each write to come succeeds
(a write past the list's end does; log 15), and the frames written. -/
structure Session where
  block : State
  now : Nat
  reads : List TransportRead
  writes : List Bool
  sent : List Bytes
  deriving DecidableEq, Repr

/-- `DROP CONSUMED` where CONSUMED is valid (R171). -/
def State.dropConsumed (s : State) : State :=
  match s.results.consumed with
  | some c => s.drop c
  | none => s

/-- One SCAN of the host's loop, and what it makes of the outcome: a message and the buffer compacted (R171), a decode error
and the buffer as `HOST_DROPS_ON_DECODE_ERROR` says (R173), or `none` with the block as SCAN left it. -/
def hostScan (s : State) : Option (Except HostError Message) × State :=
  match s.scan.results.msg, s.scan.results.errCode, s.scan.results.errInfo with
  | some m, _, _ => (some (.ok m), s.scan.dropConsumed)
  | none, some c, some i =>
    (some (.error (.block c i)), if s.config.hostDrops then s.scan.dropConsumed else s.scan)
  | _, _, _ => (none, s.scan)

/-- The loop of `read_message()` (R172, R75 READMSG) up to a deadline, over the reads to come. A transport that gives nothing more
ends the wait at the deadline; log 15. Where a finite RXCAP makes PUSH refuse the bytes of a read (BufOverflow, R90), what the host
does is left to it (95_test_vectors.md PG8); DESIGN CHOICE, log 15: this host does not keep them, so they are lost, and it scans
again. -/
def readLoop (deadline : Nat) : List TransportRead → Session → Except HostError Message × Session
  | [], h =>
    match hostScan h.block with
    | (some r, b) => (r, { h with block := b, reads := [] })
    | (none, b) => (.error .waitTimeout, { h with block := b, now := Nat.max h.now deadline, reads := [] })
  | r :: rest, h =>
    match hostScan h.block with
    | (some m, b) => (m, { h with block := b, reads := r :: rest })
    | (none, b) =>
      if deadline ≤ h.now then (.error .waitTimeout, { h with block := b, reads := r :: rest })
      else readLoop deadline rest { h with block := b.push r.bytes, now := h.now + r.ms }

/-- `read_message()` (R172): the deadline is re-armed per call. -/
def readMessage (h : Session) : Except HostError Message × Session := readLoop (h.now + waitMs) h.reads h

/-- The bytes a session can still scan: those in RXBUF and those its transport will give. A message that is read takes at least 6
of them (Laws/Driver.lean), so there are more of them than messages to come. -/
def Session.pending (h : Session) : Nat := h.block.rxbuf.length + (h.reads.map (·.bytes.length)).sum

/-- Where a transport that gives nothing ends a wait: WaitTimeout at the deadline (R172; log 15). -/
def Session.timedOut (h : Session) : Session := { h with now := h.now + waitMs, reads := [] }

/-- The wait of R174 and R175: messages are read and discarded until one is accepted, a DeviceError, or an error of
`read_message()`. `fuel` bounds the passes for Lean alone: with more than `pending` of it the pass without fuel is not reached
(Laws/Driver.lean). -/
def awaitLoop (accept : Message → Bool) : Nat → Session → Except HostError Message × Session
  | 0, h => (.error .waitTimeout, h.timedOut)
  | fuel + 1, h =>
    match readMessage h with
    | (.error e, h) => (.error e, h)
    | (.ok .deviceError, h) => (.error .commandError, h)
    | (.ok m, h) => if accept m then (.ok m, h) else awaitLoop accept fuel h

/-- Waiting for a reply (R174, R175): nothing ends it but the deadline and a terminal message. -/
def awaitReply (accept : Message → Bool) (h : Session) : Except HostError Message × Session :=
  awaitLoop accept (h.pending + 1) h

/-- `transport.write` (R174, R178): a write that fails is a transport error. -/
def Session.write (h : Session) (tx : Bytes) : Except HostError Unit × Session :=
  match h.writes with
  | false :: rest => (.error .transport, { h with writes := rest })
  | true :: rest => (.ok (), { h with writes := rest, sent := h.sent ++ [tx] })
  | [] => (.ok (), { h with sent := h.sent ++ [tx] })

/-- One command exchange (R174): BUILD the request, write TXBUF, wait for the reply. Where BUILD refuses the request, which the
spec says nothing of for the host, nothing is written and the host reports the block's error; log 15. -/
def command (req : Bytes) (accept : Message → Bool) (h : Session) : Except HostError Message × Session :=
  let b := h.block.build req
  match b.results.errCode, b.results.errInfo with
  | some c, some i => (.error (.block c i), { h with block := b })
  | _, _ =>
    match ({ h with block := b } : Session).write (b.results.txbuf.getD []) with
    | (.ok (), h) => awaitReply accept h
    | (.error e, h) => (.error e, h)

/-- The items of a record data batch. -/
def batchItems : Message → Option (List RecordDataItem)
  | .recordDataBatch items => some items
  | _ => none

/-- The requests of R176: batches are concatenated until an empty one. `fuel` bounds the requests for Lean alone, as in
`awaitLoop`. -/
def recordLoop (request : Nat → Bytes) (advance : Nat → Nat → Nat) :
    Nat → Nat → List RecordDataItem → Session → Except HostError (List RecordDataItem) × Session
  | 0, _, _, h => (.error .waitTimeout, h.timedOut)
  | fuel + 1, cursor, got, h =>
    match command (0x0D#8 :: request cursor) (fun m => (batchItems m).isSome) h with
    | (.error e, h) => (.error e, h)
    | (.ok m, h) =>
      match batchItems m with
      | some (i :: is) => recordLoop request advance fuel (advance cursor (i :: is).length) (got ++ i :: is) h
      | _ => (.ok got, h)

/-- `get_record_data` (R176), from a cursor on. The request's operand bytes and how the cursor advances are not in the source
(N12) and are arguments. -/
def getRecordData (request : Nat → Bytes) (advance : Nat → Nat → Nat) (cursor : Nat) (h : Session) :
    Except HostError (List RecordDataItem) × Session :=
  recordLoop request advance (h.pending + 1) cursor [] h

/-! ## Input validation (R177) -/

/-- A record name is printable ASCII of at most 10 characters. -/
def recordNameOk (name : Bytes) : Bool := name.length ≤ 10 && name.all (fun b => 0x20 ≤ b.toNat && b.toNat ≤ 0x7E)

/-- An interval is 1 to 3600 seconds. -/
def intervalOk (s : Nat) : Bool := 1 ≤ s && s ≤ 3600

/-- A duration is 1 to 143999 minutes. -/
def durationOk (m : Nat) : Bool := 1 ≤ m && m ≤ 143999

/-- A save index is 1 to 0xFFFE. -/
def saveIndexOk (i : Nat) : Bool := 1 ≤ i && i ≤ 0xFFFE

/-- The sentinel that deletes all saves. -/
def deleteAllIndex : Nat := 0xFFFF

/-- A host operation whose input is validated first: a violation fails at once, before any operation of the block and without
touching the transport (R177, R180). -/
def validated (ok : Bool) (act : Session → Except HostError Message × Session) (h : Session) :
    Except HostError Message × Session :=
  if ok then act h else (.error .invalidInput, h)

/-- Start recording (tag 0x0A). Where its inputs stand in the request is not in the source (N12) and is an argument, here and
in the operations below; so is which reply they accept where R73 says "not noted" (N14). -/
def startRecording (layout : Bytes → Nat → Nat → Bytes) (name : Bytes) (interval duration : Nat) :
    Session → Except HostError Message × Session :=
  validated (recordNameOk name && intervalOk interval && durationOk duration)
    (command (0x0A#8 :: layout name interval duration) (· == .success))

/-- Read a save by index (tag 0x07). -/
def readSave (layout : Nat → Bytes) (accept : Message → Bool) (index : Nat) :
    Session → Except HostError Message × Session :=
  validated (saveIndexOk index) (command (0x07#8 :: layout index) accept)

/-- Delete a save by index (tag 0x09). -/
def deleteSave (layout : Nat → Bytes) (index : Nat) : Session → Except HostError Message × Session :=
  validated (saveIndexOk index) (command (0x09#8 :: layout index) (· == .success))

/-- Delete all saves: the save index is the sentinel, which the range of indexes does not hold (R177). -/
def deleteAllSaves (layout : Nat → Bytes) : Session → Except HostError Message × Session :=
  command (0x09#8 :: layout deleteAllIndex) (· == .success)

end Sys2Proof.Machine
end

