-- ==== Sys2Proof/Safety.lean ====
section
/-! DEFINITION. What counts as a good state of the block, and the vocabulary of the spec in which statements about it are made:
marker offsets and their classes (41_frame_scanner.md R98), the checksum as a number (40_frame_codec.md R83), and the wire
form of measurements and record items (30_encoding.md). -/

namespace Sys2Proof.Machine

/-! ## The checksum as a number (R83) -/

/-- `2 + (L & 0xFF) + (L >> 8) + sum of p[i]`, modulo 65536, with `L = n + 2` (R83). -/
def sumFormula (p : Bytes) : Nat :=
  (2 + (p.length + 2) % 256 + (p.length + 2) / 256 + (p.map BitVec.toNat).sum) % 65536

/-! ## Marker offsets and their classes (R98) -/

/-- Both marker bytes stand at `m` and `m + 1` (R92). -/
abbrev IsMarker (b : Bytes) (m : Nat) : Prop := b[m]? = some 0xAB#8 ∧ b[m + 1]? = some 0xCD#8

/-- The length field of the candidate at `m` (R38). -/
def lenAt (b : Bytes) (m : Nat) : Nat := leNat (slice b (m + 2) 2)

/-- The candidate payload at `m` (R38). -/
def payloadAt (b : Bytes) (m : Nat) : Bytes := slice b (m + 4) (lenAt b m - 2)

/-- The embedded checksum of the candidate at `m` (R38). -/
def embeddedAt (b : Bytes) (m : Nat) : Nat := leNat (slice b (m + 2 + lenAt b m) 2)

/-- *short* (R98). -/
abbrev IsShort (b : Bytes) (m : Nat) : Prop :=
  b.length < m + 4 ∨ (2 ≤ lenAt b m ∧ b.length < m + 4 + lenAt b m)

/-- *valid* (R98). -/
abbrev IsValid (b : Bytes) (m : Nat) : Prop :=
  m + 4 ≤ b.length ∧ 2 ≤ lenAt b m ∧ m + 4 + lenAt b m ≤ b.length ∧ sumFormula (payloadAt b m) = embeddedAt b m

/-- *false* (R98). -/
abbrev IsFalse (b : Bytes) (m : Nat) : Prop :=
  m + 4 ≤ b.length ∧
    (lenAt b m < 2 ∨ (m + 4 + lenAt b m ≤ b.length ∧ sumFormula (payloadAt b m) ≠ embeddedAt b m))

/-- The first marker offset that is not *false* is `m` (R98). -/
abbrev Decides (b : Bytes) (m : Nat) : Prop :=
  IsMarker b m ∧ ∀ m' < m, IsMarker b m' → IsFalse b m'

/-! ## Good states -/

/-- Which result registers are valid for each STATUS, and of which class an error is (10_state.md R14, R190). -/
def Results.Valid (r : Results) : Prop :=
  match r.status with
  | .idle => r = { status := .idle }
  | .done => (∃ c, r = { status := .done, csumOut := c }) ∨ (∃ t, r = { status := .done, txbuf := t })
  | .foundMsg => ∃ p m c, r = { status := .foundMsg, payload := some p, msg := some m, consumed := c }
  | .foundErr => ∃ p c, ∃ e : DecodeError,
      r = { status := .foundErr, payload := some p, consumed := c, errCode := some e.code, errInfo := some e.info }
  | .incomplete => r = { status := .incomplete }
  | .refused => ∃ e : OpRefusal, r = { status := .refused, errCode := some e.code, errInfo := some e.info }

/-- A good state: the buffer within its capacity (R10), a configuration that meets its constraints (R222), and result
registers as R14 to R19 say. -/
structure State.Good (s : State) : Prop where
  /-- R10. -/
  cap : ∀ c, s.config.rxCap = some c → s.rxlen ≤ c
  /-- R3, R222 (1). -/
  cfg : s.config.Ok
  /-- R14. -/
  valid : s.results.Valid
  /-- R16. -/
  plen : ∀ p, s.results.payload = some p → p.length ≤ 65533
  /-- R17, R96, R111: MSG is what the payload decodes to. -/
  msg : ∀ p m, s.results.payload = some p → s.results.msg = some m → classify s.config p = .ok m
  /-- R15, R38: CONSUMED counts through the checksum of a frame in RXBUF that carries PAYLOAD. -/
  consumed : ∀ c, s.results.consumed = some c →
    ∃ m, IsMarker s.rxbuf m ∧ IsValid s.rxbuf m ∧ s.results.payload = some (payloadAt s.rxbuf m) ∧
      c = m + 4 + lenAt s.rxbuf m
  /-- R18, R82. -/
  tx : ∀ t, s.results.txbuf = some t →
    ∃ p : Bytes, p.length ≤ 65533 ∧ t.length = p.length + 6 ∧ IsValid t 0 ∧ IsMarker t 0 ∧ payloadAt t 0 = p

/-- A safe step: the block does not stop. -/
def StepSafe (s : State) : Prop := ∃ t, step s = .next t

/-! ## Wire forms (30_encoding.md) -/

/-- The bits of a flags byte as numbers (30_encoding.md R64; 44_primitive_codecs.md R150). -/
def valueOf (magnitude : Word) (flags : Byte) (unit : Option UnitExp) : Value where
  overloadNeg := decide (flags.toNat / 2 % 8 = 1)
  overloadPos := decide (flags.toNat % 2 = 1)
  magnitude := magnitude
  precision := some (BitVec.ofNat 4 (flags.toNat / 16))
  unit := unit

/-- A full value on the wire: float, flags, and a unit field that names `unit` (R64). -/
structure WireValue where
  magnitude : Word
  flags : Byte
  field : Bytes
  unit : UnitExp
  deriving DecidableEq, Repr

/-- A fast value on the wire (R65). -/
structure WireFast where
  magnitude : Word
  field : Bytes
  unit : UnitExp
  deriving DecidableEq, Repr

/-- A MinMax pair on the wire (R62). -/
structure WireTimed where
  magnitude : Word
  flags : Byte
  duration : Word
  deriving DecidableEq, Repr

/-- A unit field of 8 bytes whose string, the bytes before the first NUL, is in the table (R69, R157). -/
abbrev UnitField (cfg : Config) (field : Bytes) (unit : UnitExp) : Prop :=
  field.length = 8 ∧ tableGet cfg.unitTable (cstr field) = some unit

def WireValue.bytes (v : WireValue) : Bytes := le32Bytes v.magnitude ++ v.flags :: v.field
def WireValue.value (v : WireValue) : Value := valueOf v.magnitude v.flags (some v.unit)
abbrev WireValue.Ok (cfg : Config) (v : WireValue) : Prop := UnitField cfg v.field v.unit

def WireFast.bytes (v : WireFast) : Bytes := le32Bytes v.magnitude ++ v.field
def WireFast.value (v : WireFast) : FastValue := ⟨v.magnitude, v.unit⟩
abbrev WireFast.Ok (cfg : Config) (v : WireFast) : Prop := UnitField cfg v.field v.unit

def WireTimed.bytes (v : WireTimed) : Bytes := le32Bytes v.magnitude ++ v.flags :: le32Bytes v.duration
def WireTimed.value (v : WireTimed) : TimedValue := ⟨valueOf v.magnitude v.flags none, v.duration⟩

/-- The bytes of an optional field: an absent one takes no room (R60). -/
def optBytes {α : Type} (bytes : α → Bytes) (v : Option α) : Bytes := (v.map bytes).getD []

/-- A measurement body on the wire (R60 to R63); a MinMax body in the default layout (R62). -/
inductive WireBody where
  | normal (main : WireValue) (secondary tertiary : Option WireValue) (fast : Option WireFast)
  | relative (relative reference absolute : WireValue) (fast : Option WireFast)
  | minMax (field : Bytes) (unit : UnitExp) (main max average min : WireTimed)
  | peak (max min : WireValue)
  deriving DecidableEq, Repr

def WireBody.kind : WireBody → Kind
  | .normal _ _ _ _ => .normal
  | .relative _ _ _ _ => .relative
  | .minMax _ _ _ _ _ _ => .minMax
  | .peak _ _ => .peak

/-- The bytes of a body, its fields packed one after another in the order of R60 to R63. -/
def WireBody.bytes : WireBody → Bytes
  | .normal m s t f => m.bytes ++ (optBytes WireValue.bytes s ++ (optBytes WireValue.bytes t ++ optBytes WireFast.bytes f))
  | .relative r f a q => r.bytes ++ (f.bytes ++ (a.bytes ++ optBytes WireFast.bytes q))
  | .minMax field _ m x a n => field ++ (m.bytes ++ (x.bytes ++ (a.bytes ++ n.bytes)))
  | .peak x n => x.bytes ++ n.bytes

/-- What a body means (10_state.md R21). -/
def WireBody.body : WireBody → Body
  | .normal m s t f => .normal m.value (s.map WireValue.value) (t.map WireValue.value) (f.map WireFast.value)
  | .relative r f a q => .relative r.value f.value a.value (q.map WireFast.value)
  | .minMax _ u m x a n => .minMax u m.value x.value a.value n.value
  | .peak x n => .peak x.value n.value

/-- The header bits say which optional fields are there (R59), the unit fields name units of the table, and where the body
holds a fast value or is a MinMax body the parameter concerned has the spec's default (D17, D21). -/
def WireBody.Ok (cfg : Config) (f : HdrFlags) : WireBody → Prop
  | .normal m s t q =>
    m.Ok cfg ∧ (∀ v ∈ s, v.Ok cfg) ∧ (∀ v ∈ t, v.Ok cfg) ∧ (∀ v ∈ q, v.Ok cfg) ∧
      f.secondary = s.isSome ∧ f.tertiary = t.isSome ∧ f.fast = q.isSome ∧ (q.isSome → cfg.fastUnitW = 8)
  | .relative r e a q =>
    r.Ok cfg ∧ e.Ok cfg ∧ a.Ok cfg ∧ (∀ v ∈ q, v.Ok cfg) ∧ f.fast = q.isSome ∧ (q.isSome → cfg.fastUnitW = 8)
  | .minMax field u _ _ _ _ => UnitField cfg field u ∧ cfg.minMax = defaultMinMax
  | .peak x n => x.Ok cfg ∧ n.Ok cfg

/-- What stands before a measurement: tag 0x02, or tag 0x03 and the packed time (R54, R55). -/
def carrierOf : Option DateTime → Carrier
  | none => .live
  | some t =>
    match encDateTime t with
    | [d0, d1, d2, d3] => .saved d0 d1 d2 d3
    | _ => .live

/-- The message a measurement makes in its payload (R113, R114). -/
def messageOf : Option DateTime → Measurement → Message
  | none, m => .measurement m
  | some t, m => .savedMeasurement t m

/-- A date/time that the packed form can hold (10_state.md R24, 44_primitive_codecs.md R161). -/
abbrev Packable (t : DateTime) : Prop :=
  2000 ≤ t.year ∧ t.year ≤ 2063 ∧ 1 ≤ t.month ∧ t.month ≤ 12 ∧ 1 ≤ t.day ∧ t.day ≤ daysIn t.year t.month ∧
    t.hour ≤ 23 ∧ t.minute ≤ 59 ∧ t.second ≤ 59

/-- Every time given is packable. -/
abbrev PackableOpt (t : Option DateTime) : Prop := ∀ x ∈ t, Packable x

/-- A payload, the measurement header and what follows it: auto-range byte, mode code, range byte, body (R59). -/
def headerBytes (auto : Byte) (code : Half) (rangeByte : Byte) : Bytes := auto :: (le16Bytes code ++ [rangeByte])

/-- The operand conditions of a measurement that decodes: the payload fits a frame, the mode is in the table, a saved
measurement's time is a real one. -/
abbrev MeasOk (s : State) (ts : Option DateTime) (code : Half) (id : ModeId) (payload : Bytes) : Prop :=
  payload.length ≤ 65533 ∧ PackableOpt ts ∧ tableGet s.config.modeTable code = some id

/-- The state after a payload decoded to a message (R111): STATUS, PAYLOAD and MSG are written, CONSUMED and every other result
register is invalid, and nothing else of the state changes. -/
def afterMsg (s : State) (p : Bytes) (m : Message) : State :=
  { s with results := { status := .foundMsg, payload := some p, msg := some m } }

/-- The state after a payload did not decode (R111, R204). -/
def afterError (s : State) (p : Bytes) (e : DecodeError) : State :=
  { s with results := { status := .foundErr, payload := some p, errCode := some e.code, errInfo := some e.info } }

/-- The state after a refusal (R199, R204). -/
def afterRefusal (s : State) (r : OpRefusal) : State :=
  { s with results := { status := .refused, errCode := some r.code, errInfo := some r.info } }

/-- A record data item on the wire (30_encoding.md R57). -/
structure WireItem where
  magnitude : Word
  flags : Byte
  ts : DateTime
  deriving DecidableEq, Repr

def WireItem.bytes (i : WireItem) : Bytes := le32Bytes i.magnitude ++ i.flags :: encDateTime i.ts
def WireItem.item (i : WireItem) : RecordDataItem := ⟨valueOf i.magnitude i.flags none, i.ts⟩

end Sys2Proof.Machine
end

