-- ==== Sys2Proof/Laws/Operands.lean ====
section
/-! SUPPORT. The primitive codecs: one lemma per codec saying what it gives on bytes of its own wire form. -/

namespace Sys2Proof.Machine

/-! ## Finite maps -/

theorem tableGet_mem {α β : Type} [DecidableEq α] {t : List (α × β)} {k : α} {v : β}
    (h : tableGet t k = some v) : (k, v) ∈ t := by
  induction t with
  | nil => simp [tableGet] at h
  | cons e rest ih =>
    simp only [tableGet] at h
    split at h
    · rename_i hk
      cases h
      simp [← hk]
    · exact List.mem_cons_of_mem _ (ih h)

theorem tableKey_mem {α β : Type} [DecidableEq β] {t : List (α × β)} {k : α} {v : β}
    (h : tableKey t v = some k) : (k, v) ∈ t := by
  induction t with
  | nil => simp [tableKey] at h
  | cons e rest ih =>
    simp only [tableKey] at h
    split at h
    · rename_i hk
      cases h
      simp [← hk]
    · exact List.mem_cons_of_mem _ (ih h)

theorem tableGet_of_mem {α β : Type} [DecidableEq α] {t : List (α × β)} {k : α} {v : β}
    (hn : (t.map (·.1)).Nodup) (h : (k, v) ∈ t) : tableGet t k = some v := by
  induction t with
  | nil => simp at h
  | cons e rest ih =>
    simp only [List.map_cons, List.nodup_cons] at hn
    simp only [tableGet]
    rcases List.mem_cons.mp h with rfl | h
    · simp
    · have : e.1 ≠ k := fun he => hn.1 (he ▸ List.mem_map_of_mem (f := (·.1)) h)
      simp [this, ih hn.2 h]

theorem tableKey_of_mem {α β : Type} [DecidableEq β] {t : List (α × β)} {k : α} {v : β}
    (hn : (t.map (·.2)).Nodup) (h : (k, v) ∈ t) : tableKey t v = some k := by
  induction t with
  | nil => simp at h
  | cons e rest ih =>
    simp only [List.map_cons, List.nodup_cons] at hn
    simp only [tableKey]
    rcases List.mem_cons.mp h with rfl | h
    · simp
    · have : e.2 ≠ v := fun he => hn.1 (he ▸ List.mem_map_of_mem (f := (·.2)) h)
      simp [this, ih hn.2 h]

/-! ## The flags byte -/

theorem overloadNeg_eq : ∀ f : Byte, overloadNeg f = decide (f.toNat / 2 % 8 = 1) := by decide

theorem overloadPos_eq : ∀ f : Byte, overloadPos f = decide (f.toNat % 2 = 1) := by decide

theorem precisionOf_eq : ∀ f : Byte, precisionOf f = BitVec.ofNat 4 (f.toNat / 16) := by decide

theorem mkValue_eq (m : Word) (f : Byte) (u : Option UnitExp) : mkValue m f u = valueOf m f u := by
  simp [mkValue, valueOf, overloadNeg_eq, overloadPos_eq, precisionOf_eq]

/-! ## Units and values -/

theorem decUnitExp_at {cfg : Config} {p : Bytes} {o : Nat} {bs : Bytes} {u : UnitExp} (h : StandsAt p o bs)
    (hu : UnitField cfg bs u) : decUnitExp cfg p o = .ok u := by
  simp [decUnitExp, h.field (n := unitW) hu.1, hu.2, bind, Except.bind, pure, Except.pure]

theorem decValue13_at {cfg : Config} {p : Bytes} {o : Nat} {v : WireValue} (h : StandsAt p o v.bytes)
    (hv : v.Ok cfg) : decValue13 cfg p o = .ok v.value := by
  have h4 : StandsAt p (o + 4) (v.flags :: v.field) := h.right
  simp [decValue13, h.need (n := valueW) (by simp [WireValue.bytes, hv.1, valueW]),
    h.left.readLE32, h4.head.readByte, decUnitExp_at h4.tail hv, bind, Except.bind, pure, Except.pure,
    WireValue.value, mkValue_eq]

theorem decValue5_at {p : Bytes} {o : Nat} {m : Word} {f : Byte} (h : StandsAt p o (le32Bytes m ++ [f])) :
    decValue5 p o = .ok (valueOf m f none) := by
  have h4 : StandsAt p (o + 4) [f] := h.right
  simp [decValue5, h.need (n := value5W) rfl, h.left.readLE32, h4.readByte, bind, Except.bind, pure, Except.pure,
    mkValue_eq]

theorem decFast_at {cfg : Config} {p : Bytes} {o : Nat} {v : WireFast} (h : StandsAt p o v.bytes)
    (hv : v.Ok cfg) (hw : cfg.fastUnitW = 8) : decFast cfg p o = .ok v.value := by
  have h4 : StandsAt p (o + 4) v.field := h.right
  simp [decFast, hw, h.need (n := 12) (by simp [WireFast.bytes, hv.1]), h.left.readLE32,
    decUnitExp_at h4 hv, bind, Except.bind, pure, Except.pure, WireFast.value]

theorem decTimed_at {p : Bytes} {o : Nat} {v : WireTimed} (h : StandsAt p o v.bytes) :
    decTimed p o = .ok v.value := by
  have h' : StandsAt p o ((le32Bytes v.magnitude ++ [v.flags]) ++ le32Bytes v.duration) := by
    simpa [WireTimed.bytes] using h
  have h5 : StandsAt p (o + 5) (le32Bytes v.duration) := h'.right
  simp [decTimed, decValue5_at h'.left, h5.readLE32, value5W, bind, Except.bind, pure, Except.pure, WireTimed.value]

/-! ## Packed date/time -/

/-- A byte field above a shorter one: `or` is addition when the bits do not meet. -/
theorem or_shift (x y : Nat) {k : Nat} (hx : x < 2 ^ k) : x ||| y <<< k = x + y * 2 ^ k := by
  rw [Nat.or_comm, ← Nat.shiftLeft_add_eq_or_of_lt hx, Nat.shiftLeft_eq]
  omega

/-- The fields of R160 as bit ranges of the little-endian number (20_memory.md R33). -/
theorem unpackDateTime_eq (b0 b1 b2 b3 : Byte) :
    unpackDateTime b0 b1 b2 b3 =
      { year := 2000 + leNat [b0, b1, b2, b3] % 2 ^ 6
        month := leNat [b0, b1, b2, b3] / 2 ^ 6 % 2 ^ 4
        day := leNat [b0, b1, b2, b3] / 2 ^ 10 % 2 ^ 5
        hour := leNat [b0, b1, b2, b3] / 2 ^ 15 % 2 ^ 5
        minute := leNat [b0, b1, b2, b3] / 2 ^ 20 % 2 ^ 6
        second := leNat [b0, b1, b2, b3] / 2 ^ 26 } := by
  have h0 := b0.isLt
  have h1 := b1.isLt
  have h2 := b2.isLt
  have h3 := b3.isLt
  have m2 := Nat.and_two_pow_sub_one_eq_mod b1.toNat 2
  have m4 := Nat.and_two_pow_sub_one_eq_mod b2.toNat 4
  have m2' := Nat.and_two_pow_sub_one_eq_mod b3.toNat 2
  have m6 := Nat.and_two_pow_sub_one_eq_mod b0.toNat 6
  have m5 := Nat.and_two_pow_sub_one_eq_mod (b1.toNat / 4) 5
  have e1 : b1.toNat % 4 * 4 % 256 = b1.toNat % 4 * 4 := by omega
  have e2 : b2.toNat % 16 * 2 % 256 = b2.toNat % 16 * 2 := by omega
  have e3 : b3.toNat % 4 * 16 % 256 = b3.toNat % 4 * 16 := by omega
  have o1 := or_shift (b0.toNat / 64) (b1.toNat % 4) (k := 2) (by omega)
  have o2 := or_shift (b1.toNat / 128) (b2.toNat % 16) (k := 1) (by omega)
  have o3 := or_shift (b2.toNat / 16) (b3.toNat % 4) (k := 4) (by omega)
  simp only [Nat.shiftLeft_eq] at o1 o2 o3
  norm_num at m2 m4 m2' m6 m5 o1 o2 o3
  simp only [unpackDateTime, leNat, BitVec.toNat_or, BitVec.toNat_and, BitVec.toNat_shiftLeft,
    BitVec.toNat_ushiftRight, BitVec.toNat_ofNat, Nat.shiftRight_eq_div_pow, Nat.shiftLeft_eq, DateTime.mk.injEq]
  norm_num
  rw [m2, m4, m2', m6, m5, e1, e2, e3, o1, o2, o3]
  omega

theorem decDateTime_at {p : Bytes} {o : Nat} {b0 b1 b2 b3 : Byte} (h : StandsAt p o [b0, b1, b2, b3]) :
    decDateTime p o =
      if validDateTime (unpackDateTime b0 b1 b2 b3) then .ok (unpackDateTime b0 b1 b2 b3)
      else .error (.invalidDateTime (unpackDateTime b0 b1 b2 b3)) := by
  have h1 := h.tail
  have h2 := h1.tail
  have h3 := h2.tail
  simp only [decDateTime, h.need (n := dateTimeW) rfl, h.head.readByte, h1.head.readByte, h2.head.readByte,
    h3.head.readByte, bind, Except.bind, pure, Except.pure, throw, throwThe, MonadExceptOf.throw]

theorem daysIn_le (y mo : Nat) : daysIn y mo ≤ 31 := by
  unfold daysIn
  split <;> (try split) <;> omega

/-- The packed number of a date/time is the sum of its fields in place (R162). -/
theorem leNat_encDateTime {t : DateTime} (h : Packable t) :
    leNat (encDateTime t) = (t.year - 2000) + t.month * 2 ^ 6 + t.day * 2 ^ 10 + t.hour * 2 ^ 15 +
      t.minute * 2 ^ 20 + t.second * 2 ^ 26 := by
  obtain ⟨y0, y1, mo0, mo1, d0, d1, hh, mi, se⟩ := h
  have hd := daysIn_le t.year t.month
  have o1 := or_shift (t.year - 2000) t.month (k := 6) (by norm_num; omega)
  have o2 := or_shift (t.year - 2000 + t.month * 2 ^ 6) t.day (k := 10) (by norm_num; omega)
  have o3 := or_shift (t.year - 2000 + t.month * 2 ^ 6 + t.day * 2 ^ 10) t.hour (k := 15) (by norm_num; omega)
  have o4 := or_shift (t.year - 2000 + t.month * 2 ^ 6 + t.day * 2 ^ 10 + t.hour * 2 ^ 15) t.minute (k := 20)
    (by norm_num; omega)
  have o5 := or_shift (t.year - 2000 + t.month * 2 ^ 6 + t.day * 2 ^ 10 + t.hour * 2 ^ 15 + t.minute * 2 ^ 20) t.second
    (k := 26) (by norm_num; omega)
  have small (x k : Nat) (hx : x < 64) (hk : k ≤ 26) : (x % 2 ^ 32) <<< k % 2 ^ 32 = x <<< k := by
    have : 2 ^ k ≤ 2 ^ 26 := Nat.pow_le_pow_right (by norm_num) hk
    have : x * 2 ^ k < 2 ^ 32 := by
      calc x * 2 ^ k ≤ 63 * 2 ^ 26 := Nat.mul_le_mul (by omega) this
        _ < 2 ^ 32 := by norm_num
    rw [Nat.mod_eq_of_lt (by omega : x < 2 ^ 32), Nat.shiftLeft_eq, Nat.mod_eq_of_lt this]
  simp only [encDateTime, leNat_le32Bytes, BitVec.toNat_or, BitVec.toNat_shiftLeft, BitVec.toNat_ofNat]
  rw [small _ 6 (by omega) (by omega), small _ 10 (by omega) (by omega), small _ 15 (by omega) (by omega),
    small _ 20 (by omega) (by omega), small _ 26 (by omega) (by omega),
    Nat.mod_eq_of_lt (by omega : t.year - 2000 < 2 ^ 32), o1, o2, o3, o4, o5]

/-- A packed date/time unpacks to itself (R162). -/
theorem unpack_encDateTime {t : DateTime} (h : Packable t) :
    ∃ b0 b1 b2 b3, encDateTime t = [b0, b1, b2, b3] ∧ unpackDateTime b0 b1 b2 b3 = t := by
  refine ⟨_, _, _, _, rfl, ?_⟩
  rw [unpackDateTime_eq]
  have hw := leNat_encDateTime h
  obtain ⟨y0, y1, mo0, mo1, d0, d1, hh, mi, se⟩ := h
  have hd := daysIn_le t.year t.month
  simp only [encDateTime, le32Bytes] at hw
  rw [hw]
  obtain ⟨y, mo, d, h, m, s⟩ := t
  simp only [DateTime.mk.injEq] at *
  norm_num
  omega

theorem validDateTime_of_packable {t : DateTime} (h : Packable t) : validDateTime t = true := by
  obtain ⟨-, -, a, b, c, d, e, f, g⟩ := h
  simp [validDateTime, a, b, c, d, e, f, g]

/-- `DecDateTime` of an encoded date/time gives it back (R162). -/
theorem decDateTime_enc {p : Bytes} {o : Nat} {t : DateTime} (h : StandsAt p o (encDateTime t)) (ht : Packable t) :
    decDateTime p o = .ok t := by
  obtain ⟨b0, b1, b2, b3, he, hu⟩ := unpack_encDateTime ht
  rw [he] at h
  rw [decDateTime_at h, hu, validDateTime_of_packable ht]
  rfl

end Sys2Proof.Machine
end

