-- ==== Sys2Proof/Laws/State.lean ====
section
/-! SUPPORT. One lemma per field per update of State, true by rfl. -/

namespace Sys2Proof.Machine.State

@[simp] theorem finish_rxbuf (s : State) (r : Results) : (s.finish r).rxbuf = s.rxbuf := rfl
@[simp] theorem finish_acc (s : State) (r : Results) : (s.finish r).acc = s.acc := rfl
@[simp] theorem finish_lenr (s : State) (r : Results) : (s.finish r).lenr = s.lenr := rfl
@[simp] theorem finish_scanoff (s : State) (r : Results) : (s.finish r).scanoff = s.scanoff := rfl
@[simp] theorem finish_results (s : State) (r : Results) : (s.finish r).results = r := rfl
@[simp] theorem finish_config (s : State) (r : Results) : (s.finish r).config = s.config := rfl
@[simp] theorem finish_requests (s : State) (r : Results) : (s.finish r).requests = s.requests := rfl
@[simp] theorem finish_freeTick (s : State) (r : Results) : (s.finish r).freeTick = s.freeTick := rfl

@[simp] theorem finishDone_rxbuf (s : State) : (s.finishDone).rxbuf = s.rxbuf := rfl
@[simp] theorem finishDone_acc (s : State) : (s.finishDone).acc = s.acc := rfl
@[simp] theorem finishDone_lenr (s : State) : (s.finishDone).lenr = s.lenr := rfl
@[simp] theorem finishDone_scanoff (s : State) : (s.finishDone).scanoff = s.scanoff := rfl
@[simp] theorem finishDone_results (s : State) : (s.finishDone).results = { status := .done } := rfl
@[simp] theorem finishDone_config (s : State) : (s.finishDone).config = s.config := rfl
@[simp] theorem finishDone_requests (s : State) : (s.finishDone).requests = s.requests := rfl
@[simp] theorem finishDone_freeTick (s : State) : (s.finishDone).freeTick = s.freeTick := rfl

@[simp] theorem refuse_rxbuf (s : State) (e : OpRefusal) : (s.refuse e).rxbuf = s.rxbuf := rfl
@[simp] theorem refuse_acc (s : State) (e : OpRefusal) : (s.refuse e).acc = s.acc := rfl
@[simp] theorem refuse_lenr (s : State) (e : OpRefusal) : (s.refuse e).lenr = s.lenr := rfl
@[simp] theorem refuse_scanoff (s : State) (e : OpRefusal) : (s.refuse e).scanoff = s.scanoff := rfl
@[simp] theorem refuse_results (s : State) (e : OpRefusal) : (s.refuse e).results = { status := .refused, errCode := some e.code, errInfo := some e.info } := rfl
@[simp] theorem refuse_config (s : State) (e : OpRefusal) : (s.refuse e).config = s.config := rfl
@[simp] theorem refuse_requests (s : State) (e : OpRefusal) : (s.refuse e).requests = s.requests := rfl
@[simp] theorem refuse_freeTick (s : State) (e : OpRefusal) : (s.refuse e).freeTick = s.freeTick := rfl

@[simp] theorem decodeError_rxbuf (s : State) (p : Bytes) (c : Option Nat) (e : DecodeError) : (s.decodeError p c e).rxbuf = s.rxbuf := rfl
@[simp] theorem decodeError_acc (s : State) (p : Bytes) (c : Option Nat) (e : DecodeError) : (s.decodeError p c e).acc = s.acc := rfl
@[simp] theorem decodeError_lenr (s : State) (p : Bytes) (c : Option Nat) (e : DecodeError) : (s.decodeError p c e).lenr = s.lenr := rfl
@[simp] theorem decodeError_scanoff (s : State) (p : Bytes) (c : Option Nat) (e : DecodeError) : (s.decodeError p c e).scanoff = s.scanoff := rfl
@[simp] theorem decodeError_results (s : State) (p : Bytes) (c : Option Nat) (e : DecodeError) : (s.decodeError p c e).results = { status := .foundErr, consumed := c, payload := some p, errCode := some e.code, errInfo := some e.info } := rfl
@[simp] theorem decodeError_config (s : State) (p : Bytes) (c : Option Nat) (e : DecodeError) : (s.decodeError p c e).config = s.config := rfl
@[simp] theorem decodeError_requests (s : State) (p : Bytes) (c : Option Nat) (e : DecodeError) : (s.decodeError p c e).requests = s.requests := rfl
@[simp] theorem decodeError_freeTick (s : State) (p : Bytes) (c : Option Nat) (e : DecodeError) : (s.decodeError p c e).freeTick = s.freeTick := rfl

@[simp] theorem foundMsg_rxbuf (s : State) (p : Bytes) (c : Option Nat) (m : Message) : (s.foundMsg p c m).rxbuf = s.rxbuf := rfl
@[simp] theorem foundMsg_acc (s : State) (p : Bytes) (c : Option Nat) (m : Message) : (s.foundMsg p c m).acc = s.acc := rfl
@[simp] theorem foundMsg_lenr (s : State) (p : Bytes) (c : Option Nat) (m : Message) : (s.foundMsg p c m).lenr = s.lenr := rfl
@[simp] theorem foundMsg_scanoff (s : State) (p : Bytes) (c : Option Nat) (m : Message) : (s.foundMsg p c m).scanoff = s.scanoff := rfl
@[simp] theorem foundMsg_results (s : State) (p : Bytes) (c : Option Nat) (m : Message) : (s.foundMsg p c m).results = { status := .foundMsg, consumed := c, payload := some p, msg := some m } := rfl
@[simp] theorem foundMsg_config (s : State) (p : Bytes) (c : Option Nat) (m : Message) : (s.foundMsg p c m).config = s.config := rfl
@[simp] theorem foundMsg_requests (s : State) (p : Bytes) (c : Option Nat) (m : Message) : (s.foundMsg p c m).requests = s.requests := rfl
@[simp] theorem foundMsg_freeTick (s : State) (p : Bytes) (c : Option Nat) (m : Message) : (s.foundMsg p c m).freeTick = s.freeTick := rfl

@[simp] theorem withChecksumOf_rxbuf (s : State) (p : Bytes) : (s.withChecksumOf p).rxbuf = s.rxbuf := rfl
@[simp] theorem withChecksumOf_acc (s : State) (p : Bytes) : (s.withChecksumOf p).acc = checksum p := rfl
@[simp] theorem withChecksumOf_lenr (s : State) (p : Bytes) : (s.withChecksumOf p).lenr = lenField p.length := rfl
@[simp] theorem withChecksumOf_scanoff (s : State) (p : Bytes) : (s.withChecksumOf p).scanoff = s.scanoff := rfl
@[simp] theorem withChecksumOf_results (s : State) (p : Bytes) : (s.withChecksumOf p).results = s.results := rfl
@[simp] theorem withChecksumOf_config (s : State) (p : Bytes) : (s.withChecksumOf p).config = s.config := rfl
@[simp] theorem withChecksumOf_requests (s : State) (p : Bytes) : (s.withChecksumOf p).requests = s.requests := rfl
@[simp] theorem withChecksumOf_freeTick (s : State) (p : Bytes) : (s.withChecksumOf p).freeTick = s.freeTick := rfl

@[simp] theorem withScanRegs_rxbuf (s : State) (r : ScanRegs) : (s.withScanRegs r).rxbuf = s.rxbuf := rfl
@[simp] theorem withScanRegs_acc (s : State) (r : ScanRegs) : (s.withScanRegs r).acc = r.acc := rfl
@[simp] theorem withScanRegs_lenr (s : State) (r : ScanRegs) : (s.withScanRegs r).lenr = r.lenr := rfl
@[simp] theorem withScanRegs_scanoff (s : State) (r : ScanRegs) : (s.withScanRegs r).scanoff = r.scanoff := rfl
@[simp] theorem withScanRegs_results (s : State) (r : ScanRegs) : (s.withScanRegs r).results = s.results := rfl
@[simp] theorem withScanRegs_config (s : State) (r : ScanRegs) : (s.withScanRegs r).config = s.config := rfl
@[simp] theorem withScanRegs_requests (s : State) (r : ScanRegs) : (s.withScanRegs r).requests = s.requests := rfl
@[simp] theorem withScanRegs_freeTick (s : State) (r : ScanRegs) : (s.withScanRegs r).freeTick = s.freeTick := rfl

@[simp] theorem withFetchWord_rxbuf (s : State) (n w : Nat) : (s.withFetchWord n w).rxbuf = s.rxbuf := rfl
@[simp] theorem withFetchWord_acc (s : State) (n w : Nat) : (s.withFetchWord n w).acc = s.acc := rfl
@[simp] theorem withFetchWord_lenr (s : State) (n w : Nat) : (s.withFetchWord n w).lenr = s.lenr := rfl
@[simp] theorem withFetchWord_scanoff (s : State) (n w : Nat) : (s.withFetchWord n w).scanoff = s.scanoff := rfl
@[simp] theorem withFetchWord_results (s : State) (n w : Nat) : (s.withFetchWord n w).results = s.results := rfl
@[simp] theorem withFetchWord_config (s : State) (n w : Nat) : (s.withFetchWord n w).config = s.config := rfl
@[simp] theorem withFetchWord_requests (s : State) (n w : Nat) : (s.withFetchWord n w).requests = requestOfWord n w :: s.requests := rfl
@[simp] theorem withFetchWord_freeTick (s : State) (n w : Nat) : (s.withFetchWord n w).freeTick = s.freeTick := rfl

@[simp] theorem report_ok (s : State) (p : Bytes) (c : Option Nat) (m : Message) :
    s.report p c (.ok m) = s.foundMsg p c m := rfl

@[simp] theorem report_error (s : State) (p : Bytes) (c : Option Nat) (e : DecodeError) :
    s.report p c (.error e) = s.decodeError p c e := rfl

/-- What the report of a decode leaves alone. -/
theorem report_frame (s : State) (p : Bytes) (c : Option Nat) (r : Except DecodeError Message) :
    s.report p c r = { s with results := (s.report p c r).results } := by
  cases r <;> rfl

@[simp] theorem report_rxbuf (s : State) (p : Bytes) (c : Option Nat) (r : Except DecodeError Message) :
    (s.report p c r).rxbuf = s.rxbuf := by cases r <;> rfl
@[simp] theorem report_acc (s : State) (p : Bytes) (c : Option Nat) (r : Except DecodeError Message) :
    (s.report p c r).acc = s.acc := by cases r <;> rfl
@[simp] theorem report_lenr (s : State) (p : Bytes) (c : Option Nat) (r : Except DecodeError Message) :
    (s.report p c r).lenr = s.lenr := by cases r <;> rfl
@[simp] theorem report_scanoff (s : State) (p : Bytes) (c : Option Nat) (r : Except DecodeError Message) :
    (s.report p c r).scanoff = s.scanoff := by cases r <;> rfl
@[simp] theorem report_config (s : State) (p : Bytes) (c : Option Nat) (r : Except DecodeError Message) :
    (s.report p c r).config = s.config := by cases r <;> rfl
@[simp] theorem report_requests (s : State) (p : Bytes) (c : Option Nat) (r : Except DecodeError Message) :
    (s.report p c r).requests = s.requests := by cases r <;> rfl
@[simp] theorem report_freeTick (s : State) (p : Bytes) (c : Option Nat) (r : Except DecodeError Message) :
    (s.report p c r).freeTick = s.freeTick := by cases r <;> rfl

end Sys2Proof.Machine.State
end

