-- ==== Sys2Proof/Laws/Classifier.lean ====
section
/-! SUPPORT. The measurement decoder and the classifier on the wire forms of 30_encoding.md. -/

namespace Sys2Proof.Machine

/-! ## Bodies -/

theorem WireValue.length_bytes {cfg : Config} {v : WireValue} (h : v.Ok cfg) : v.bytes.length = 13 := by
  simp [WireValue.bytes, h.1]

@[simp] theorem WireTimed.length_bytes (v : WireTimed) : v.bytes.length = 9 := rfl

theorem optField_at {α β : Type} {p : Bytes} {o w : Nat} {v : Option α} {bytes : α → Bytes} {value : α → β}
    {dec : Nat → Except DecodeError β} (h : StandsAt p o (optBytes bytes v))
    (hdec : ∀ x ∈ v, StandsAt p o (bytes x) → dec o = .ok (value x)) (hlen : ∀ x ∈ v, (bytes x).length = w) :
    optField v.isSome o w dec = .ok (v.map value, o + (optBytes bytes v).length) := by
  cases v with
  | none => simp [optField, optBytes, pure, Except.pure]
  | some x =>
    have hx : StandsAt p o (bytes x) := by simpa [optBytes] using h
    simp [optField, optBytes, hdec x rfl hx, hlen x rfl, bind, Except.bind, pure, Except.pure]

theorem decBody_at {cfg : Config} {p : Bytes} {base : Nat} {f : HdrFlags} {b : WireBody}
    (h : StandsAt p (base + 5) b.bytes) (hb : b.Ok cfg f) : decBody cfg p base f b.kind = .ok b.body := by
  cases b with
  | normal m s t q =>
    obtain ⟨hm, hs, ht, hq, fs, ft, fq, hw⟩ := hb
    have h1 := h.right
    rw [WireValue.length_bytes hm] at h1
    have h2 := h1.right
    have h3 := h2.right
    have e1 := optField_at (value := WireValue.value) (dec := decValue13 cfg p) h1.left
      (fun x hx hat => decValue13_at hat (hs x hx)) (w := 13) (fun x hx => WireValue.length_bytes (hs x hx))
    have e2 := optField_at (value := WireValue.value) (dec := decValue13 cfg p) h2.left
      (fun x hx hat => decValue13_at hat (ht x hx)) (w := 13) (fun x hx => WireValue.length_bytes (ht x hx))
    have e3 := optField_at (value := WireFast.value) (dec := decFast cfg p) h3
      (fun x hx hat => decFast_at hat (hq x hx) (hw (Option.isSome_iff_exists.mpr ⟨x, hx⟩))) (w := 4 + cfg.fastUnitW)
      (fun x hx => by
        have := hw (Option.isSome_iff_exists.mpr ⟨x, hx⟩)
        simp [WireFast.bytes, (hq x hx).1, this])
    simp [decBody, decNormal, WireBody.kind, WireBody.body, measHeaderW, valueW, decValue13_at h.left hm, fs, ft, fq,
      e1, e2, e3, bind, Except.bind, pure, Except.pure]
  | relative r e a q =>
    obtain ⟨hr, he, ha, hq, fq, hw⟩ := hb
    have h1 := h.right
    rw [WireValue.length_bytes hr] at h1
    have h2 := h1.right
    rw [WireValue.length_bytes he] at h2
    have h3 := h2.right
    rw [WireValue.length_bytes ha] at h3
    simp only [Nat.add_assoc, Nat.reduceAdd] at h1 h2 h3
    have e3 := optField_at (value := WireFast.value) (dec := decFast cfg p) h3
      (fun x hx hat => decFast_at hat (hq x hx) (hw (Option.isSome_iff_exists.mpr ⟨x, hx⟩))) (w := 4 + cfg.fastUnitW)
      (fun x hx => by
        have := hw (Option.isSome_iff_exists.mpr ⟨x, hx⟩)
        simp [WireFast.bytes, (hq x hx).1, this])
    simp [decBody, decRelative, WireBody.kind, WireBody.body, decValue13_at h.left hr, decValue13_at h1.left he,
      decValue13_at h2.left ha, fq, e3, bind, Except.bind, pure, Except.pure]
  | minMax field u m x a n =>
    obtain ⟨hu, hl⟩ := hb
    have h1 := h.right
    rw [hu.1] at h1
    have h2 := h1.right
    have h3 := h2.right
    have h4 := h3.right
    simp only [WireTimed.length_bytes, Nat.add_assoc, Nat.reduceAdd] at h1 h2 h3 h4
    simp [decBody, decMinMax, WireBody.kind, WireBody.body, hl, defaultMinMax, decUnitExp_at h.left hu,
      decTimed_at h1.left, decTimed_at h2.left, decTimed_at h3.left, decTimed_at h4, bind, Except.bind, pure, Except.pure]
  | peak x n =>
    obtain ⟨hx, hn⟩ := hb
    have h1 := h.right
    rw [WireValue.length_bytes hx] at h1
    simp only [Nat.add_assoc, Nat.reduceAdd] at h1
    simp [decBody, decPeak, WireBody.kind, WireBody.body, decValue13_at h.left hx, decValue13_at h1 hn,
      bind, Except.bind, pure, Except.pure]

/-! ## Measurements -/

@[simp] theorem decRange_encRange (r : Range) : decRange (encRange r) = .ok r := by cases r <;> rfl

theorem kindOf_hdrByte (k : Kind) (f : HdrFlags) : kindOf (hdrByte k f) = some k := by
  obtain ⟨a, b, c, d, e⟩ := f
  cases k <;> (revert a b c d e; decide)

theorem flagsOf_hdrByte (k : Kind) (f : HdrFlags) : flagsOf (hdrByte k f) = f := by
  obtain ⟨a, b, c, d, e⟩ := f
  cases k <;> (revert a b c d e; decide)

/-- The measurement that a header and a body make. -/
def measurementOf (id : ModeId) (r : Range) (f : HdrFlags) (auto : Byte) (b : WireBody) : Measurement where
  mode := id
  range := r
  hold := f.hold
  autoRange := auto == 0x01#8
  body := b.body

theorem decMeasRest_at {cfg : Config} {p : Bytes} {base : Nat} {f : HdrFlags} {b : WireBody} {auto : Byte} {code : Half}
    {id : ModeId} {r : Range} (h : StandsAt p (base + 1) (headerBytes auto code (encRange r) ++ b.bytes))
    (hid : tableGet cfg.modeTable code = some id) (hb : b.Ok cfg f) :
    decMeasRest cfg p base f (decBody cfg p base f b.kind) = .ok (measurementOf id r f auto b) := by
  have h0 : StandsAt p (base + 1) (auto :: (le16Bytes code ++ encRange r :: b.bytes)) := by
    simpa [headerBytes] using h
  have h2 := h0.tail.right
  simp only [length_le16Bytes, Nat.add_assoc, Nat.reduceAdd] at h2
  have h5 := h2.tail
  simp only [Nat.add_assoc, Nat.reduceAdd] at h5
  have hm : StandsAt p (base + 2) (le16Bytes code) := h0.tail.left
  simp [decMeasRest, h0.head.readByte, hm.readLE16, decMode, hid, h2.head.readByte,
    decBody_at h5 hb, bind, Except.bind, pure, Except.pure, measurementOf]

theorem length_lead (c : Carrier) : c.lead.length = c.base := by cases c <;> rfl

theorem measPayload_at (c : Carrier) (hdr : Byte) (rest tail : Bytes) :
    StandsAt (measPayload c hdr (rest ++ tail)) c.base (hdr :: rest) :=
  ⟨c.lead, tail, by simp [measPayload], length_lead c⟩

theorem decMeas_at {cfg : Config} {p : Bytes} {base : Nat} {k : Kind} {f : HdrFlags}
    (h : StandsAt p base [hdrByte k f]) :
    decMeas cfg p base = decMeasRest cfg p base f (decBody cfg p base f k) := by
  simp [decMeas, h.readByte, kindOf_hdrByte, flagsOf_hdrByte, bind, Except.bind]

/-- The carrier of a measurement gives the message (R113, R114). -/
theorem carried_carrierOf {ts : Option DateTime} {hdr : Byte} {rest : Bytes} {m : Measurement} (ht : PackableOpt ts) :
    carried (carrierOf ts) (measPayload (carrierOf ts) hdr rest) (.ok m) = .ok (messageOf ts m) := by
  cases ts with
  | none => rfl
  | some t =>
    have hp : Packable t := ht t rfl
    obtain ⟨b0, b1, b2, b3, he, -⟩ := unpack_encDateTime hp
    have hat : StandsAt (measPayload (.saved b0 b1 b2 b3) hdr rest) 1 (encDateTime t) :=
      ⟨[0x03#8], hdr :: rest, by simp [measPayload, Carrier.lead, he], rfl⟩
    simp [carrierOf, he, carried, savedMessage, decDateTime_enc hat hp, messageOf, bind, Except.bind, pure, Except.pure]

/-- A payload that fits and decodes to a message leaves the state of R111. -/
theorem classified_msg {s : State} {p : Bytes} {m : Message} (h : p.length ≤ 65533) :
    s.classified p (.ok m) = afterMsg s p m := by
  simp [State.classified, maxPayload, Nat.not_lt.mpr h, State.foundMsg, State.finish, afterMsg]

theorem classified_error {s : State} {p : Bytes} {e : DecodeError} (h : p.length ≤ 65533) :
    s.classified p (.error e) = afterError s p e := by
  simp [State.classified, maxPayload, Nat.not_lt.mpr h, State.decodeError, State.finish, afterError]

theorem classified_long {s : State} {p : Bytes} {r : Except DecodeError Message} (h : 65533 < p.length) :
    s.classified p r = afterRefusal s (.payloadTooLong p.length) := by
  simp [State.classified, maxPayload, h, State.refuse, State.finish, afterRefusal]

/-! ## Rows are CLASSIFY of their payload -/

theorem readByte_cons (b : Byte) (t : Bytes) : readByte (b :: t) 0 = .ok b :=
  StandsAt.readByte ⟨[], t, by simp, rfl⟩

theorem classify_replyCode (cfg : Config) (t : Bytes) : classify cfg (0x01#8 :: t) = replyCode (0x01#8 :: t) := by
  simp [classify, readByte_cons, bind, Except.bind]

theorem classify_meas (cfg : Config) (t : Bytes) : classify cfg (0x02#8 :: t) = meas cfg (0x02#8 :: t) := by
  simp [classify, readByte_cons, bind, Except.bind]

theorem classify_saved (cfg : Config) (t : Bytes) : classify cfg (0x03#8 :: t) = saved cfg (0x03#8 :: t) := by
  simp [classify, readByte_cons, bind, Except.bind]

theorem classify_recInfo (cfg : Config) (t : Bytes) : classify cfg (0x04#8 :: t) = recInfo cfg (0x04#8 :: t) := by
  simp [classify, readByte_cons, bind, Except.bind]

theorem classify_recData (cfg : Config) (t : Bytes) : classify cfg (0x05#8 :: t) = recData (0x05#8 :: t) := by
  simp [classify, readByte_cons, bind, Except.bind]

theorem classify_reply (cfg : Config) (t : Bytes) : classify cfg (0x72#8 :: t) = reply (0x72#8 :: t) := by
  simp [classify, readByte_cons, bind, Except.bind]

theorem replyCode_of_code (code : Half) (t : Bytes) :
    replyCode (0x01#8 :: (le16Bytes code ++ t)) =
      match code.toNat with
      | 0x4B4F => .ok .success
      | 0x5245 => .ok .deviceError
      | _ => .error (.unknownReplyCode code) := by
  have h : StandsAt (0x01#8 :: (le16Bytes code ++ t)) 1 (le16Bytes code) := ⟨[0x01#8], t, by simp, rfl⟩
  rw [replyCode, h.readLE16]
  rfl

/-- A payload with a known header byte decodes as its carrier and kind say (R110, R130). -/
theorem classify_measPayload (cfg : Config) (c : Carrier) (k : Kind) (f : HdrFlags) (rest : Bytes) :
    classify cfg (measPayload c (hdrByte k f) rest) =
      carried c (measPayload c (hdrByte k f) rest)
        (decMeasRest cfg (measPayload c (hdrByte k f) rest) c.base f
          (decBody cfg (measPayload c (hdrByte k f) rest) c.base f k)) := by
  have hat : StandsAt (measPayload c (hdrByte k f) rest) c.base [hdrByte k f] := by
    simpa using measPayload_at c (hdrByte k f) [] rest
  rw [← decMeas_at hat]
  cases c with
  | live => exact classify_meas cfg _
  | saved d0 d1 d2 d3 => exact classify_saved cfg _

/-- A payload with a known range byte decodes with that range (R130, R155). -/
theorem decMeasRest_range {cfg : Config} {u : RangeUse} {b : Byte} {r : Range} (hr : decRange b = .ok r) :
    decMeasRest cfg (u.payload b) u.carrier.base u.flags (decBody cfg (u.payload b) u.carrier.base u.flags u.kind) =
      decMeasRange cfg (u.payload b) u r := by
  have h := measPayload_at u.carrier (hdrByte u.kind u.flags) (headerBytes u.auto u.mode b) u.body
  have hp : measPayload u.carrier (hdrByte u.kind u.flags) (headerBytes u.auto u.mode b ++ u.body) = u.payload b := by
    simp [RangeUse.payload, headerBytes]
  rw [hp] at h
  have h1 : StandsAt (u.payload b) (u.carrier.base + 1) (u.auto :: (le16Bytes u.mode ++ [b])) := h.tail
  have h2 : StandsAt (u.payload b) (u.carrier.base + 2) (le16Bytes u.mode) := h1.tail.left
  have h4 : StandsAt (u.payload b) (u.carrier.base + 4) [b] := by
    simpa [Nat.add_assoc] using h1.tail.right
  simp [decMeasRest, decMeasRange, h1.head.readByte, h2.readLE16, h4.readByte, hr, bind, Except.bind]

theorem classify_rangePayload (cfg : Config) (u : RangeUse) {b : Byte} {r : Range} (hr : decRange b = .ok r) :
    classify cfg (u.payload b) = carried u.carrier (u.payload b) (decMeasRange cfg (u.payload b) u r) := by
  rw [← decMeasRest_range hr]
  exact classify_measPayload cfg u.carrier u.kind u.flags _

/-! ## Record data items -/

theorem readNat_at {p : Bytes} {o n : Nat} {bs : Bytes} (h : StandsAt p o bs) (hn : bs.length = n) :
    readNat p o n = .ok (leNat bs) := by
  simp [readNat, h.field hn, bind, Except.bind, pure, Except.pure]

/-- A layout's field whose bytes stand in their place is what its reader gives there. -/
theorem readAt_at {α : Type} {dec : Bytes → Nat → Except DecodeError α} {p : Bytes} {l : LayoutField} {bs : Bytes}
    (h : StandsAt p l.off bs) (hw : bs.length = l.width) : readAt dec p l = dec p l.off := by
  simp [readAt, h.need hw, bind, Except.bind]

theorem decItem_at {p : Bytes} {o : Nat} {i : WireItem} (h : StandsAt p o i.bytes) (hp : Packable i.ts) :
    decItem p o = .ok i.item := by
  have h' : StandsAt p o ((le32Bytes i.magnitude ++ [i.flags]) ++ encDateTime i.ts) := by
    simpa [WireItem.bytes] using h
  have h5 : StandsAt p (o + 5) (encDateTime i.ts) := h'.right
  simp [decItem, decValue5_at h'.left, value5W, decDateTime_enc h5 hp, bind, Except.bind, pure, Except.pure,
    WireItem.item]

theorem length_items (items : List WireItem) : (items.flatMap WireItem.bytes).length = 9 * items.length := by
  induction items with
  | nil => rfl
  | cons i is ih =>
    simp only [List.flatMap_cons, List.length_append, ih, List.length_cons]
    simp [WireItem.bytes, encDateTime]
    omega

/-- Items that stand one after another decode in order, whatever comes after them (R116). -/
theorem decItems_at {p : Bytes} {items : List WireItem} {o : Nat} (h : StandsAt p o (items.flatMap WireItem.bytes))
    (hp : ∀ i ∈ items, Packable i.ts) (n : Nat) :
    decItems p o (items.length + n) =
      (decItems p (o + 9 * items.length) n).map (items.map WireItem.item ++ ·) := by
  induction items generalizing o with
  | nil => simp; cases decItems p o n <;> rfl
  | cons i is ih =>
    have h0 : StandsAt p o (i.bytes ++ is.flatMap WireItem.bytes) := by simpa using h
    have h9 : StandsAt p (o + 9) (is.flatMap WireItem.bytes) := h0.right
    have := ih h9 (fun j hj => hp j (by simp [hj]))
    rw [show (i :: is).length + n = (is.length + n) + 1 by simp; omega]
    simp only [decItems, decItem_at h0.left (hp i (by simp)), itemW, this]
    rw [show o + 9 * (i :: is).length = o + 9 + 9 * is.length by simp; omega]
    cases decItems p (o + 9 + 9 * is.length) n <;> rfl

end Sys2Proof.Machine
end

