-- ==== Sys2Proof/Laws/PerInstr.lean ====
section
/-! SUPPORT. Statements made per instruction. Family RoundTrip: decoding what the encoder presents gives the instruction back,
with every operand at every value a well-formed instruction has. -/

namespace Sys2Proof.Laws.RoundTrip

open Sys2Proof.Machine (kindOf_hdrByte flagsOf_hdrByte le16_le16Bytes le16Bytes le16)

/-- Decode inverts encode on a well-formed instruction. -/
def Statement (i : Instr) : Prop := i.wellFormed = true → decode (encode i) = .ok i

theorem splitCarrier_lead (c : Carrier) (m : Bytes) : splitCarrier (c.lead ++ m) = .ok (c, m) := by cases c <;> rfl

theorem decodeMeas_payload (c : Carrier) (k : Kind) (f : HdrFlags) (rest : Bytes) :
    decode (.meas (measPayload c (hdrByte k f) rest)) = .ok (measInstr c f rest k) := by
  simp [decode, Except.mapError, decodeMeas, measPayload, splitCarrier_lead, kindOf_hdrByte, flagsOf_hdrByte]

theorem le16_halves (v : Half) : le16 [v.setWidth 8, (v >>> 8).setWidth 8] = v := le16_le16Bytes v

theorem decodeRange_payload (u : RangeUse) (b : Byte) :
    decode (.range (u.payload b)) = (rangeInstr u b).mapError (.payload · (u.payload b)) := by
  simp [decode, decodeRange, RangeUse.payload, measPayload, splitCarrier_lead, kindOf_hdrByte, flagsOf_hdrByte, le16Bytes,
    le16_halves]

theorem decodeFrame_bytes (len : Half) (rest : Bytes) (h : rest.length = len.toNat) :
    decode (.frame (frameBytes len rest)) = .ok (.frame len rest) := by
  simp [decode, Except.mapError, decodeFrame, frameBytes, le16Bytes, le16_halves, h]

theorem reset : Statement .reset := fun _ => rfl
theorem push (b : Bytes) : Statement (.push b) := fun _ => rfl
theorem scan : Statement .scan := fun _ => rfl
theorem drop (k : DropCount) : Statement (.drop k) := fun _ => rfl
theorem csum (p : Bytes) : Statement (.csum p) := fun _ => rfl
theorem build (p : Bytes) : Statement (.build p) := fun _ => rfl
theorem classify (p : Bytes) : Statement (.classify p) := fun _ => rfl
theorem hostopReserved (k : Fin 9) (x : Operand) : Statement (.hostopReserved k x) := fun _ => rfl
theorem frame (len : Half) (rest : Bytes) : Statement (.frame len rest) := fun h =>
  decodeFrame_bytes len rest (by simpa [Instr.wellFormed] using h)
theorem msgReplyCode (r : Bytes) : Statement (.msgReplyCode r) := fun _ => rfl
theorem msgMeas (r : Bytes) : Statement (.msgMeas r) := fun _ => rfl
theorem msgSaved (r : Bytes) : Statement (.msgSaved r) := fun _ => rfl
theorem msgRecInfo (r : Bytes) : Statement (.msgRecInfo r) := fun _ => rfl
theorem msgRecData (r : Bytes) : Statement (.msgRecData r) := fun _ => rfl
theorem msgReply (r : Bytes) : Statement (.msgReply r) := fun _ => rfl
theorem replySuccess (r : Bytes) : Statement (.replySuccess r) := fun _ => rfl
theorem replyDeviceError (r : Bytes) : Statement (.replyDeviceError r) := fun _ => rfl
theorem measNormal (c : Carrier) (f : HdrFlags) (r : Bytes) : Statement (.measNormal c f r) := fun _ =>
  decodeMeas_payload c .normal f r
theorem measRelative (c : Carrier) (f : HdrFlags) (r : Bytes) : Statement (.measRelative c f r) := fun _ =>
  decodeMeas_payload c .relative f r
theorem measMinMax (c : Carrier) (f : HdrFlags) (r : Bytes) : Statement (.measMinMax c f r) := fun _ =>
  decodeMeas_payload c .minMax f r
theorem measPeak (c : Carrier) (f : HdrFlags) (r : Bytes) : Statement (.measPeak c f r) := fun _ =>
  decodeMeas_payload c .peak f r
theorem rangeAuto (u : RangeUse) : Statement (.rangeAuto u) := fun _ => decodeRange_payload u 0x00#8
theorem rangeStep1 (u : RangeUse) : Statement (.rangeStep1 u) := fun _ => decodeRange_payload u 0x01#8
theorem rangeStep2 (u : RangeUse) : Statement (.rangeStep2 u) := fun _ => decodeRange_payload u 0x02#8
theorem rangeStep3 (u : RangeUse) : Statement (.rangeStep3 u) := fun _ => decodeRange_payload u 0x03#8
theorem rangeStep4 (u : RangeUse) : Statement (.rangeStep4 u) := fun _ => decodeRange_payload u 0x04#8
theorem rangeStep5 (u : RangeUse) : Statement (.rangeStep5 u) := fun _ => decodeRange_payload u 0x05#8
theorem rangeStep6 (u : RangeUse) : Statement (.rangeStep6 u) := fun _ => decodeRange_payload u 0x06#8
theorem rangeStep7 (u : RangeUse) : Statement (.rangeStep7 u) := fun _ => decodeRange_payload u 0x07#8
theorem rangeStep8 (u : RangeUse) : Statement (.rangeStep8 u) := fun _ => decodeRange_payload u 0x08#8
theorem reqSetMode (o : Bytes) : Statement (.reqSetMode o) := fun _ => rfl
theorem reqSetRange (o : Bytes) : Statement (.reqSetRange o) := fun _ => rfl
theorem reqSetRef (o : Bytes) : Statement (.reqSetRef o) := fun _ => rfl
theorem reqSetMinMax (o : Bytes) : Statement (.reqSetMinMax o) := fun _ => rfl
theorem reqMonitor (o : Bytes) : Statement (.reqMonitor o) := fun _ => rfl
theorem reqSave (o : Bytes) : Statement (.reqSave o) := fun _ => rfl
theorem reqReadSave (o : Bytes) : Statement (.reqReadSave o) := fun _ => rfl
theorem reqSaveCount (o : Bytes) : Statement (.reqSaveCount o) := fun _ => rfl
theorem reqDelSave (o : Bytes) : Statement (.reqDelSave o) := fun _ => rfl
theorem reqRecStart (o : Bytes) : Statement (.reqRecStart o) := fun _ => rfl
theorem reqRecStop (o : Bytes) : Statement (.reqRecStop o) := fun _ => rfl
theorem reqRecInfo (o : Bytes) : Statement (.reqRecInfo o) := fun _ => rfl
theorem reqRecData (o : Bytes) : Statement (.reqRecData o) := fun _ => rfl
theorem reqRecCount (o : Bytes) : Statement (.reqRecCount o) := fun _ => rfl
theorem reqHold (o : Bytes) : Statement (.reqHold o) := fun _ => rfl

end Sys2Proof.Laws.RoundTrip
end

