-- ==== Sys2Proof/Certificates/Slice0/Obligations.lean ====
section
/-! DEFINITION. The statements for the provers. `t` is the state after an operation; a statement that names the whole of it says
its frame: what is not named is unchanged. -/

open Sys2Proof Sys2Proof.Machine

/-! ## Reset and the reserved codes -/

/-- The state after reset (10_state.md section 6; that a new buffer is empty is the spec's own choice, D28). -/
def Obligations.ResetStateHoldsSpecValues : Prop :=
  State.reset.rxbuf = [] ∧ State.reset.rxlen = 0 ∧ State.reset.results.status = .idle ∧
    ∀ r, r ≠ .status → State.reset.readResult r = .error (.invalidResultRead r)

/-- RESET (70_reset_and_hazards.md section 1, the spec's own choice D28), from any state; ACC, LENR and SCANOFF are not
constrained. The last clause is about the model's own field, the operations the host has issued (log 1, DESIGN CHOICE). -/
def Obligations.ResetEmptiesAndInvalidates : Prop :=
  ∀ s : State, ∃ t, exec .reset s = .next t ∧ t.rxbuf = [] ∧ t.results.status = .idle ∧
    (∀ r, r ≠ .status → t.readResult r = .error (.invalidResultRead r)) ∧
    t.config = s.config ∧ t.requests = s.requests

/-- The reserved operation codes (60_exceptions.md R201, the spec's own choice D3), whatever operand the host has at hand. -/
def Obligations.ReservedOpIsRefused : Prop :=
  (∀ (op : BitVec 4) (x : Operand) (s : State), 7 ≤ op.toNat → ∃ k,
    decode (.hostop (.select op x)) = .ok (.hostopReserved k x) ∧
    exec (.hostopReserved k x) s = .next (afterRefusal s (.badOp op))) ∧
  ∀ (k : Fin 9) (x : Operand) (s : State),
    exec (.hostopReserved k x) s = .next (afterRefusal s (.badOp (BitVec.ofNat 4 (7 + k.val))))

/-! ## The receive buffer -/

/-- PUSH appends the bytes in order at the end (R90), or is refused whole (the spec's own choice D5). -/
def Obligations.PushAppendsOrIsRefused : Prop :=
  ∀ (b : Bytes) (s : State),
    ((∀ cap, s.config.rxCap = some cap → s.rxbuf.length + b.length ≤ cap) →
      exec (.push b) s = .next { s with rxbuf := s.rxbuf ++ b, results := { status := .done } }) ∧
    (∀ cap, s.config.rxCap = some cap → cap < s.rxbuf.length + b.length →
      exec (.push b) s = .next (afterRefusal s (.bufOverflow s.rxbuf.length b.length)))

/-- After DROP k the byte formerly at offset k + i is at offset i (R100); more than RXLEN is refused (the spec's own choice
D30). -/
def Obligations.DropRemovesPrefixOrIsRefused : Prop :=
  ∀ (k : Nat) (s : State),
    (k ≤ s.rxbuf.length → ∃ t, exec (.drop (.count k)) s = .next t ∧
      t = { s with rxbuf := t.rxbuf, results := { status := .done } } ∧
      t.rxbuf.length = s.rxbuf.length - k ∧ ∀ i, t.rxRead i = s.rxRead (k + i)) ∧
    (s.rxbuf.length < k → exec (.drop (.count k)) s = .next (afterRefusal s (.badDrop k s.rxbuf.length)))

/-- R74, R14: `DROP CONSUMED` drops what the register holds; with the register invalid there is no value to drop, and the
model faults (log 10). The good state bounds CONSUMED by RXLEN (R15). -/
def Obligations.DropConsumedUsesTheRegister : Prop :=
  ∀ s : State,
    (∀ c, s.Good → s.results.consumed = some c → ∃ t, exec (.drop .consumed) s = .next t ∧
      t = { s with rxbuf := t.rxbuf, results := { status := .done } } ∧
      t.rxbuf.length = s.rxbuf.length - c ∧ ∀ i, t.rxRead i = s.rxRead (c + i)) ∧
    (s.results.consumed = none → exec (.drop .consumed) s = .fault (.invalidResultRead .consumed))

/-- R10: only PUSH, DROP and RESET change RXBUF (and FRAME, which is a PUSH and a SCAN, log 3). -/
def Obligations.OnlyPushDropResetChangeTheBuffer : Prop :=
  ∀ (i : Instr) (s t : State), exec i s = .next t →
    i = .reset ∨ (∃ b, i = .push b) ∨ (∃ k, i = .drop k) ∨ (∃ l r, i = .frame l r) ∨ t.rxbuf = s.rxbuf

/-! ## The frame codec -/

/-- R80: CSUM gives the sum modulo 2^16 of the constant 2, the two length bytes and every payload byte. ACC and LENR may
change; nothing else does. -/
def Obligations.CsumIsTheSumFormula : Prop :=
  ∀ (p : Bytes) (s : State), p.length ≤ 65533 → ∃ (t : State) (c : Half), exec (.csum p) s = .next t ∧
    c.toNat = (2 + (p.length + 2) % 256 + (p.length + 2) / 256 + (p.map BitVec.toNat).sum) % 65536 ∧
    t = { s with acc := t.acc, lenr := t.lenr, results := { status := .done, csumOut := some c } }

/-- What BUILD of a payload does, for an instruction that is BUILD of that payload (R82). -/
def Sys2Proof.Machine.BuildsFrame (i : Instr) (p : Bytes) : Prop :=
  ∀ s : State, p.length ≤ 65533 → ∃ (t : State) (l0 l1 c0 c1 : Byte), exec i s = .next t ∧
    l0.toNat + 256 * l1.toNat = p.length + 2 ∧ c0.toNat + 256 * c1.toNat = sumFormula p ∧
    t = { s with acc := t.acc, lenr := t.lenr,
                 results := { status := .done, txbuf := some ([0xAB#8, 0xCD#8, l0, l1] ++ p ++ [c0, c1]) } }

/-- R82: BUILD. -/
def Obligations.BuildMakesTheFrame : Prop :=
  ∀ (p : Bytes) (s : State), p.length ≤ 65533 → ∃ (t : State) (l0 l1 c0 c1 : Byte), exec (.build p) s = .next t ∧
    l0.toNat + 256 * l1.toNat = p.length + 2 ∧ c0.toNat + 256 * c1.toNat = sumFormula p ∧
    t.txlen = some (p.length + 6) ∧
    t = { s with acc := t.acc, lenr := t.lenr,
                 results := { status := .done, txbuf := some ([0xAB#8, 0xCD#8, l0, l1] ++ p ++ [c0, c1]) } }

/-- R73, R82 (log 2): each request row is BUILD of its tag and operand bytes. -/
def Obligations.RequestRowsAreFramed : Prop :=
  ∀ o : Bytes,
    BuildsFrame (.reqSetMode o) (0x01#8 :: o) ∧ BuildsFrame (.reqSetRange o) (0x02#8 :: o) ∧
    BuildsFrame (.reqSetRef o) (0x03#8 :: o) ∧ BuildsFrame (.reqSetMinMax o) (0x04#8 :: o) ∧
    BuildsFrame (.reqMonitor o) (0x05#8 :: o) ∧ BuildsFrame (.reqSave o) (0x06#8 :: o) ∧
    BuildsFrame (.reqReadSave o) (0x07#8 :: o) ∧ BuildsFrame (.reqSaveCount o) (0x08#8 :: o) ∧
    BuildsFrame (.reqDelSave o) (0x09#8 :: o) ∧ BuildsFrame (.reqRecStart o) (0x0A#8 :: o) ∧
    BuildsFrame (.reqRecStop o) (0x0B#8 :: o) ∧ BuildsFrame (.reqRecInfo o) (0x0C#8 :: o) ∧
    BuildsFrame (.reqRecData o) (0x0D#8 :: o) ∧ BuildsFrame (.reqRecCount o) (0x0E#8 :: o) ∧
    BuildsFrame (.reqHold o) (0x12#8 :: o)

/-- CSUM, BUILD and CLASSIFY refuse a payload of more than 65533 bytes (R84, R111; the spec's own choice D9). -/
def Obligations.OverlongPayloadIsRefused : Prop :=
  ∀ (p : Bytes) (s : State), 65533 < p.length →
    exec (.csum p) s = .next (afterRefusal s (.payloadTooLong p.length)) ∧
    exec (.build p) s = .next (afterRefusal s (.payloadTooLong p.length)) ∧
    exec (.classify p) s = .next (afterRefusal s (.payloadTooLong p.length))

/-- R85: a built frame that fits RXBUF, pushed after RESET and scanned, gives back its payload and consumes n + 6 bytes. -/
def Obligations.BuiltFrameScansBack : Prop :=
  ∀ (p : Bytes) (s : State), p.length ≤ 65533 → (∀ cap, s.config.rxCap = some cap → p.length + 6 ≤ cap) →
    ∃ (a b c d : State) (tx : Bytes), exec (.build p) s = .next a ∧ a.results.txbuf = some tx ∧
      exec .reset a = .next b ∧ exec (.push tx) b = .next c ∧ exec .scan c = .next d ∧
      (d.results.status = .foundMsg ∨ d.results.status = .foundErr) ∧ d.results.payload = some p ∧
      d.results.consumed = some (p.length + 6) ∧ d.rxbuf = tx

/-! ## The frame scanner -/

/-- R98, which the spec derives from R91 to R97 (with its own choices D6 to D8): SCAN is decided by the first marker offset
that is not *false*. RXBUF is unchanged; ACC, LENR and SCANOFF may
change. -/
def Obligations.ScanIsDecidedByFirstCandidateNotFalse : Prop :=
  ∀ s : State, ∃ t, exec .scan s = .next t ∧
    t = { s with acc := t.acc, lenr := t.lenr, scanoff := t.scanoff, results := t.results } ∧
    (∀ m, Decides s.rxbuf m → IsValid s.rxbuf m →
      t.results.payload = some (payloadAt s.rxbuf m) ∧
      t.results.consumed = some (m + 4 + lenAt s.rxbuf m) ∧
      (∀ msg, classify s.config (payloadAt s.rxbuf m) = .ok msg →
        t.results.status = .foundMsg ∧ t.results.msg = some msg ∧ t.results.errCode = none ∧
          t.results.errInfo = none) ∧
      (∀ e, classify s.config (payloadAt s.rxbuf m) = .error e →
        t.results.status = .foundErr ∧ t.results.msg = none ∧ t.results.errCode = some e.code ∧
          t.results.errInfo = some e.info) ∧
      t.results.csumOut = none ∧ t.results.txbuf = none) ∧
    ((∃ m, Decides s.rxbuf m ∧ IsShort s.rxbuf m) → t.results = { status := .incomplete }) ∧
    ((∀ m, IsMarker s.rxbuf m → IsFalse s.rxbuf m) → t.results = { status := .incomplete })

/-- R101, R99: SCAN has three outcomes and never changes RXBUF; a second SCAN gives the same result (the spec's own
choices D10, D37). -/
def Obligations.ScanHasThreeOutcomesAndRepeats : Prop :=
  ∀ s t : State, exec .scan s = .next t →
    (t.results.status = .foundMsg ∨ t.results.status = .foundErr ∨ t.results.status = .incomplete) ∧
    t.rxbuf = s.rxbuf ∧ ∃ u, exec .scan t = .next u ∧ u.rxbuf = t.rxbuf ∧ u.results = t.results

/-- R102: a valid frame behind garbage that holds no short or valid candidate (a frame with altered checksum bytes, say), before
any trailing bytes, is found, and DROP CONSUMED leaves the trailing bytes; every proper prefix of a valid frame gives
INCOMPLETE and changes nothing. -/
def Obligations.FramesAreFoundOrAwaited : Prop :=
  ∀ (p : Bytes) (s : State), p.length ≤ 65533 →
    (∀ g t : Bytes, s.rxbuf = g ++ frameOf p ++ t → (∀ m < g.length, IsMarker s.rxbuf m → IsFalse s.rxbuf m) →
      ∃ u v : State, exec .scan s = .next u ∧ exec (.drop .consumed) u = .next v ∧
        u.results.payload = some p ∧ u.results.consumed = some (g.length + (p.length + 6)) ∧ v.rxbuf = t) ∧
    (∀ n, n < p.length + 6 → s.rxbuf = (frameOf p).take n →
      ∃ t, exec .scan s = .next t ∧
        t = { s with acc := t.acc, lenr := t.lenr, scanoff := t.scanoff, results := { status := .incomplete } })

/-- R226: while the first candidate that is not false is short, more bytes behind it change nothing, whatever frames they
hold. -/
def Obligations.ShortCandidateStallsTheScan : Prop :=
  ∀ (s : State) (m : Nat) (more : Bytes), Decides s.rxbuf m → m + 4 ≤ s.rxbuf.length → 2 ≤ lenAt s.rxbuf m →
    s.rxbuf.length + more.length < m + 4 + lenAt s.rxbuf m →
    ∃ t, exec .scan { s with rxbuf := s.rxbuf ++ more } = .next t ∧ t.results = { status := .incomplete }

/-- R50, R90, R96 (log 3): the row FRAME is a PUSH of the frame's bytes and, unless that is refused, a SCAN. On an empty,
unbounded RXBUF a whole frame with the right checksum is found; with a length below 2 or a wrong checksum, and no other marker
in it, it is a false match. -/
def Obligations.FrameRowIsPushedAndScanned : Prop :=
  ∀ (len : Half) (rest : Bytes) (s : State), rest.length = len.toNat →
    ((∀ cap, s.config.rxCap = some cap → s.rxbuf.length + (rest.length + 4) ≤ cap) →
      exec (.frame len rest) s =
        exec .scan { s with rxbuf := s.rxbuf ++ frameBytes len rest, results := { status := .done } }) ∧
    (∀ cap, s.config.rxCap = some cap → cap < s.rxbuf.length + (rest.length + 4) →
      exec (.frame len rest) s = .next (afterRefusal s (.bufOverflow s.rxbuf.length (rest.length + 4)))) ∧
    (s.rxbuf = [] → s.config.rxCap = none →
      ∃ t, exec (.frame len rest) s = .next t ∧
        t = { s with rxbuf := frameBytes len rest, acc := t.acc, lenr := t.lenr, scanoff := t.scanoff,
                     results := t.results } ∧
        (∀ (p : Bytes) (c0 c1 : Byte), rest = p ++ [c0, c1] → c0.toNat + 256 * c1.toNat = sumFormula p →
          t.results.payload = some p ∧ t.results.consumed = some (p.length + 6) ∧
            (∀ msg, classify s.config p = .ok msg → t.results.status = .foundMsg ∧ t.results.msg = some msg)) ∧
        ((∀ m, 0 < m → ¬ IsMarker (frameBytes len rest) m) →
          (len.toNat < 2 → t.results = { status := .incomplete }) ∧
          (∀ (p : Bytes) (c0 c1 : Byte), rest = p ++ [c0, c1] → c0.toNat + 256 * c1.toNat ≠ sumFormula p →
            t.results = { status := .incomplete })))

/-- R26, R41: what an operation gives depends on RXBUF, the configuration and the operand (and, for DROP CONSUMED, on
CONSUMED), and on nothing else the block holds. -/
def Obligations.NoHiddenStateInfluencesResults : Prop :=
  ∀ (i : Instr) (s₁ s₂ t₁ t₂ : State), s₁.rxbuf = s₂.rxbuf → s₁.config = s₂.config →
    s₁.results.consumed = s₂.results.consumed → exec i s₁ = .next t₁ → exec i s₂ = .next t₂ →
    t₁.rxbuf = t₂.rxbuf ∧ t₁.results = t₂.results

/-! ## The classifier -/

/-- R111: CLASSIFY writes PAYLOAD and either MSG or the decode error; RXBUF and every other register are unchanged. -/
def Obligations.ClassifyReportsTheDecoder : Prop :=
  ∀ (p : Bytes) (s : State), p.length ≤ 65533 →
    (∀ m, classify s.config p = .ok m → exec (.classify p) s = .next (afterMsg s p m)) ∧
    (∀ e, classify s.config p = .error e → exec (.classify p) s = .next (afterError s p e))

/-- The payload that a row of format MSG, REPLYCODE, MEAS or RANGE is CLASSIFY of (log 2). -/
def Sys2Proof.Machine.rowPayload (i : Instr) : Option Bytes :=
  match encode i with
  | .msg p => some p
  | .replyCode p => some p
  | .meas p => some p
  | .range p => some p
  | _ => none

/-- Log 2: each row of formats MSG, REPLYCODE, MEAS and RANGE, decoded by its own rule, is CLASSIFY of its payload. -/
def Obligations.PayloadRowsAreClassify : Prop :=
  ∀ (i : Instr) (p : Bytes) (s : State), rowPayload i = some p → exec i s = exec (.classify p) s

/-- R118: a tag outside the table is unknown, whatever follows it. -/
def Obligations.UnknownTagEndsClassification : Prop :=
  ∀ (s : State) (tag : Byte) (rest : Bytes), (tag :: rest).length ≤ 65533 →
    tag ∉ [0x01#8, 0x02#8, 0x03#8, 0x04#8, 0x05#8, 0x72#8] →
    exec (.classify (tag :: rest)) s = .next (afterError s (tag :: rest) (.unknownMessageFormat tag))

/-- R112: the reply codes, with any bytes after them (ignored, the spec's own choice D13), and a code that is not all there (the
spec's own choice D12). -/
def Obligations.ReplyCodesDecode : Prop :=
  ∀ (rest : Bytes) (s : State), rest.length + 3 ≤ 65533 →
    exec (.replySuccess rest) s = .next (afterMsg s (0x01#8 :: 0x4F#8 :: 0x4B#8 :: rest) .success) ∧
    exec (.replyDeviceError rest) s = .next (afterMsg s (0x01#8 :: 0x45#8 :: 0x52#8 :: rest) .deviceError) ∧
    exec (.msgReplyCode (0x4F#8 :: 0x4B#8 :: rest)) s =
      .next (afterMsg s (0x01#8 :: 0x4F#8 :: 0x4B#8 :: rest) .success) ∧
    exec (.msgReplyCode (0x45#8 :: 0x52#8 :: rest)) s =
      .next (afterMsg s (0x01#8 :: 0x45#8 :: 0x52#8 :: rest) .deviceError) ∧
    (∀ c0 c1 : Byte, c0.toNat + 256 * c1.toNat ≠ 0x4B4F → c0.toNat + 256 * c1.toNat ≠ 0x5245 →
      exec (.msgReplyCode (c0 :: c1 :: rest)) s =
        .next (afterError s (0x01#8 :: c0 :: c1 :: rest)
          (.unknownReplyCode (BitVec.ofNat 16 (c0.toNat + 256 * c1.toNat))))) ∧
    exec (.msgReplyCode []) s = .next (afterError s [0x01#8] (.truncated 3 1)) ∧
    (∀ c0 : Byte, exec (.msgReplyCode [c0]) s = .next (afterError s [0x01#8, c0] (.truncated 3 2)))

/-- R117: a raw reply is the remaining bytes verbatim, for CLASSIFY and for the row of tag 0x72 (that the row is CLASSIFY of its
payload is the model's reading, log 2). -/
def Obligations.RawReplyIsVerbatim : Prop :=
  ∀ (rest : Bytes) (s : State), rest.length + 1 ≤ 65533 →
    exec (.classify (0x72#8 :: rest)) s = .next (afterMsg s (0x72#8 :: rest) (.reply rest)) ∧
    exec (.msgReply rest) s = .next (afterMsg s (0x72#8 :: rest) (.reply rest))

/-- R114, R203 (the spec's own order D24): a saved measurement's date/time is decoded, and its error reported, before the
measurement is looked at; with fewer than its four bytes the error is Truncated (the spec's own choice D12). -/
def Obligations.SavedDateTimeErrorWins : Prop :=
  (∀ (b0 b1 b2 b3 : Byte) (rest : Bytes) (s : State), rest.length + 5 ≤ 65533 →
    validDateTime (unpackDateTime b0 b1 b2 b3) = false →
    exec (.msgSaved (b0 :: b1 :: b2 :: b3 :: rest)) s =
      .next (afterError s (0x03#8 :: b0 :: b1 :: b2 :: b3 :: rest) (.invalidDateTime (unpackDateTime b0 b1 b2 b3)))) ∧
  ∀ (rest : Bytes) (s : State), rest.length < 4 →
    exec (.msgSaved rest) s = .next (afterError s (0x03#8 :: rest) (.truncated 5 (rest.length + 1)))

/-- The bytes of a record info in the default layout (30_encoding.md R56). -/
def Sys2Proof.Machine.recInfoBytes (name unitField : Bytes) (interval : Half) (duration samples : Word)
    (vmax vavg vmin : Word × Byte) (start : DateTime) : Bytes :=
  name ++ unitField ++ le16Bytes interval ++ le32Bytes duration ++ le32Bytes samples ++
    (le32Bytes vmax.1 ++ [vmax.2]) ++ (le32Bytes vavg.1 ++ [vavg.2]) ++ (le32Bytes vmin.1 ++ [vmin.2]) ++
    encDateTime start

/-- R115: a record info in the default RECINFO_LAYOUT (the spec's own choice D22), with any bytes after it (D13). -/
def Obligations.RecordInfoDecodes : Prop :=
  ∀ (s : State) (name unitField tail : Bytes) (u : UnitExp) (interval : Half) (duration samples : Word)
    (vmax vavg vmin : Word × Byte) (start : DateTime),
    s.config.recInfo = defaultRecInfo → name.length = 11 → UnitField s.config unitField u → Packable start →
    49 + tail.length ≤ 65533 →
    exec (.msgRecInfo (recInfoBytes name unitField interval duration samples vmax vavg vmin start ++ tail)) s =
      .next (afterMsg s
        (0x04#8 :: (recInfoBytes name unitField interval duration samples vmax vavg vmin start ++ tail))
        (.recordInfo {
          name := cstr name, unit := u, interval := interval.toNat, duration := duration.toNat,
          samples := samples.toNat, max := valueOf vmax.1 vmax.2 none, average := valueOf vavg.1 vavg.2 none,
          min := valueOf vmin.1 vmin.2 none, start := start }))

/-- R116: a batch of items, in wire order, with any bytes after them (D13); none is the empty batch. -/
def Obligations.RecordDataDecodes : Prop :=
  ∀ (s : State) (items : List WireItem) (tail : Bytes), items.length ≤ 255 →
    (∀ i ∈ items, Packable i.ts) → 2 + 9 * items.length + tail.length ≤ 65533 →
    exec (.msgRecData (BitVec.ofNat 8 items.length :: (items.flatMap WireItem.bytes ++ tail))) s =
      .next (afterMsg s
        (0x05#8 :: BitVec.ofNat 8 items.length :: (items.flatMap WireItem.bytes ++ tail))
        (.recordDataBatch (items.map WireItem.item)))

/-- R116, R203 (the spec's own order D24): the first item that does not decode gives the error. One whose date/time is no real
one gives InvalidDateTime, whatever follows it; one of which less than its nine bytes are there gives Truncated (the spec's own
choice D12), of its value, at the item's offset + 5, where not even that is whole, else of its date/time, at + 9. A batch without
its count byte is Truncated too. -/
def Obligations.FirstBadItemFailsTheBatch : Prop :=
  (∀ (s : State) (items : List WireItem) (m : Word) (f b0 b1 b2 b3 : Byte) (count : Byte) (tail : Bytes),
    items.length < count.toNat → (∀ i ∈ items, Packable i.ts) → 2 + 9 * (items.length + 1) + tail.length ≤ 65533 →
    validDateTime (unpackDateTime b0 b1 b2 b3) = false →
    exec (.msgRecData (count :: (items.flatMap WireItem.bytes ++ (le32Bytes m ++ [f, b0, b1, b2, b3] ++ tail)))) s =
      .next (afterError s
        (0x05#8 :: count :: (items.flatMap WireItem.bytes ++ (le32Bytes m ++ [f, b0, b1, b2, b3] ++ tail)))
        (.invalidDateTime (unpackDateTime b0 b1 b2 b3)))) ∧
  (∀ (s : State) (items : List WireItem) (part : Bytes) (count : Byte),
    items.length < count.toNat → (∀ i ∈ items, Packable i.ts) → part.length < 9 →
    let o := 2 + 9 * items.length
    exec (.msgRecData (count :: (items.flatMap WireItem.bytes ++ part))) s =
      .next (afterError s (0x05#8 :: count :: (items.flatMap WireItem.bytes ++ part))
        (.truncated (if part.length < 5 then o + 5 else o + 9) (o + part.length)))) ∧
  ∀ s : State, exec (.msgRecData []) s = .next (afterError s [0x05#8] (.truncated 2 1))

/-- R119: bytes after the last field of a shape are ignored (the spec's own choice D13); a raw reply takes every byte. -/
def Obligations.ExtraBytesAreIgnored : Prop :=
  ∀ (s : State) (p extra : Bytes) (m : Message), p.head? ≠ some 0x72#8 →
    (p ++ extra).length ≤ 65533 → exec (.classify p) s = .next (afterMsg s p m) →
    exec (.classify (p ++ extra)) s = .next (afterMsg s (p ++ extra) m)

/-- R197 (the spec's own choice D12): a Truncated error says how long the payload is and how long the field needed it to be; an
empty payload has no tag (D34). -/
def Obligations.TruncatedNamesTheLengths : Prop :=
  ∀ (cfg : Config),
    (∀ (p : Bytes) (needed present : Nat), classify cfg p = .error (.truncated needed present) →
      present = p.length ∧ p.length < needed) ∧
    classify cfg [] = .error (.truncated 1 0)

/-! ## Measurements -/

/-- What a measurement row gives for a payload of its wire form: the message of R130 to R134, and the frame of R111. -/
def Sys2Proof.Machine.MeasuresAs (i : Instr) (s : State) (ts : Option DateTime) (f : HdrFlags) (auto : Byte) (id : ModeId)
    (r : Range) (b : WireBody) (payload : Bytes) : Prop :=
  exec i s = .next (afterMsg s payload (messageOf ts
    { mode := id, range := r, hold := f.hold, autoRange := decide (auto.toNat = 1), body := b.body }))

/-- Everything of a measurement after its header byte, with bytes that follow it. -/
def Sys2Proof.Machine.afterHeader (auto : Byte) (code : Half) (r : Range) (b : WireBody) (tail : Bytes) : Bytes :=
  auto :: (le16Bytes code ++ encRange r :: (b.bytes ++ tail))

/-- R131: MEAS.NORMAL, under either tag: an absent field takes no room (the spec's own reading D18). -/
def Obligations.NormalMeasurementDecodes : Prop :=
  ∀ (s : State) (ts : Option DateTime) (f : HdrFlags) (auto : Byte) (code : Half) (id : ModeId) (r : Range)
    (main : WireValue) (sec ter : Option WireValue) (fast : Option WireFast) (tail : Bytes),
    let b := WireBody.normal main sec ter fast
    let rest := afterHeader auto code r b tail
    let payload := measPayload (carrierOf ts) (hdrByte .normal f) rest
    MeasOk s ts code id payload → b.Ok s.config f →
    MeasuresAs (.measNormal (carrierOf ts) f rest) s ts f auto id r b payload

/-- R132: MEAS.RELATIVE, under either tag. -/
def Obligations.RelativeMeasurementDecodes : Prop :=
  ∀ (s : State) (ts : Option DateTime) (f : HdrFlags) (auto : Byte) (code : Half) (id : ModeId) (r : Range)
    (rel ref abs : WireValue) (fast : Option WireFast) (tail : Bytes),
    let b := WireBody.relative rel ref abs fast
    let rest := afterHeader auto code r b tail
    let payload := measPayload (carrierOf ts) (hdrByte .relative f) rest
    MeasOk s ts code id payload → b.Ok s.config f →
    MeasuresAs (.measRelative (carrierOf ts) f rest) s ts f auto id r b payload

/-- R133: MEAS.MINMAX in the default MINMAX_LAYOUT (the spec's own choice D21), under either tag. -/
def Obligations.MinMaxMeasurementDecodes : Prop :=
  ∀ (s : State) (ts : Option DateTime) (f : HdrFlags) (auto : Byte) (code : Half) (id : ModeId) (r : Range)
    (field : Bytes) (u : UnitExp) (main max average min : WireTimed) (tail : Bytes),
    let b := WireBody.minMax field u main max average min
    let rest := afterHeader auto code r b tail
    let payload := measPayload (carrierOf ts) (hdrByte .minMax f) rest
    MeasOk s ts code id payload → b.Ok s.config f →
    MeasuresAs (.measMinMax (carrierOf ts) f rest) s ts f auto id r b payload

/-- R134: MEAS.PEAK, under either tag. -/
def Obligations.PeakMeasurementDecodes : Prop :=
  ∀ (s : State) (ts : Option DateTime) (f : HdrFlags) (auto : Byte) (code : Half) (id : ModeId) (r : Range)
    (max min : WireValue) (tail : Bytes),
    let b := WireBody.peak max min
    let rest := afterHeader auto code r b tail
    let payload := measPayload (carrierOf ts) (hdrByte .peak f) rest
    MeasOk s ts code id payload → b.Ok s.config f →
    MeasuresAs (.measPeak (carrierOf ts) f rest) s ts f auto id r b payload

/-- R113, R114: a live and a saved measurement of each kind, by its header byte. -/
def Obligations.TaggedMeasurementsDecode : Prop :=
  ∀ (s : State) (f : HdrFlags) (auto : Byte) (code : Half) (id : ModeId) (r : Range) (b : WireBody) (tail : Bytes),
    let rest := hdrByte b.kind f :: afterHeader auto code r b tail
    b.Ok s.config f → tableGet s.config.modeTable code = some id →
    (rest.length + 1 ≤ 65533 → MeasuresAs (.msgMeas rest) s none f auto id r b (0x02#8 :: rest)) ∧
    ∀ ts, Packable ts → rest.length + 5 ≤ 65533 →
      MeasuresAs (.msgSaved (encDateTime ts ++ rest)) s (some ts) f auto id r b (0x03#8 :: (encDateTime ts ++ rest))

/-- R155 within R130: each range row decodes to its range, in a measurement of any kind under either tag. -/
def Obligations.RangeRowsDecode : Prop :=
  ∀ (s : State) (ts : Option DateTime) (f : HdrFlags) (auto : Byte) (code : Half) (id : ModeId) (b : WireBody)
    (tail : Bytes),
    let u : RangeUse := ⟨carrierOf ts, b.kind, f, auto, code, b.bytes ++ tail⟩
    b.Ok s.config f → MeasOk s ts code id (u.payload 0x00#8) →
    MeasuresAs (.rangeAuto u) s ts f auto id .auto b (u.payload 0x00#8) ∧
    MeasuresAs (.rangeStep1 u) s ts f auto id .step1 b (u.payload 0x01#8) ∧
    MeasuresAs (.rangeStep2 u) s ts f auto id .step2 b (u.payload 0x02#8) ∧
    MeasuresAs (.rangeStep3 u) s ts f auto id .step3 b (u.payload 0x03#8) ∧
    MeasuresAs (.rangeStep4 u) s ts f auto id .step4 b (u.payload 0x04#8) ∧
    MeasuresAs (.rangeStep5 u) s ts f auto id .step5 b (u.payload 0x05#8) ∧
    MeasuresAs (.rangeStep6 u) s ts f auto id .step6 b (u.payload 0x06#8) ∧
    MeasuresAs (.rangeStep7 u) s ts f auto id .step7 b (u.payload 0x07#8) ∧
    MeasuresAs (.rangeStep8 u) s ts f auto id .step8 b (u.payload 0x08#8)

/-- R130, R193 to R195, R203 (the spec's own order D24): in a measurement under either tag an unknown kind wins over an unknown
mode, which wins over an unknown range, which wins over anything in the body. -/
def Obligations.MeasurementHeaderErrorsInOrder : Prop :=
  ∀ (s : State) (ts : Option DateTime) (hdr auto rb : Byte) (code : Half) (rest : Bytes), PackableOpt ts →
    (hdr.toNat / 16 % 8 ∉ [0, 1, 2, 4] →
      let p := measPayload (carrierOf ts) hdr rest
      p.length ≤ 65533 → exec (.classify p) s = .next (afterError s p (.unknownMeasurementKind hdr))) ∧
    (hdr.toNat / 16 % 8 ∈ [0, 1, 2, 4] → tableGet s.config.modeTable code = none →
      let p := measPayload (carrierOf ts) hdr (auto :: (le16Bytes code ++ rest))
      p.length ≤ 65533 → exec (.classify p) s = .next (afterError s p (.unknownMeasurementMode code))) ∧
    (hdr.toNat / 16 % 8 ∈ [0, 1, 2, 4] → (tableGet s.config.modeTable code).isSome → 9 ≤ rb.toNat →
      let p := measPayload (carrierOf ts) hdr (auto :: (le16Bytes code ++ rb :: rest))
      p.length ≤ 65533 → exec (.classify p) s = .next (afterError s p (.unknownMeasurementRange rb)))

/-- R151, R157, R158, R133, R115, R196, R203 (the spec's own choices D17, D22, D24, D26): wherever a unit field stands, in a Value,
a fast value, a MinMax body or a RecordInfo, a unit that is not in the table fails with the string's raw bytes, whatever follows;
a Value or a fast value that is not all there fails with Truncated, even with such a unit. -/
def Obligations.UnknownUnitIsReported : Prop :=
  ∀ (cfg : Config) (field : Bytes), field.length = 8 → tableGet cfg.unitTable (cstr field) = none →
    (∀ pre post : Bytes, decUnitExp cfg (pre ++ field ++ post) pre.length = .error (.unknownMeasurementUnit (cstr field))) ∧
    (∀ (pre post : Bytes) (m : Word) (f : Byte),
      decValue13 cfg (pre ++ (le32Bytes m ++ f :: field) ++ post) pre.length =
        .error (.unknownMeasurementUnit (cstr field)) ∧
      ∀ n < 13, decValue13 cfg (pre ++ (le32Bytes m ++ f :: field).take n) pre.length =
        .error (.truncated (pre.length + 13) (pre.length + n))) ∧
    (cfg.fastUnitW = 8 → ∀ (pre post : Bytes) (m : Word),
      decFast cfg (pre ++ (le32Bytes m ++ field) ++ post) pre.length = .error (.unknownMeasurementUnit (cstr field)) ∧
      ∀ n < 12, decFast cfg (pre ++ (le32Bytes m ++ field).take n) pre.length =
        .error (.truncated (pre.length + 12) (pre.length + n))) ∧
    (∀ (pre post : Bytes) (base : Nat), pre.length = base + cfg.minMax.unit →
      decMinMax cfg (pre ++ field ++ post) base = .error (.unknownMeasurementUnit (cstr field))) ∧
    (cfg.recInfo = defaultRecInfo → ∀ name post : Bytes, name.length = 11 →
      recInfo cfg (0x04#8 :: (name ++ field ++ post)) = .error (.unknownMeasurementUnit (cstr field)))

/-- R135: a measurement shorter than its kind's minimum never decodes. -/
def Obligations.ShortMeasurementsNeverDecode : Prop :=
  ∀ (s : State) (c : Carrier) (f : HdrFlags) (rest : Bytes),
    (rest.length + 1 < 18 →
      ∃ e, exec (.measNormal c f rest) s = .next (afterError s (measPayload c (hdrByte .normal f) rest) e)) ∧
    (rest.length + 1 < 44 →
      ∃ e, exec (.measRelative c f rest) s = .next (afterError s (measPayload c (hdrByte .relative f) rest) e)) ∧
    (s.config.minMax = defaultMinMax → rest.length + 1 < 49 →
      ∃ e, exec (.measMinMax c f rest) s = .next (afterError s (measPayload c (hdrByte .minMax f) rest) e)) ∧
    (rest.length + 1 < 31 →
      ∃ e, exec (.measPeak c f rest) s = .next (afterError s (measPayload c (hdrByte .peak f) rest) e))

/-! ## Primitive codecs -/

/-- R150: the flags byte of every value, on all 256 values. -/
def Obligations.FlagsByteDecodes : Prop :=
  ∀ f : Byte,
    (overloadNeg f = true ↔ f.getLsbD 1 = true ∧ f.getLsbD 2 = false ∧ f.getLsbD 3 = false) ∧
    (overloadPos f = true ↔ f.getLsbD 0 = true) ∧ (precisionOf f).toNat = f.toNat / 16

/-- R160, R33: the six fields of a packed date/time are bit ranges of the little-endian number, and the error carries them;
four bytes that are not all there are Truncated (the spec's own choice D12). R161: the days of each month, 29 in February when the
year, 2000 to 2063, is a multiple of 4 (general knowledge, log 21). -/
def Obligations.DateTimeFieldsAreBitRanges : Prop :=
  (∀ (p : Bytes) (o : Nat) (b0 b1 b2 b3 : Byte) (pre post : Bytes), p = pre ++ [b0, b1, b2, b3] ++ post → pre.length = o →
    let w := b0.toNat + 256 * b1.toNat + 65536 * b2.toNat + 16777216 * b3.toNat
    let t : DateTime := ⟨2000 + w % 64, w / 64 % 16, w / 1024 % 32, w / 32768 % 32, w / 1048576 % 64, w / 67108864⟩
    (Packable t → decDateTime p o = .ok t) ∧ (¬ Packable t → decDateTime p o = .error (.invalidDateTime t))) ∧
  (∀ (p : Bytes) (o : Nat), p.length < o + 4 → decDateTime p o = .error (.truncated (o + 4) p.length)) ∧
  ∀ y : Nat, 2000 ≤ y → y ≤ 2063 →
    (∀ mo ∈ [1, 3, 5, 7, 8, 10, 12], daysIn y mo = 31) ∧ (∀ mo ∈ [4, 6, 9, 11], daysIn y mo = 30) ∧
    (y % 4 = 0 → daysIn y 2 = 29) ∧ (y % 4 ≠ 0 → daysIn y 2 = 28)

/-- R162: an encoded date/time is the four bytes of the number with its fields in place, and decodes to itself wherever it
stands. -/
def Obligations.DateTimeRoundTrips : Prop :=
  ∀ (t : DateTime) (pre post : Bytes), Packable t → ∃ b0 b1 b2 b3 : Byte, encDateTime t = [b0, b1, b2, b3] ∧
    b0.toNat + 256 * b1.toNat + 65536 * b2.toNat + 16777216 * b3.toNat =
      (t.year - 2000) + 64 * t.month + 1024 * t.day + 32768 * t.hour + 1048576 * t.minute + 67108864 * t.second ∧
    decDateTime (pre ++ encDateTime t ++ post) pre.length = .ok t

/-- R154: decoding and encoding a mode are inverse, for every table that meets its constraint. -/
def Obligations.ModeTableBothWays : Prop :=
  ∀ (cfg : Config), cfg.Ok → ∀ (code : Half) (id : ModeId), decMode cfg code = .ok id ↔ encMode cfg id = some code

/-- R155: 0x00 is Auto, 0x01 to 0x08 are Step1 to Step8, and no other byte is a range; EncRange is the reverse map. -/
def Obligations.RangeByteDecodes : Prop :=
  (∀ b : Byte, (∀ r, decRange b = .ok r ↔ encRange r = b) ∧
    (9 ≤ b.toNat → decRange b = .error (.unknownMeasurementRange b)) ∧ (b.toNat < 9 → ∃ r, decRange b = .ok r)) ∧
  encRange .auto = 0x00#8 ∧ encRange .step1 = 0x01#8 ∧ encRange .step2 = 0x02#8 ∧ encRange .step3 = 0x03#8 ∧
  encRange .step4 = 0x04#8 ∧ encRange .step5 = 0x05#8 ∧ encRange .step6 = 0x06#8 ∧ encRange .step7 = 0x07#8 ∧
  encRange .step8 = 0x08#8

/-- R156: the string of a field of `w` bytes at `o` ends at its first 0x00, or is the whole field (the spec's own choice
D16). -/
def Obligations.CStrEndsAtFirstNul : Prop :=
  ∀ (s : Bytes) (o w : Nat), o + w ≤ s.length →
    (∀ z < w, s[o + z]? = some 0x00#8 → (∀ i < z, s[o + i]? ≠ some 0x00#8) → cstr (slice s o w) = slice s o z) ∧
    ((∀ i < w, s[o + i]? ≠ some 0x00#8) → cstr (slice s o w) = slice s o w)

/-! ## The whole machine -/

/-- The state after reset is good. -/
def Obligations.ResetStateIsGood : Prop := State.reset.Good

/-- Every step keeps a good state good (R10, R14 to R18). -/
def Obligations.StepKeepsGoodStates : Prop := ∀ s t : State, s.Good → step s = .next t → t.Good

/-- R14: which registers a host can read after an operation, by its STATUS, in a good state. -/
def Obligations.StatusDecidesValidRegisters : Prop :=
  ∀ s : State, s.Good →
    let valid (r : ResultReg) : Prop := ∃ v, s.readResult r = .ok v
    valid .status ∧
    (valid .payload ↔ s.results.status = .foundMsg ∨ s.results.status = .foundErr) ∧
    (valid .plen ↔ valid .payload) ∧
    (valid .msg ↔ s.results.status = .foundMsg) ∧
    (valid .errCode ↔ s.results.status = .foundErr ∨ s.results.status = .refused) ∧
    (valid .errInfo ↔ valid .errCode) ∧
    (valid .consumed → s.results.status = .foundMsg ∨ s.results.status = .foundErr) ∧
    (valid .csumOut → s.results.status = .done) ∧
    (valid .txbuf → s.results.status = .done) ∧ (valid .txlen ↔ valid .txbuf)

/-- R25: no operation changes the configuration. None touches the operations the host has issued, which is the model's own field
(log 1, DESIGN CHOICE). -/
def Obligations.NoOperationChangesTheConfiguration : Prop :=
  ∀ (i : Instr) (s t : State), exec i s = .next t → t.config = s.config ∧ t.requests = s.requests

/-- R232, R199: every operation ends with a next state; the one exception is a host's `DROP CONSUMED` with CONSUMED
invalid. -/
def Obligations.EveryOperationEnds : Prop :=
  ∀ (i : Instr) (s : State), (i = .drop .consumed → s.results.consumed ≠ none) → ∃ t, exec i s = .next t

/-- R204: errors are precise. A refusal changes STATUS, ERRCODE and ERRINFO and makes the other result registers invalid; a
decode error writes STATUS, ERRCODE, ERRINFO, PAYLOAD and perhaps CONSUMED, and no MSG; nothing else changes but the working
registers of a SCAN, and the bytes that FRAME has pushed before it scans (log 3). -/
def Obligations.ErrorsChangeOnlyTheResults : Prop :=
  ∀ (i : Instr) (s t : State), exec i s = .next t →
    (t.results.status = .refused → ∃ e : OpRefusal, t = afterRefusal s e) ∧
    (t.results.status = .foundErr → ∃ (p : Bytes) (c : Option Nat) (e : DecodeError),
      t = { s with acc := t.acc, lenr := t.lenr, scanoff := t.scanoff, rxbuf := t.rxbuf,
                   results := { status := .foundErr, payload := some p, consumed := c, errCode := some e.code,
                                errInfo := some e.info } } ∧
      ((∃ l r, i = .frame l r ∧ t.rxbuf = s.rxbuf ++ frameBytes l r) ∨ t.rxbuf = s.rxbuf))

/-- R14: the STATUS codes that each host operation sets. -/
def Obligations.OperationsSetTheirStatusCodes : Prop :=
  ∀ (s t : State) (b : Bytes) (k : DropCount),
    (exec .reset s = .next t → t.results.status.num = 0) ∧
    (exec (.push b) s = .next t → t.results.status.num = 1 ∨ t.results.status.num = 5) ∧
    (exec (.drop k) s = .next t → t.results.status.num = 1 ∨ t.results.status.num = 5) ∧
    (exec (.csum b) s = .next t → t.results.status.num = 1 ∨ t.results.status.num = 5) ∧
    (exec (.build b) s = .next t → t.results.status.num = 1 ∨ t.results.status.num = 5) ∧
    (exec (.classify b) s = .next t →
      t.results.status.num = 2 ∨ t.results.status.num = 3 ∨ t.results.status.num = 5) ∧
    (exec .scan s = .next t → t.results.status.num = 2 ∨ t.results.status.num = 3 ∨ t.results.status.num = 4)

/-- R190, the whole table (the numbers are the spec's own choice D25; what an unknown kind and an unknown unit record, D26; the
class of refusals and Truncated, D3, D5, D9, D12, D30): for each of the twelve errors its ERRCODE, the number of that code, and
what ERRINFO holds. No two codes share a number. After an error the host reads its code and its diagnostic. -/
def Obligations.ErrorCodesAreNumbered : Prop :=
  let fails (e : DecodeError) (c : ErrCode) (n : Nat) (i : ErrInfo) : Prop := e.code = c ∧ c.num = n ∧ e.info = i
  let refuses (e : OpRefusal) (c : ErrCode) (n : Nat) (i : ErrInfo) : Prop := e.code = c ∧ c.num = n ∧ e.info = i
  (∀ code : Half, fails (.unknownReplyCode code) .unknownReplyCode 1 (.code code)) ∧
  (∀ tag : Byte, fails (.unknownMessageFormat tag) .unknownMessageFormat 2 (.byte tag)) ∧
  (∀ hdr : Byte, fails (.unknownMeasurementKind hdr) .unknownMeasurementKind 3 (.byte hdr)) ∧
  (∀ code : Half, fails (.unknownMeasurementMode code) .unknownMeasurementMode 4 (.code code)) ∧
  (∀ b : Byte, fails (.unknownMeasurementRange b) .unknownMeasurementRange 5 (.byte b)) ∧
  (∀ str : Bytes, fails (.unknownMeasurementUnit str) .unknownMeasurementUnit 6 (.bytes str)) ∧
  (∀ y mo d h mi sec : Nat,
    fails (.invalidDateTime ⟨y, mo, d, h, mi, sec⟩) .invalidDateTime 7 (.dateTime ⟨y, mo, d, h, mi, sec⟩)) ∧
  (∀ needed present : Nat, fails (.truncated needed present) .truncated 8 (.pair needed present)) ∧
  (∀ rxlen k : Nat, refuses (.bufOverflow rxlen k) .bufOverflow 9 (.pair rxlen k)) ∧
  (∀ k rxlen : Nat, refuses (.badDrop k rxlen) .badDrop 10 (.pair k rxlen)) ∧
  (∀ n : Nat, refuses (.payloadTooLong n) .payloadTooLong 11 (.number n)) ∧
  (∀ op : BitVec 4, refuses (.badOp op) .badOp 12 (.op op)) ∧
  (∀ a b : ErrCode, a.num = b.num → a = b) ∧
  (∀ (s : State) (p : Bytes) (e : DecodeError), (afterError s p e).readResult .errCode = .ok (.errCode e.code) ∧
    (afterError s p e).readResult .errInfo = .ok (.errInfo e.info)) ∧
  ∀ (s : State) (e : OpRefusal), (afterRefusal s e).readResult .errCode = .ok (.errCode e.code) ∧
    (afterRefusal s e).readResult .errInfo = .ok (.errInfo e.info)

/-- R39 (log 1): a step performs the oldest operation issued, decoded, on the state without it. -/
def Obligations.StepRunsTheOldestOperation : Prop :=
  ∀ (s : State) (r : Request) (rest : List Request) (i : Instr), s.requests = r :: rest → decode r = .ok i →
    step s = exec i { s with requests := rest }

/-- 30_encoding.md section 5 (R71) and R73, for what is of no row of its format (log 13, read from those rules): bytes that are
no frame are pushed and scanned, a payload is classified, a request is framed. An unknown tag, kind and range byte give R71's
decode error, and an unassigned request tag is framed. -/
def Obligations.IllegalValuesTakeTheirEffect : Prop :=
  ∀ (s : State) (r : Request) (issued : List Request), s.requests = r :: issued →
    let s' := { s with requests := issued }
    (∀ why b, decode r = .error (.stream why b) → r = .frame b ∧
      ((∀ cap, s.config.rxCap = some cap → s.rxbuf.length + b.length ≤ cap) →
        step s = exec .scan { s' with rxbuf := s.rxbuf ++ b, results := { status := .done } }) ∧
      (∀ cap, s.config.rxCap = some cap → cap < s.rxbuf.length + b.length →
        step s = .next (afterRefusal s' (.bufOverflow s.rxbuf.length b.length)))) ∧
    (∀ why p, decode r = .error (.payload why p) →
      (r = .msg p ∨ r = .replyCode p ∨ r = .meas p ∨ r = .range p) ∧ step s = exec (.classify p) s') ∧
    (∀ why p, decode r = .error (.request why p) → r = .req p ∧ step s = exec (.build p) s') ∧
    (∀ (tag : Byte) (rest : Bytes), r = .msg (tag :: rest) → (tag :: rest).length ≤ 65533 →
      tag ∉ [0x01#8, 0x02#8, 0x03#8, 0x04#8, 0x05#8, 0x72#8] →
      step s = .next (afterError s' (tag :: rest) (.unknownMessageFormat tag))) ∧
    (∀ (hdr : Byte) (rest : Bytes), r = .meas (0x02#8 :: hdr :: rest) → (0x02#8 :: hdr :: rest).length ≤ 65533 →
      hdr.toNat / 16 % 8 ∉ [0, 1, 2, 4] →
      step s = .next (afterError s' (0x02#8 :: hdr :: rest) (.unknownMeasurementKind hdr))) ∧
    (∀ (hdr auto rb : Byte) (code : Half) (rest : Bytes),
      let p := 0x02#8 :: hdr :: auto :: (le16Bytes code ++ rb :: rest)
      r = .range p → p.length ≤ 65533 → hdr.toNat / 16 % 8 ∈ [0, 1, 2, 4] → (tableGet s.config.modeTable code).isSome →
      9 ≤ rb.toNat → step s = .next (afterError s' p (.unknownMeasurementRange rb))) ∧
    (∀ (tag : Byte) (o : Bytes), r = .req (tag :: o) → tag.toNat ∉ [1, 2, 3, 4, 5, 6, 7, 8, 9, 10, 11, 12, 13, 14, 18] →
      step s = exec (.build (tag :: o)) s')

/-! ## Encoding -/

/-- R51, R52, R59, R73: some codes, written out from the tables. -/
def Obligations.CodesDecodeToTheirRows : Prop :=
  decode (.hostop (.select 0x0#4 ⟨[], .count 0⟩)) = .ok .reset ∧
  decode (.hostop (.select 0x1#4 ⟨[0xAB#8], .count 0⟩)) = .ok (.push [0xAB#8]) ∧
  decode (.hostop (.select 0x3#4 ⟨[], .consumed⟩)) = .ok (.drop .consumed) ∧
  decode (.hostop (.select 0xF#4 ⟨[], .count 0⟩)) = .ok (.hostopReserved 8 ⟨[], .count 0⟩) ∧
  decode (.frame [0xAB#8, 0xCD#8, 0x02#8, 0x00#8, 0x04#8, 0x00#8]) = .ok (.frame 2#16 [0x04#8, 0x00#8]) ∧
  decode (.msg [0x72#8, 0x03#8, 0x00#8]) = .ok (.msgReply [0x03#8, 0x00#8]) ∧
  decode (.replyCode [0x01#8, 0x45#8, 0x52#8]) = .ok (.replyDeviceError []) ∧
  decode (.meas [0x02#8, 0xC8#8]) = .ok (.measPeak .live ⟨true, true, false, false, false⟩ []) ∧
  decode (.range [0x02#8, 0x10#8, 0x01#8, 0x11#8, 0x31#8, 0x08#8]) =
    .ok (.rangeStep8 ⟨.live, .relative, ⟨false, false, false, false, false⟩, 0x01#8, 0x3111#16, []⟩) ∧
  decode (.req [0x12#8, 0x5A#8]) = .ok (.reqHold [0x5A#8])

/-- Decode inverts encode on every well-formed instruction, with every operand at every value. -/
def Obligations.DecodeInvertsEncode : Prop := ∀ i : Instr, Laws.RoundTrip.Statement i

/-- Encode inverts decode: what is presented has one meaning, and no bit of it is dropped. A host operation is the one its select
code names (R51), and every host operation has a select code. -/
def Obligations.EncodeInvertsDecode : Prop :=
  (∀ (r : Request) (i : Instr), decode r = .ok i → encode i = r) ∧
  (∀ (op : BitVec 4) (x : Operand), (HostOp.select op x).code = op) ∧
  ∀ h : HostOp, ∃ x : Operand, HostOp.select h.code x = h

/-! ## The host's loop -/

/-- R171, R172: when read_message returns a message, the block has performed DROP CONSUMED: no result register of the SCAN is
left and the buffer is the unconsumed remainder (log 15). Stated for a transport that need not be read. -/
def Obligations.ReadMessageCompactsTheBuffer : Prop :=
  ∀ (h : Session) (t : State) (m : Message) (c : Nat), exec .scan h.block = .next t → t.results.msg = some m →
    t.results.consumed = some c → c ≤ h.block.rxbuf.length →
    readMessage h = (.ok m, { h with block := { t with rxbuf := h.block.rxbuf.drop c, results := { status := .done } } })

/-- R172: WaitTimeout comes at, not before, the deadline of 5000 ms from the call; so too of a wait for a reply and of
get_record_data, whose deadlines are armed later. R174, R175: nothing ends a wait for a reply but an error of read_message, a
DeviceError and an accepted message; any other message is discarded and read_message called again. R176: batches are requested
until an empty one, and concatenated in order. All of the host as modelled (log 15). -/
def Obligations.WaitTimeoutNotBeforeTheDeadline : Prop :=
  (∀ h h' : Session, readMessage h = (.error .waitTimeout, h') → h.now + 5000 ≤ h'.now) ∧
  (∀ (accept : Message → Bool) (h h' : Session), awaitReply accept h = (.error .waitTimeout, h') → h.now + 5000 ≤ h'.now) ∧
  (∀ (request : Nat → Bytes) (advance : Nat → Nat → Nat) (cursor : Nat) (h h' : Session),
    getRecordData request advance cursor h = (.error .waitTimeout, h') → h.now + 5000 ≤ h'.now) ∧
  (∀ (accept : Message → Bool) (h h' : Session),
    (∀ e, readMessage h = (.error e, h') → awaitReply accept h = (.error e, h')) ∧
    (readMessage h = (.ok .deviceError, h') → awaitReply accept h = (.error .commandError, h')) ∧
    ∀ m, readMessage h = (.ok m, h') → m ≠ .deviceError →
      awaitReply accept h = if accept m then (.ok m, h') else awaitReply accept h') ∧
  ∀ (request : Nat → Bytes) (advance : Nat → Nat → Nat) (cursor : Nat) (h h' : Session),
    let ask := command (0x0D#8 :: request cursor) (fun m => (batchItems m).isSome) h
    (∀ e, ask = (.error e, h') → getRecordData request advance cursor h = (.error e, h')) ∧
    (ask = (.ok (.recordDataBatch []), h') → getRecordData request advance cursor h = (.ok [], h')) ∧
    ∀ (items : List RecordDataItem), items ≠ [] → ask = (.ok (.recordDataBatch items), h') →
      (∀ all h'', getRecordData request advance (advance cursor items.length) h' = (.ok all, h'') →
        getRecordData request advance cursor h = (.ok (items ++ all), h'')) ∧
      ∀ e h'', getRecordData request advance (advance cursor items.length) h' = (.error e, h'') →
        getRecordData request advance cursor h = (.error e, h'')

/-- R173 (the spec's open parameter D11, log 15): after a decode error read_message fails with it, and drops the frame exactly
when HOST_DROPS_ON_DECODE_ERROR says so; where it does not, the next read_message fails in the same way. -/
def Obligations.DecodeErrorFollowsTheHostPolicy : Prop :=
  ∀ (h : Session) (t : State) (c : ErrCode) (i : ErrInfo) (n : Nat), exec .scan h.block = .next t →
    t.results.status = .foundErr → t.results.errCode = some c → t.results.errInfo = some i →
    t.results.msg = none → t.results.consumed = some n → n ≤ h.block.rxbuf.length →
    ∃ h', readMessage h = (.error (.block c i), h') ∧
      (h.block.config.hostDrops = true → h'.block.rxbuf = h.block.rxbuf.drop n) ∧
      (h.block.config.hostDrops = false → h'.block.rxbuf = h.block.rxbuf ∧
        ∃ h'', readMessage h' = (.error (.block c i), h''))
end

