-- ==== Sys2Proof/Laws/Codec.lean ====
section
/-! SUPPORT. The checksum as a number, and the frame BUILD makes. -/

namespace Sys2Proof.Machine

theorem addBytes_toNat (p : Bytes) (acc : Half) :
    (addBytes acc p).toNat = (acc.toNat + (p.map BitVec.toNat).sum) % 65536 := by
  induction p generalizing acc with
  | nil => simp [addBytes]; omega
  | cons b t ih =>
    have hb := b.isLt
    have h := ih (acc + b.setWidth 16)
    simp only [addBytes] at h
    simp only [addBytes, List.foldl_cons, h, BitVec.toNat_add, BitVec.toNat_setWidth, List.map_cons, List.sum_cons]
    omega

theorem seed_toNat (len : Half) : (seed len).toNat = 2 + len.toNat % 256 + len.toNat / 256 := by
  have h := len.isLt
  have m := Nat.and_two_pow_sub_one_eq_mod len.toNat 8
  norm_num at m
  simp only [seed, csumBias, BitVec.toNat_add, BitVec.toNat_and, BitVec.toNat_ushiftRight, BitVec.toNat_ofNat,
    Nat.shiftRight_eq_div_pow]
  norm_num
  rw [m]
  omega

theorem lenField_toNat {n : Nat} (h : n ≤ 65533) : (lenField n).toNat = n + 2 := by
  simp only [lenField, BitVec.toNat_ofNat]
  omega

/-- The checksum of a payload is the closed formula of R83. -/
theorem checksum_toNat {p : Bytes} (h : p.length ≤ 65533) : (checksum p).toNat = sumFormula p := by
  simp only [checksum, addBytes_toNat, seed_toNat, lenField_toNat h, sumFormula]

/-- The sum of a candidate, seeded with its own length field, is the closed formula. -/
theorem candidate_sum {p : Bytes} {len : Half} (h : len.toNat = p.length + 2) :
    (addBytes (seed len) p).toNat = sumFormula p := by
  simp only [addBytes_toNat, seed_toNat, h, sumFormula]

theorem sumFormula_lt (p : Bytes) : sumFormula p < 65536 := Nat.mod_lt _ (by norm_num)

@[simp] theorem length_frameOf (p : Bytes) : (frameOf p).length = p.length + 6 := by
  simp [frameOf]; omega

/-- What an operation on a payload that fits does, for CSUM. -/
theorem csum_fits {s : State} {p : Bytes} (h : p.length ≤ 65533) :
    s.csum p = (s.withChecksumOf p).finish { status := .done, csumOut := some (checksum p) } := by
  simp [State.csum, maxPayload, Nat.not_lt.mpr h]

theorem csum_long {s : State} {p : Bytes} (h : 65533 < p.length) : s.csum p = s.refuse (.payloadTooLong p.length) := by
  simp [State.csum, maxPayload, h]

theorem build_fits {s : State} {p : Bytes} (h : p.length ≤ 65533) :
    s.build p = (s.withChecksumOf p).finish { status := .done, txbuf := some (frameOf p) } := by
  simp [State.build, maxPayload, Nat.not_lt.mpr h]

theorem build_long {s : State} {p : Bytes} (h : 65533 < p.length) : s.build p = s.refuse (.payloadTooLong p.length) := by
  simp [State.build, maxPayload, h]

end Sys2Proof.Machine
end

