-- ==== Sys2Proof/Laws/Decoders.lean ====
section
/-! SUPPORT. What every decoder of a payload has in common: bytes that follow do not change what it decoded
(42_message_classifier.md R119), and a Truncated error names the payload's length and a greater one (60_exceptions.md R197). -/

namespace Sys2Proof.Machine

/-- The two common properties of a decoder. -/
structure Reader {α : Type} (d : Bytes → Except DecodeError α) : Prop where
  extend : ∀ p x v, d p = .ok v → d (p ++ x) = .ok v
  short : ∀ p n h, d p = .error (.truncated n h) → h = p.length ∧ p.length < n

namespace Reader

variable {α β : Type}

theorem field (o n : Nat) : Reader (field · o n) where
  extend p x v h := by
    rcases field_cases p o n with ⟨hl, e⟩ | ⟨hl, e⟩ <;> simp only [e] at h <;> cases h
    rw [field_ok (by simp; omega), slice_append_left hl]
  short p m k h := by
    rcases field_cases p o n with ⟨hl, e⟩ | ⟨hl, e⟩ <;> simp only [e] at h <;> cases h
    exact ⟨rfl, hl⟩

theorem need (o n : Nat) : Reader (need · o n) where
  extend p x v h := by
    by_cases hl : o + n ≤ p.length
    · exact need_ok (by simp; omega)
    · simp [Machine.need, hl] at h
  short p m k h := by
    by_cases hl : o + n ≤ p.length <;> simp [Machine.need, hl] at h
    omega

theorem ok (a : α) : Reader (fun _ => .ok a) := ⟨fun _ _ _ h => h, fun _ _ _ h => by cases h⟩

theorem error (e : DecodeError) (he : ∀ n h, e ≠ .truncated n h) : Reader (α := α) (fun _ => .error e) :=
  ⟨fun _ _ _ h => (by cases h), fun _ n k h => (by cases h; exact absurd rfl (he n k))⟩

theorem bind {d : Bytes → Except DecodeError α} {g : Bytes → α → Except DecodeError β} (hd : Reader d)
    (hg : ∀ a, Reader (g · a)) : Reader (fun p => d p >>= g p) where
  extend p x v h := by
    cases hp : d p with
    | error e => simp only [hp] at h; cases h
    | ok a =>
      simp only [hp] at h
      simp only [hd.extend p x a hp]
      exact (hg a).extend p x v h
  short p n k h := by
    cases hp : d p with
    | error e => simp only [hp] at h; cases h; exact hd.short p n k hp
    | ok a => simp only [hp] at h; exact (hg a).short p n k h

theorem readByte (o : Nat) : Reader (readByte · o) := .bind (.field _ _) fun _ => .ok _
theorem readLE16 (o : Nat) : Reader (readLE16 · o) := .bind (.field _ _) fun _ => .ok _
theorem readLE32 (o : Nat) : Reader (readLE32 · o) := .bind (.field _ _) fun _ => .ok _
theorem readNat (o w : Nat) : Reader (readNat · o w) := .bind (.field _ _) fun _ => .ok _

theorem decUnitExp (cfg : Config) (o : Nat) : Reader (decUnitExp cfg · o) := .bind (.field _ _) fun a => by
  split
  · exact .ok _
  · exact .error _ (by simp)

theorem decValue13 (cfg : Config) (o : Nat) : Reader (decValue13 cfg · o) :=
  .bind (.need _ _) fun _ => .bind (.readLE32 _) fun _ => .bind (.readByte _) fun _ => .bind (.decUnitExp _ _) fun _ => .ok _

theorem decValue5 (o : Nat) : Reader (decValue5 · o) :=
  .bind (.need _ _) fun _ => .bind (.readLE32 _) fun _ => .bind (.readByte _) fun _ => .ok _

theorem decFast (cfg : Config) (o : Nat) : Reader (decFast cfg · o) :=
  .bind (.need _ _) fun _ => .bind (.readLE32 _) fun _ => .bind (.decUnitExp _ _) fun _ => .ok _

theorem decDateTime (o : Nat) : Reader (decDateTime · o) :=
  .bind (.need _ _) fun _ => .bind (.readByte _) fun _ => .bind (.readByte _) fun _ => .bind (.readByte _) fun _ =>
    .bind (.readByte _) fun _ => by
      simp only
      split
      · exact .ok _
      · exact .error _ (by simp)

theorem optField (b : Bool) (o w : Nat) {d : Bytes → Nat → Except DecodeError α} (hd : ∀ o, Reader (d · o)) :
    Reader (fun p => optField b o w (d p)) := by
  cases b
  · exact .ok _
  · exact .bind (hd o) fun _ => .ok _

theorem decNormal (cfg : Config) (b : Nat) (f : HdrFlags) : Reader (decNormal cfg · b f) :=
  .bind (.decValue13 _ _) fun _ => .bind (.optField _ _ _ (.decValue13 cfg)) fun _ =>
    .bind (.optField _ _ _ (.decValue13 cfg)) fun _ => .bind (.optField _ _ _ (.decFast cfg)) fun _ => .ok _

theorem decRelative (cfg : Config) (b : Nat) (f : HdrFlags) : Reader (decRelative cfg · b f) :=
  .bind (.decValue13 _ _) fun _ => .bind (.decValue13 _ _) fun _ => .bind (.decValue13 _ _) fun _ =>
    .bind (.optField _ _ _ (.decFast cfg)) fun _ => .ok _

theorem decTimed (o : Nat) : Reader (decTimed · o) := .bind (.decValue5 _) fun _ => .bind (.readLE32 _) fun _ => .ok _

theorem decMinMax (cfg : Config) (b : Nat) : Reader (decMinMax cfg · b) :=
  .bind (.decUnitExp _ _) fun _ => .bind (.decTimed _) fun _ => .bind (.decTimed _) fun _ => .bind (.decTimed _) fun _ =>
    .bind (.decTimed _) fun _ => .ok _

theorem decPeak (cfg : Config) (b : Nat) : Reader (decPeak cfg · b) :=
  .bind (.decValue13 _ _) fun _ => .bind (.decValue13 _ _) fun _ => .ok _

theorem decBody (cfg : Config) (b : Nat) (f : HdrFlags) (k : Kind) : Reader (decBody cfg · b f k) := by
  cases k
  · exact .decNormal cfg b f
  · exact .decRelative cfg b f
  · exact .decMinMax cfg b
  · exact .decPeak cfg b

theorem decMode (cfg : Config) (code : Half) : Reader (fun _ => decMode cfg code) := by
  simp only [Machine.decMode]
  split
  · exact .ok _
  · exact .error _ (by simp)

theorem decRange (b : Byte) : Reader (fun _ => decRange b) := by
  simp only [Machine.decRange]
  split <;> first | exact .ok _ | exact .error _ (by simp)

theorem decMeas (cfg : Config) (b : Nat) : Reader (decMeas cfg · b) := .bind (.readByte _) fun hdr => by
  split
  · exact .error _ (by simp)
  · exact .bind (.readByte _) fun _ => .bind (.readLE16 _) fun _ => .bind (.decMode _ _) fun _ =>
      .bind (.readByte _) fun _ => .bind (.decRange _) fun _ => .bind (.decBody _ _ _ _) fun _ => .ok _

theorem replyCode : Reader replyCode := .bind (.readLE16 _) fun _ => by
  split <;> first | exact .ok _ | exact .error _ (by simp)

theorem meas (cfg : Config) : Reader (meas cfg) := .bind (.decMeas _ _) fun _ => .ok _

theorem saved (cfg : Config) : Reader (saved cfg) :=
  .bind (.decDateTime _) fun _ => .bind (.decMeas _ _) fun _ => .ok _

theorem readAt {d : Bytes → Nat → Except DecodeError α} (hd : ∀ o, Reader (d · o)) (l : LayoutField) :
    Reader (readAt d · l) := .bind (.need _ _) fun _ => hd _

theorem recInfo (cfg : Config) : Reader (recInfo cfg) :=
  .bind (.field _ _) fun _ => .bind (.readAt (decUnitExp cfg) _) fun _ => .bind (.readNat _ _) fun _ =>
    .bind (.readNat _ _) fun _ => .bind (.readNat _ _) fun _ => .bind (.readAt decValue5 _) fun _ =>
      .bind (.readAt decValue5 _) fun _ => .bind (.readAt decValue5 _) fun _ => .bind (.readAt decDateTime _) fun _ => .ok _

theorem decItem (o : Nat) : Reader (decItem · o) := .bind (.decValue5 _) fun _ => .bind (.decDateTime _) fun _ => .ok _

theorem decItems (n : Nat) : ∀ o, Reader (decItems · o n) := by
  induction n with
  | zero => exact fun _ => .ok _
  | succ n ih => exact fun o => .bind (.decItem _) fun _ => .bind (ih _) fun _ => .ok _

theorem recData : Reader recData := .bind (.readByte _) fun _ => .bind (.decItems _ _) fun _ => .ok _

end Reader

end Sys2Proof.Machine
end

