-- ==== Sys2Proof/Laws/Ops.lean ====
section
/-! SUPPORT. The receive buffer: what PUSH and DROP do, and RXBUF as a memory of (address, byte) pairs. -/

namespace Sys2Proof.Machine

/-! ## PUSH and DROP -/

theorem pushFits_iff {s : State} {k : Nat} :
    s.pushFits k = true ↔ ∀ cap, s.config.rxCap = some cap → s.rxbuf.length + k ≤ cap := by
  unfold State.pushFits
  split <;> simp_all

theorem push_fits {s : State} {b : Bytes} (h : s.pushFits b.length = true) :
    s.push b = { s with rxbuf := s.rxbuf ++ b, results := { status := .done } } := by
  simp [State.push, h, State.finishDone, State.finish]

theorem push_refused {s : State} {b : Bytes} (h : s.pushFits b.length = false) :
    s.push b = afterRefusal s (.bufOverflow s.rxbuf.length b.length) := by
  simp [State.push, h, State.refuse, State.finish, afterRefusal, State.rxlen]

theorem drop_fits {s : State} {k : Nat} (h : k ≤ s.rxbuf.length) :
    s.drop k = { s with rxbuf := s.rxbuf.drop k, results := { status := .done } } := by
  simp [State.drop, State.rxlen, Nat.not_lt.mpr h, State.finishDone, State.finish]

theorem drop_refused {s : State} {k : Nat} (h : s.rxbuf.length < k) :
    s.drop k = afterRefusal s (.badDrop k s.rxbuf.length) := by
  simp [State.drop, State.rxlen, h, State.refuse, State.finish, afterRefusal]

/-- Everything a PUSH can do (R90). -/
theorem push_cases (s : State) (b : Bytes) :
    (s.pushFits b.length = true ∧ s.push b = { s with rxbuf := s.rxbuf ++ b, results := { status := .done } }) ∨
      (s.pushFits b.length = false ∧ s.push b = afterRefusal s (.bufOverflow s.rxbuf.length b.length)) := by
  cases h : s.pushFits b.length
  · exact .inr ⟨rfl, push_refused h⟩
  · exact .inl ⟨rfl, push_fits h⟩

/-- Everything a DROP can do (R100). -/
theorem drop_cases (s : State) (k : Nat) :
    (k ≤ s.rxbuf.length ∧ s.drop k = { s with rxbuf := s.rxbuf.drop k, results := { status := .done } }) ∨
      (s.rxbuf.length < k ∧ s.drop k = afterRefusal s (.badDrop k s.rxbuf.length)) := by
  rcases Nat.lt_or_ge s.rxbuf.length k with h | h
  · exact .inr ⟨h, drop_refused h⟩
  · exact .inl ⟨h, drop_fits h⟩

/-! ## RXBUF as a memory -/

/-- The pairs of RXBUF are in canonical form in every state, so every operation keeps it: RXBUF is the byte sequence itself,
and the pairs are computed from it. -/
theorem rxCells_wf (s : State) : Memory.wf s.rxCells := by
  have h : s.rxCells.map (·.1) = List.range s.rxbuf.length := by
    rw [List.range_eq_range', ← List.zipIdx_map_snd 0 s.rxbuf, State.rxCells, List.map_map]
    rfl
  rw [Memory.wf, h]
  exact List.pairwise_lt_range

theorem push_wf (s : State) (b : Bytes) : Memory.wf (s.push b).rxCells := rxCells_wf _

theorem drop_wf (s : State) (k : Nat) : Memory.wf (s.drop k).rxCells := rxCells_wf _

theorem reset_wf : Memory.wf State.reset.rxCells := rxCells_wf _

theorem reset_rxCells : State.reset.rxCells = [] := rfl

/-- A pair of RXBUF is an offset and the byte read there. -/
theorem mem_rxCells {s : State} {a : Nat} {v : Byte} : (a, v) ∈ s.rxCells ↔ s.rxRead a = some v := by
  simp only [State.rxCells, State.rxRead, List.mem_map, Prod.mk.injEq, Prod.exists]
  constructor
  · rintro ⟨x, i, h, rfl, rfl⟩; exact List.mem_zipIdx_iff_getElem?.mp h
  · exact fun h => ⟨v, a, List.mem_zipIdx_iff_getElem?.mpr h, rfl, rfl⟩

/-- A byte already in RXBUF reads the same after a PUSH. -/
theorem rxRead_push {s : State} {b : Bytes} {a : Nat} (h : a < s.rxlen) : (s.push b).rxRead a = s.rxRead a := by
  have h' : a < s.rxbuf.length := h
  rcases push_cases s b with ⟨-, e⟩ | ⟨-, e⟩ <;> rw [e]
  · simp [State.rxRead, List.getElem?_append_left h']
  · rfl

/-- The pushed bytes read at the end. -/
theorem rxRead_push_new {s : State} {b : Bytes} {i : Nat} (h : s.pushFits b.length = true) :
    (s.push b).rxRead (s.rxlen + i) = b[i]? := by
  rw [push_fits h]
  simp only [State.rxRead, State.rxlen]
  rw [List.getElem?_append_right (by omega), Nat.add_sub_cancel_left]

/-- After a DROP that is performed, the byte formerly at `k + i` reads at `i`. -/
theorem rxRead_drop {s : State} {k i : Nat} (h : k ≤ s.rxbuf.length) : (s.drop k).rxRead i = s.rxRead (k + i) := by
  rw [drop_fits h]
  simp [State.rxRead]

end Sys2Proof.Machine
end

