-- ==== Sys2Proof/Laws/Scanner.lean ====
section
/-! SUPPORT. The scanner: what the marker search gives, what the passes of a SCAN decide (41_frame_scanner.md R98), and what a
SCAN writes. -/

namespace Sys2Proof.Machine

/-! ## Marker search -/

theorem IsMarker.lt {b : Bytes} {m : Nat} (h : IsMarker b m) : m + 1 < b.length := by
  have := h.2
  exact (List.getElem?_eq_some_iff.mp this).1

theorem markerIn_cases (b : Bytes) :
    (∃ m, markerIn b = some m ∧ IsMarker b m ∧ ∀ m' < m, ¬ IsMarker b m') ∨
      (markerIn b = none ∧ ∀ m, ¬ IsMarker b m) := by
  induction b with
  | nil => exact .inr ⟨rfl, by simp [IsMarker]⟩
  | cons x t ih =>
    cases t with
    | nil => exact .inr ⟨rfl, fun m h => by have := h.lt; simp at this⟩
    | cons y t =>
      by_cases hm : x = marker0 ∧ y = marker1
      · refine .inl ⟨0, by simp [markerIn, hm], ?_, by simp⟩
        simp [IsMarker, hm, marker0, marker1]
      · have h0 : ¬ IsMarker (x :: y :: t) 0 := by simpa [IsMarker, marker0, marker1] using hm
        have up (m : Nat) : IsMarker (x :: y :: t) (m + 1) ↔ IsMarker (y :: t) m := by
          simp [IsMarker]
        rcases ih with ⟨m, hf, hmk, hlt⟩ | ⟨hf, hno⟩
        · refine .inl ⟨m + 1, by simp [markerIn, hm, hf], (up m).mpr hmk, ?_⟩
          intro m' hm'
          cases m' with
          | zero => exact h0
          | succ k => exact fun h => hlt k (by omega) ((up k).mp h)
        · refine .inr ⟨by simp [markerIn, hm, hf], ?_⟩
          intro m
          cases m with
          | zero => exact h0
          | succ k => exact fun h => hno k ((up k).mp h)

theorem isMarker_drop {b : Bytes} {o m : Nat} : IsMarker (b.drop o) m ↔ IsMarker b (m + o) := by
  rw [show m + o = o + m by omega]
  simp [IsMarker, List.getElem?_drop, Nat.add_assoc]

/-- The search of R92: the least marker offset at or after `off`, or none. -/
theorem findMarker_cases (b : Bytes) (off : Nat) :
    (∃ m, findMarker b off = some m ∧ off ≤ m ∧ IsMarker b m ∧ ∀ m', off ≤ m' → m' < m → ¬ IsMarker b m') ∨
      (findMarker b off = none ∧ ∀ m, off ≤ m → ¬ IsMarker b m) := by
  rcases markerIn_cases (b.drop off) with ⟨m, hf, hmk, hlt⟩ | ⟨hf, hno⟩
  · refine .inl ⟨m + off, by simp [findMarker, hf], by omega, isMarker_drop.mp hmk, ?_⟩
    intro m' h1 h2 h
    exact hlt (m' - off) (by omega) (isMarker_drop.mpr (by rwa [Nat.sub_add_cancel h1]))
  · refine .inr ⟨by simp [findMarker, hf], ?_⟩
    intro m h1 h
    exact hno (m - off) (isMarker_drop.mpr (by rwa [Nat.sub_add_cancel h1]))

/-! ## The passes of a SCAN -/

theorem le16_lenAt {b : Bytes} {m : Nat} (h : m + 4 ≤ b.length) : (le16 (slice b (m + 2) 2)).toNat = lenAt b m :=
  le16_toNat (length_slice (by omega))

theorem lenAt_lt (b : Bytes) (m : Nat) : lenAt b m < 65536 := by
  have h := leNat_lt (slice b (m + 2) 2)
  have hl : (slice b (m + 2) 2).length ≤ 2 := by simp [slice]
  calc lenAt b m < 256 ^ (slice b (m + 2) 2).length := h
    _ ≤ 256 ^ 2 := Nat.pow_le_pow_right (by norm_num) hl

/-- What the search decides (R98). -/
inductive SearchResult (b : Bytes) : ScanEnd → Prop where
  | found (m : Nat) (len : Half) (h : Decides b m) (v : IsValid b m) (l : len.toNat = lenAt b m) :
      SearchResult b (.found m len)
  | short (m : Nat) (h : Decides b m) (v : IsShort b m) : SearchResult b .incomplete
  | none (h : ∀ m, IsMarker b m → IsFalse b m) : SearchResult b .incomplete

/-- Every pass of R92 to R97, from a SCANOFF below which every marker offset is *false*. -/
theorem scanLoop_result (b : Bytes) (fuel : Nat) (r : ScanRegs) (hfuel : b.length < fuel + r.scanoff)
    (hbelow : ∀ m < r.scanoff, IsMarker b m → IsFalse b m) : SearchResult b (scanLoop b fuel r).1 := by
  induction fuel generalizing r with
  | zero => exact .none fun m hm => hbelow m (by have := hm.lt; omega) hm
  | succ n ih =>
    rcases findMarker_cases b r.scanoff with ⟨m, hf, hle, hmk, hno⟩ | ⟨hf, hno⟩
    · have hd : Decides b m := ⟨hmk, fun m' hm' h => by
        by_cases hb : m' < r.scanoff
        · exact hbelow m' hb h
        · exact absurd h (hno m' (by omega) hm')⟩
      have hnext (hfalse : IsFalse b m) : ∀ m' < m + 2, IsMarker b m' → IsFalse b m' := fun m' hm' h => by
        rcases Nat.lt_trichotomy m' m with hlt | rfl | hgt
        · exact hd.2 m' hlt h
        · exact hfalse
        · have hcd := hmk.2
          have := h.1
          rw [show m' = m + 1 by omega, hcd] at this
          simp at this
      have hlt := hmk.lt
      simp only [scanLoop, hf]
      split_ifs with h1 h2 h3 h4
      · exact .short m hd (.inl (by omega))
      · rw [le16_lenAt (by omega)] at h2
        exact ih _ (by simp only; omega) (hnext ⟨by omega, .inl h2⟩)
      · rw [le16_lenAt (by omega)] at h2 h3
        exact .short m hd (.inr ⟨by omega, by omega⟩)
      · rw [le16_lenAt (by omega)] at h2 h3 h4
        have hl := le16_lenAt (b := b) (m := m) (by omega)
        have hc : (candidate b m (le16 (slice b (m + 2) 2))) = payloadAt b m := by
          simp [candidate, payloadAt, hl]
        have hp : (payloadAt b m).length = lenAt b m - 2 := length_slice (by omega)
        refine .found m _ hd ⟨by omega, by omega, by omega, ?_⟩ hl
        rw [← candidate_sum (len := le16 (slice b (m + 2) 2)) (by omega), ← hc, h4, le16_toNat (length_slice (by omega))]
        rfl
      · rw [le16_lenAt (by omega)] at h2 h3 h4
        have hl := le16_lenAt (b := b) (m := m) (by omega)
        have hc : (candidate b m (le16 (slice b (m + 2) 2))) = payloadAt b m := by
          simp [candidate, payloadAt, hl]
        have hp : (payloadAt b m).length = lenAt b m - 2 := length_slice (by omega)
        refine ih _ (by simp only; omega) (hnext ⟨by omega, .inr ⟨by omega, ?_⟩⟩)
        intro he
        apply h4
        apply BitVec.eq_of_toNat_eq
        rw [hc, candidate_sum (by omega), he, le16_toNat (length_slice (by omega))]
        rfl
    · simp only [scanLoop, hf]
      exact .none fun m hm => hbelow m (by by_contra hc; exact hno m (by omega) hm) hm

/-- The search of a SCAN (R98). -/
theorem search_result (s : State) : SearchResult s.rxbuf s.search.1 :=
  scanLoop_result _ _ _ (by simp [State.rxlen]) (by simp)

theorem IsValid.not_false {b : Bytes} {m : Nat} (h : IsValid b m) : ¬ IsFalse b m := by
  obtain ⟨-, h2, -, h4⟩ := h
  rintro ⟨-, h | ⟨-, h⟩⟩
  · omega
  · exact h h4

theorem IsShort.not_false {b : Bytes} {m : Nat} (h : IsShort b m) : ¬ IsFalse b m := by
  rintro ⟨h1, h2⟩
  rcases h with h | ⟨h3, h4⟩
  · omega
  · rcases h2 with h2 | ⟨h2, -⟩ <;> omega

theorem IsValid.not_short {b : Bytes} {m : Nat} (h : IsValid b m) : ¬ IsShort b m := by
  obtain ⟨h1, h2, h3, -⟩ := h
  rintro (h | ⟨-, h⟩) <;> omega

/-- Two marker offsets that decide a buffer and are not *false* are the same (R98). -/
theorem Decides.unique {b : Bytes} {m m' : Nat} (h : Decides b m) (h' : Decides b m') (hf : ¬ IsFalse b m)
    (hf' : ¬ IsFalse b m') : m = m' := by
  rcases Nat.lt_trichotomy m m' with hlt | rfl | hlt
  · exact absurd (h'.2 m hlt h.1) hf
  · rfl
  · exact absurd (h.2 m' hlt h'.1) hf'

/-! ## What SCAN writes -/

/-- Everything a SCAN can do: RXBUF and the rest of the state but its working registers and the results are unchanged. -/
theorem scan_cases (s : State) :
    ∃ r : ScanRegs,
      (∃ m, Decides s.rxbuf m ∧ IsValid s.rxbuf m ∧
        s.scan = (s.withScanRegs r).report (payloadAt s.rxbuf m) (some (m + 4 + lenAt s.rxbuf m))
          (classify s.config (payloadAt s.rxbuf m))) ∨
      (((∃ m, Decides s.rxbuf m ∧ IsShort s.rxbuf m) ∨ ∀ m, IsMarker s.rxbuf m → IsFalse s.rxbuf m) ∧
        s.scan = (s.withScanRegs r).finish { status := .incomplete }) := by
  refine ⟨s.search.2, ?_⟩
  have h := search_result s
  rcases hs : s.search with ⟨e, r⟩
  rw [hs] at h
  cases h with
  | found m len hd hv hl =>
    refine .inl ⟨m, hd, hv, ?_⟩
    simp [State.scan, hs, candidate, payloadAt, hl]
  | short m hd hv => exact .inr ⟨.inl ⟨m, hd, hv⟩, by simp [State.scan, hs]⟩
  | none hn => exact .inr ⟨.inr hn, by simp [State.scan, hs]⟩

/-- A SCAN decided by a *valid* candidate (R96, R98). -/
theorem scan_valid {s : State} {m : Nat} (hd : Decides s.rxbuf m) (hv : IsValid s.rxbuf m) :
    ∃ r, s.scan = (s.withScanRegs r).report (payloadAt s.rxbuf m) (some (m + 4 + lenAt s.rxbuf m))
      (classify s.config (payloadAt s.rxbuf m)) := by
  obtain ⟨r, ⟨m', hd', hv', h⟩ | ⟨⟨m', hd', hv'⟩ | hn, h⟩⟩ := scan_cases s
  · obtain rfl := hd.unique hd' hv.not_false hv'.not_false
    exact ⟨r, h⟩
  · obtain rfl := hd.unique hd' hv.not_false hv'.not_false
    exact absurd hv' hv.not_short
  · exact absurd (hn m hd.1) hv.not_false

/-- A SCAN decided by a *short* candidate, or by none (R98). -/
theorem scan_incomplete {s : State}
    (h : (∃ m, Decides s.rxbuf m ∧ IsShort s.rxbuf m) ∨ ∀ m, IsMarker s.rxbuf m → IsFalse s.rxbuf m) :
    ∃ r, s.scan = (s.withScanRegs r).finish { status := .incomplete } := by
  obtain ⟨r, ⟨m', hd', hv', h'⟩ | ⟨-, h'⟩⟩ := scan_cases s
  · rcases h with ⟨m, hd, hs⟩ | hn
    · obtain rfl := hd.unique hd' hs.not_false hv'.not_false
      exact absurd hs hv'.not_short
    · exact absurd (hn m' hd'.1) hv'.not_false
  · exact ⟨r, h'⟩

/-- What a SCAN leaves alone (R99). -/
theorem scan_frame (s : State) :
    s.scan = { s with acc := s.scan.acc, lenr := s.scan.lenr, scanoff := s.scan.scanoff, results := s.scan.results } := by
  obtain ⟨r, ⟨m, -, -, h⟩ | ⟨-, h⟩⟩ := scan_cases s <;> rw [h]
  · rw [State.report_frame]; rfl
  · rfl

@[simp] theorem scan_rxbuf (s : State) : s.scan.rxbuf = s.rxbuf := by rw [scan_frame]
@[simp] theorem scan_config (s : State) : s.scan.config = s.config := by rw [scan_frame]
@[simp] theorem scan_requests (s : State) : s.scan.requests = s.requests := by rw [scan_frame]

/-- What a SCAN gives depends on RXBUF and the configuration alone (10_state.md R26). -/
theorem scan_congr {s t : State} (h : s.rxbuf = t.rxbuf) (hc : s.config = t.config) :
    s.scan.results = t.scan.results := by
  obtain ⟨r, ⟨m, hd, hv, h'⟩ | ⟨hs, h'⟩⟩ := scan_cases s
  · obtain ⟨r', h2⟩ := scan_valid (h ▸ hd) (h ▸ hv)
    rw [h', h2, h, hc]
    cases classify t.config (payloadAt t.rxbuf m) <;> rfl
  · obtain ⟨r', h2⟩ := scan_incomplete (s := t) (h ▸ hs)
    rw [h', h2]; rfl

/-! ## Frames in a buffer -/

/-- A built frame is a *valid* candidate where it stands, with its payload (R82, R98). -/
theorem frame_at {b : Bytes} {o : Nat} {p : Bytes} (hp : p.length ≤ 65533) (h : StandsAt b o (frameOf p)) :
    IsMarker b o ∧ lenAt b o = p.length + 2 ∧ payloadAt b o = p ∧ IsValid b o := by
  have h1 : StandsAt b o
      ([marker0, marker1] ++ (le16Bytes (lenField p.length) ++ (p ++ le16Bytes (checksum p)))) := by
    simpa [frameOf] using h
  have h2 := h1.right
  have h4 := h2.right
  have h5 := h4.right
  have hle := h.le
  simp only [length_frameOf] at hle
  simp only [List.length_cons, List.length_nil, length_le16Bytes, Nat.add_assoc, Nat.reduceAdd] at h2 h4 h5
  have hl : lenAt b o = p.length + 2 := by
    rw [lenAt, h2.left.slice_eq (length_le16Bytes _), leNat_le16Bytes, lenField_toNat hp]
  have hpay : payloadAt b o = p := by
    rw [payloadAt, hl]; exact h4.left.slice_eq rfl
  refine ⟨?_, hl, hpay, by omega, by omega, by omega, ?_⟩
  · obtain ⟨pre, post, rfl, rfl⟩ := h1
    constructor <;> simp [marker0, marker1]
  · rw [embeddedAt, hpay, hl, show o + 2 + (p.length + 2) = o + (4 + p.length) by omega,
      h5.slice_eq (length_le16Bytes _), leNat_le16Bytes, checksum_toNat hp]

/-- A marker of a buffer is a marker of a longer one. -/
theorem isMarker_append {b c : Bytes} {m : Nat} (hlt : m + 1 < b.length) : IsMarker (b ++ c) m ↔ IsMarker b m := by
  simp [IsMarker, List.getElem?_append_left (show m < b.length by omega), List.getElem?_append_left hlt]

/-- The class of a candidate that is all there does not depend on what follows it. -/
theorem isFalse_append {b c : Bytes} {m : Nat} (h : IsFalse b m) : IsFalse (b ++ c) m := by
  obtain ⟨h1, h2⟩ := h
  have hl : lenAt (b ++ c) m = lenAt b m := by rw [lenAt, lenAt, slice_append_left (by omega)]
  refine ⟨by simp; omega, ?_⟩
  rw [hl]
  rcases h2 with h2 | ⟨h2, h3⟩
  · exact .inl h2
  · by_cases h4 : lenAt b m < 2
    · exact .inl h4
    · refine .inr ⟨by simp; omega, ?_⟩
      rw [payloadAt, embeddedAt, hl, slice_append_left (by omega), slice_append_left (by omega)]
      exact h3

end Sys2Proof.Machine
end

