-- ==== Sys2Proof/Laws/Driver.lean ====
section
/-! SUPPORT. The host's loops: a message that is read takes at least 6 of the pending bytes, so the fuel that `awaitReply` and
`getRecordData` compute never runs out, and each of them is its own loop without fuel (45_host_contract.md R174 to R176). -/

namespace Sys2Proof.Machine

/-! ## One SCAN of the loop -/

/-- Everything one SCAN of the host's loop can do to RXBUF: a message takes a frame out of it, no result leaves it as it was. -/
theorem hostScan_cases (s : State) :
    (∃ m b, hostScan s = (some (.ok m), b) ∧ b.rxbuf.length + 6 ≤ s.rxbuf.length) ∨
      (∃ c i b, hostScan s = (some (.error (.block c i)), b)) ∨
      ∃ b, hostScan s = (none, b) ∧ b.rxbuf = s.rxbuf := by
  obtain ⟨r, ⟨m, -, ⟨-, h2, h3, -⟩, h⟩ | ⟨-, h⟩⟩ := scan_cases s
  · cases hc : classify s.config (payloadAt s.rxbuf m) with
    | ok msg =>
      rw [hc] at h
      refine .inl ⟨msg, s.scan.dropConsumed, by rw [hostScan, h]; rfl, ?_⟩
      have hd : s.scan.results.consumed = some (m + 4 + lenAt s.rxbuf m) := by rw [h]; rfl
      rw [State.dropConsumed, hd]
      simp only [drop_fits (s := s.scan) (by simpa using h3), scan_rxbuf, List.length_drop]
      omega
    | error e =>
      rw [hc] at h
      exact .inr (.inl ⟨e.code, e.info, _, by rw [hostScan, h]; rfl⟩)
  · exact .inr (.inr ⟨s.scan, by rw [hostScan, h]; rfl, scan_rxbuf s⟩)

theorem length_push_le (s : State) (b : Bytes) : (s.push b).rxbuf.length ≤ s.rxbuf.length + b.length := by
  rcases push_cases s b with ⟨-, h⟩ | ⟨-, h⟩ <;> rw [h] <;> simp [afterRefusal]

/-! ## `read_message()` -/

/-- Time does not go back, a message takes at least 6 of the pending bytes, and WaitTimeout comes not before the deadline
(R172). -/
theorem readLoop_spec (d : Nat) (rs : List TransportRead) (h : Session) :
    h.now ≤ (readLoop d rs h).2.now ∧
      (∀ m, (readLoop d rs h).1 = .ok m →
        (readLoop d rs h).2.pending + 6 ≤ h.block.rxbuf.length + (rs.map (·.bytes.length)).sum) ∧
      ((readLoop d rs h).1 = .error .waitTimeout → d ≤ (readLoop d rs h).2.now) := by
  induction rs generalizing h with
  | nil =>
    obtain ⟨m, b, e, hl⟩ | ⟨c, i, b, e⟩ | ⟨b, e, hb⟩ := hostScan_cases h.block <;>
      simp [readLoop, e, Session.pending]
    all_goals omega
  | cons r rs ih =>
    obtain ⟨m, b, e, hl⟩ | ⟨c, i, b, e⟩ | ⟨b, e, hb⟩ := hostScan_cases h.block
    · simp [readLoop, e, Session.pending]; omega
    · simp [readLoop, e]
    · by_cases hd : d ≤ h.now
      · simp [readLoop, e, hd]
      · have hi := ih { h with block := b.push r.bytes, now := h.now + r.ms }
        have hp := length_push_le b r.bytes
        simp only [readLoop, e, if_neg hd]
        refine ⟨by have := hi.1; simp only at this; omega, fun m hm => ?_, hi.2.2⟩
        have := hi.2.1 m hm
        simp only [List.map_cons, List.sum_cons, ← hb] at this ⊢
        omega

theorem readMessage_now (h : Session) : h.now ≤ (readMessage h).2.now := (readLoop_spec _ _ h).1

theorem readMessage_pending {h h' : Session} {m : Message} (e : readMessage h = (.ok m, h')) :
    h'.pending + 6 ≤ h.pending := by
  have := (readLoop_spec (h.now + waitMs) h.reads h).2.1 m (by rw [← readMessage, e])
  rwa [← readMessage, e] at this

/-! ## Waiting for a reply -/

/-- More fuel than pending bytes is as good as any other. -/
theorem awaitLoop_fuel (accept : Message → Bool) (h : Session) {n k : Nat} (hn : h.pending < n) (hk : h.pending < k) :
    awaitLoop accept n h = awaitLoop accept k h := by
  induction n generalizing k h with
  | zero => omega
  | succ n ih =>
    obtain ⟨k, rfl⟩ : ∃ k', k = k' + 1 := ⟨k - 1, by omega⟩
    rcases e : readMessage h with ⟨_ | m, h'⟩
    · simp [awaitLoop, e]
    · have hp := readMessage_pending e
      have hi := ih h' (k := k) (by omega) (by omega)
      cases m <;> simp [awaitLoop, e, hi]

/-- The wait of R174 and R175 without its fuel. -/
theorem awaitReply_eq (accept : Message → Bool) (h : Session) :
    awaitReply accept h =
      match readMessage h with
      | (.error e, h') => (.error e, h')
      | (.ok .deviceError, h') => (.error .commandError, h')
      | (.ok m, h') => if accept m then (.ok m, h') else awaitReply accept h' := by
  rcases e : readMessage h with ⟨_ | m, h'⟩
  · simp [awaitReply, awaitLoop, e]
  · have hp := readMessage_pending e
    have hi := awaitLoop_fuel accept h' (n := h.pending) (k := h'.pending + 1) (by omega) (by omega)
    cases m <;> simp [awaitReply, awaitLoop, e, hi]

/-- A reply takes at least 6 of the pending bytes. -/
theorem awaitReply_pending {accept : Message → Bool} {h h' : Session} {m : Message}
    (e : awaitReply accept h = (.ok m, h')) : h'.pending + 6 ≤ h.pending := by
  have aux (n : Nat) (h : Session) (e : awaitLoop accept n h = (.ok m, h')) : h'.pending + 6 ≤ h.pending := by
    induction n generalizing h with
    | zero => simp [awaitLoop] at e
    | succ n ih =>
      rcases er : readMessage h with ⟨_ | m', k⟩
      · simp [awaitLoop, er] at e
      · have hp := readMessage_pending er
        rw [awaitLoop, er] at e
        split at e
        · rename_i h2; cases h2
        · cases e
        · rename_i h2
          cases h2
          split at e
          · cases e; exact hp
          · have := ih _ e; omega
  exact aux _ _ e

/-! ## Commands and pagination -/

theorem pending_write {h h' : Session} {tx : Bytes} {r : Except HostError Unit} (e : h.write tx = (r, h')) :
    h'.pending = h.pending := by
  unfold Session.write at e
  split at e <;> cases e <;> rfl

/-- The reply to a command takes at least 6 of the pending bytes: BUILD and the write take none and give none. -/
theorem command_pending {req : Bytes} {accept : Message → Bool} {h h' : Session} {m : Message}
    (e : command req accept h = (.ok m, h')) : h'.pending + 6 ≤ h.pending := by
  have hb : (h.block.build req).rxbuf = h.block.rxbuf := by
    unfold State.build
    split <;> simp [State.refuse, State.finish]
  simp only [command] at e
  split at e
  · cases e
  · split at e
    · rename_i k hw
      have := awaitReply_pending e
      rw [pending_write hw] at this
      simpa [Session.pending, hb] using this
    · cases e

/-- More fuel than pending bytes is as good as any other. -/
theorem recordLoop_fuel (request : Nat → Bytes) (advance : Nat → Nat → Nat) (h : Session) (cursor : Nat)
    (got : List RecordDataItem) {n k : Nat} (hn : h.pending < n) (hk : h.pending < k) :
    recordLoop request advance n cursor got h = recordLoop request advance k cursor got h := by
  induction n generalizing k h cursor got with
  | zero => omega
  | succ n ih =>
    obtain ⟨k, rfl⟩ : ∃ k', k = k' + 1 := ⟨k - 1, by omega⟩
    rcases e : command (0x0D#8 :: request cursor) (fun m => (batchItems m).isSome) h with ⟨_ | m, h'⟩
    · simp only [recordLoop, e]
    · have hp := command_pending e
      simp only [recordLoop, e]
      split
      · exact ih _ _ _ (by omega) (by omega)
      · rfl

/-- What was got before goes in front. -/
theorem recordLoop_got (request : Nat → Bytes) (advance : Nat → Nat → Nat) (n cursor : Nat) (got : List RecordDataItem)
    (h : Session) :
    recordLoop request advance n cursor got h =
      ((recordLoop request advance n cursor [] h).1.map (got ++ ·), (recordLoop request advance n cursor [] h).2) := by
  induction n generalizing cursor got h with
  | zero => rfl
  | succ n ih =>
    rcases e : command (0x0D#8 :: request cursor) (fun m => (batchItems m).isSome) h with ⟨_ | m, h'⟩
    · simp [recordLoop, e, Except.map]
    · simp only [recordLoop, e]
      split
      · rename_i i is _
        rw [ih _ (got ++ i :: is), ih _ ([] ++ i :: is)]
        cases (recordLoop request advance n (advance cursor (i :: is).length) [] h').1 <;> simp [Except.map]
      · simp [Except.map]

/-- `get_record_data` without its fuel (R176). -/
theorem getRecordData_eq (request : Nat → Bytes) (advance : Nat → Nat → Nat) (cursor : Nat) (h : Session) :
    getRecordData request advance cursor h =
      match command (0x0D#8 :: request cursor) (fun m => (batchItems m).isSome) h with
      | (.error e, h') => (.error e, h')
      | (.ok m, h') =>
        match batchItems m with
        | some (i :: is) =>
          ((getRecordData request advance (advance cursor (i :: is).length) h').1.map (i :: is ++ ·),
            (getRecordData request advance (advance cursor (i :: is).length) h').2)
        | _ => (.ok [], h') := by
  rw [getRecordData, recordLoop]
  rcases e : command (0x0D#8 :: request cursor) (fun m => (batchItems m).isSome) h with ⟨_ | m, h'⟩
  · rfl
  · have hp := command_pending e
    rcases hb : batchItems m with _ | _ | ⟨i, is⟩
    · simp only [hb]
    · simp only [hb]
    · simp only [hb]
      rw [recordLoop_got, List.nil_append, getRecordData,
        recordLoop_fuel request advance h' _ [] (n := h.pending) (k := h'.pending + 1) (by omega) (by omega)]

end Sys2Proof.Machine
end

