-- ==== Sys2Proof/Laws/Exec.lean ====
section
/-! SUPPORT. Everything an instruction can be: one of the host operations, BUILD of a payload or CLASSIFY of a payload. -/

namespace Sys2Proof.Machine

/-- The forms of an instruction's meaning (log 2, log 3). -/
inductive Shape : Instr → Prop where
  | reset : Shape .reset
  | push (b : Bytes) : Shape (.push b)
  | scan : Shape .scan
  | drop (k : DropCount) : Shape (.drop k)
  | csum (p : Bytes) : Shape (.csum p)
  | reserved (k : Fin 9) (x : Operand) : Shape (.hostopReserved k x)
  | frame (len : Half) (rest : Bytes) : Shape (.frame len rest)
  | build (i : Instr) (p : Bytes) (h : ∀ s, exec i s = .next (s.build p)) : Shape i
  | classify (i : Instr) (p : Bytes) (h : ∀ s, exec i s = .next (s.classified p (classify s.config p))) : Shape i

theorem execMsg_shape {i : Instr} {tag : Byte} {rest : Bytes} {dec : Config → Bytes → Except DecodeError Message}
    (hi : ∀ s, exec i s = .next (s.classified (tag :: rest) (dec s.config (tag :: rest))))
    (h : ∀ cfg, classify cfg (tag :: rest) = dec cfg (tag :: rest)) : Shape i :=
  .classify i (tag :: rest) fun s => by rw [hi s, h]

theorem execReply_shape {i : Instr} {code : Half} {rest : Bytes} {m : Message}
    (hi : ∀ s, exec i s = .next (s.classified (0x01#8 :: (le16Bytes code ++ rest)) (.ok m)))
    (h : ∀ t, replyCode (0x01#8 :: (le16Bytes code ++ t)) = .ok m) : Shape i :=
  .classify i _ fun s => by rw [hi s, classify_replyCode, h]

theorem execMeas_shape {i : Instr} {c : Carrier} {k : Kind} {f : HdrFlags} {rest : Bytes}
    (hi : ∀ s, exec i s = .next (s.classifiedMeas c k f rest (fun p => decBody s.config p c.base f k))) : Shape i :=
  .classify i (measPayload c (hdrByte k f) rest) fun s => by
    rw [hi s, classify_measPayload]; rfl

theorem execRange_shape {i : Instr} {u : RangeUse} {b : Byte} {r : Range} (hr : decRange b = .ok r)
    (hi : ∀ s, exec i s = .next (s.classifiedRange u b r)) : Shape i :=
  .classify i (u.payload b) fun s => by
    rw [hi s, classify_rangePayload s.config u hr]; rfl

/-- Every instruction is of one of the forms. -/
theorem shape (i : Instr) : Shape i := by
  cases i with
  | reset => exact .reset
  | push b => exact .push b
  | scan => exact .scan
  | drop k => exact .drop k
  | csum p => exact .csum p
  | build p => exact .build _ p fun _ => rfl
  | classify p => exact .classify _ p fun _ => rfl
  | hostopReserved k x => exact .reserved k x
  | frame len rest => exact .frame len rest
  | msgReplyCode rest => exact execMsg_shape (dec := fun _ => replyCode) (fun _ => rfl) fun _ => classify_replyCode _ _
  | msgMeas rest => exact execMsg_shape (dec := meas) (fun _ => rfl) fun _ => classify_meas _ _
  | msgSaved rest => exact execMsg_shape (dec := saved) (fun _ => rfl) fun _ => classify_saved _ _
  | msgRecInfo rest => exact execMsg_shape (dec := recInfo) (fun _ => rfl) fun _ => classify_recInfo _ _
  | msgRecData rest => exact execMsg_shape (dec := fun _ => recData) (fun _ => rfl) fun _ => classify_recData _ _
  | msgReply rest => exact execMsg_shape (dec := fun _ => reply) (fun _ => rfl) fun _ => classify_reply _ _
  | replySuccess rest => exact execReply_shape (fun _ => rfl) (replyCode_of_code 0x4B4F#16)
  | replyDeviceError rest => exact execReply_shape (fun _ => rfl) (replyCode_of_code 0x5245#16)
  | measNormal c f rest => exact execMeas_shape (k := .normal) fun _ => rfl
  | measRelative c f rest => exact execMeas_shape (k := .relative) fun _ => rfl
  | measMinMax c f rest => exact execMeas_shape (k := .minMax) fun _ => rfl
  | measPeak c f rest => exact execMeas_shape (k := .peak) fun _ => rfl
  | rangeAuto u => exact execRange_shape (b := 0x00#8) rfl fun _ => rfl
  | rangeStep1 u => exact execRange_shape (b := 0x01#8) rfl fun _ => rfl
  | rangeStep2 u => exact execRange_shape (b := 0x02#8) rfl fun _ => rfl
  | rangeStep3 u => exact execRange_shape (b := 0x03#8) rfl fun _ => rfl
  | rangeStep4 u => exact execRange_shape (b := 0x04#8) rfl fun _ => rfl
  | rangeStep5 u => exact execRange_shape (b := 0x05#8) rfl fun _ => rfl
  | rangeStep6 u => exact execRange_shape (b := 0x06#8) rfl fun _ => rfl
  | rangeStep7 u => exact execRange_shape (b := 0x07#8) rfl fun _ => rfl
  | rangeStep8 u => exact execRange_shape (b := 0x08#8) rfl fun _ => rfl
  | reqSetMode o => exact .build _ _ fun _ => rfl
  | reqSetRange o => exact .build _ _ fun _ => rfl
  | reqSetRef o => exact .build _ _ fun _ => rfl
  | reqSetMinMax o => exact .build _ _ fun _ => rfl
  | reqMonitor o => exact .build _ _ fun _ => rfl
  | reqSave o => exact .build _ _ fun _ => rfl
  | reqReadSave o => exact .build _ _ fun _ => rfl
  | reqSaveCount o => exact .build _ _ fun _ => rfl
  | reqDelSave o => exact .build _ _ fun _ => rfl
  | reqRecStart o => exact .build _ _ fun _ => rfl
  | reqRecStop o => exact .build _ _ fun _ => rfl
  | reqRecInfo o => exact .build _ _ fun _ => rfl
  | reqRecData o => exact .build _ _ fun _ => rfl
  | reqRecCount o => exact .build _ _ fun _ => rfl
  | reqHold o => exact .build _ _ fun _ => rfl

/-- Everything a BUILD can do (R82, R199). -/
theorem build_cases (s : State) (p : Bytes) :
    (p.length ≤ 65533 ∧ s.build p =
      { s with acc := checksum p, lenr := lenField p.length, results := { status := .done, txbuf := some (frameOf p) } }) ∨
      (65533 < p.length ∧ s.build p = afterRefusal s (.payloadTooLong p.length)) := by
  rcases Nat.lt_or_ge 65533 p.length with h | h
  · exact .inr ⟨h, build_long h⟩
  · exact .inl ⟨h, build_fits h⟩

/-- Everything a CSUM can do (R81, R199). -/
theorem csum_cases (s : State) (p : Bytes) :
    (p.length ≤ 65533 ∧ s.csum p =
      { s with acc := checksum p, lenr := lenField p.length, results := { status := .done, csumOut := some (checksum p) } }) ∨
      (65533 < p.length ∧ s.csum p = afterRefusal s (.payloadTooLong p.length)) := by
  rcases Nat.lt_or_ge 65533 p.length with h | h
  · exact .inr ⟨h, csum_long h⟩
  · exact .inl ⟨h, csum_fits h⟩

/-- Everything a CLASSIFY can do (R111, R199). -/
theorem classified_cases (s : State) (p : Bytes) (r : Except DecodeError Message) :
    (p.length ≤ 65533 ∧ ∃ m, r = .ok m ∧ s.classified p r = afterMsg s p m) ∨
      (p.length ≤ 65533 ∧ ∃ e, r = .error e ∧ s.classified p r = afterError s p e) ∨
      (65533 < p.length ∧ s.classified p r = afterRefusal s (.payloadTooLong p.length)) := by
  rcases Nat.lt_or_ge 65533 p.length with h | h
  · exact .inr (.inr ⟨h, classified_long h⟩)
  · cases r with
    | ok m => exact .inl ⟨h, m, rfl, classified_msg h⟩
    | error e => exact .inr (.inl ⟨h, e, rfl, classified_error h⟩)

/-- Everything bytes of the wire can do: a PUSH that fits and a SCAN, or a PUSH refused (log 3). -/
theorem pushScan_cases (s : State) (b : Bytes) :
    (s.pushFits b.length = true ∧
        s.pushScan b = ({ s with rxbuf := s.rxbuf ++ b, results := { status := .done } } : State).scan) ∨
      (s.pushFits b.length = false ∧ s.pushScan b = afterRefusal s (.bufOverflow s.rxbuf.length b.length)) := by
  rcases push_cases s b with ⟨h, e⟩ | ⟨h, e⟩
  · exact .inl ⟨h, by simp [State.pushScan, h, e]⟩
  · exact .inr ⟨h, by simp [State.pushScan, h, e]⟩

/-- Everything the row FRAME can do (log 3). -/
theorem frame_cases (s : State) (len : Half) (rest : Bytes) :
    (s.pushFits (frameBytes len rest).length = true ∧ exec (.frame len rest) s =
        .next { s with rxbuf := s.rxbuf ++ frameBytes len rest, results := { status := .done } }.scan) ∨
      (s.pushFits (frameBytes len rest).length = false ∧ exec (.frame len rest) s =
        .next (afterRefusal s (.bufOverflow s.rxbuf.length (frameBytes len rest).length))) := by
  rcases pushScan_cases s (frameBytes len rest) with ⟨h, e⟩ | ⟨h, e⟩
  · exact .inl ⟨h, congrArg _ e⟩
  · exact .inr ⟨h, congrArg _ e⟩

/-- Everything an illegal value can do (30_encoding.md R71, R73; log 13). -/
theorem execIllegal_cases (i : Illegal) (s : State) :
    (∃ why b, i = .stream why b ∧ execIllegal i s = .next (s.pushScan b)) ∨
      (∃ why p, i = .payload why p ∧ execIllegal i s = exec (.classify p) s) ∨
      (∃ why p, i = .request why p ∧ execIllegal i s = exec (.build p) s) := by
  cases i with
  | stream why b => exact .inl ⟨why, b, rfl, rfl⟩
  | payload why p => exact .inr (.inl ⟨why, p, rfl, rfl⟩)
  | request why p => exact .inr (.inr ⟨why, p, rfl, rfl⟩)

end Sys2Proof.Machine
end

