-- ==== Sys2Proof/Tests/Slice0.lean ====
section
/-! SUPPORT. Tests. Expected results come from spec/95_test_vectors.md (ids as there, configuration `TC`) or are computed by
hand from the rule named; the last part shows that the hypotheses of each statement can be met. -/

namespace Sys2Proof.Tests

open Sys2Proof Sys2Proof.Machine

/-! ## The test configuration TC and small states -/

/-- Bytes written as numbers. -/
def b (l : List Nat) : Bytes := l.map (BitVec.ofNat 8)

def mtA : ModeId := ⟨0⟩
def mtB : ModeId := ⟨1⟩
def volt : UnitExp := ⟨⟨0⟩, 0⟩
def milliVolt : UnitExp := ⟨⟨0⟩, -3⟩
def hertz : UnitExp := ⟨⟨1⟩, 0⟩

def tc : Config where
  rxCap := none
  modeTable := [(0x3111#16, mtA), (0x1111#16, mtB)]
  unitTable := [([0x56#8], volt), ([0x6D#8, 0x56#8], milliVolt), ([0x48#8, 0x7A#8], hertz)]
  degreeByte := 0xB0#8
  fastUnitW := 8
  minMax := defaultMinMax
  recInfo := defaultRecInfo
  hostDrops := true

def blank : State := { State.reset with config := tc }

def holding (rx : Bytes) : State := { blank with rxbuf := rx }

/-- `RXCAP = 16` (PG8). -/
def capped (rx : Bytes) : State := { blank with rxbuf := rx, config := { tc with rxCap := some 16 } }

/-- The state of a next state. -/
def after (o : Host.Outcome State Fault Refusal) : Option State :=
  match o with
  | .next t => some t
  | .fault _ => none
  | .refused _ => none

def resultsAfter (o : Host.Outcome State Fault Refusal) : Option Results := (after o).map (·.results)

def foundMsg (p : Bytes) (m : Message) (consumed : Option Nat := none) : Option Results :=
  some { status := .foundMsg, payload := some p, msg := some m, consumed := consumed }

def foundErr (p : Bytes) (e : DecodeError) (consumed : Option Nat := none) : Option Results :=
  some { status := .foundErr, payload := some p, consumed := consumed, errCode := some e.code, errInfo := some e.info }

def refusedBy (e : OpRefusal) : Option Results :=
  some { status := .refused, errCode := some e.code, errInfo := some e.info }

def val (neg pos : Bool) (mag : Word) (prec : Nat) (u : Option UnitExp) : Value :=
  ⟨neg, pos, mag, some (BitVec.ofNat 4 prec), u⟩

/-- The Success frame `F` of section 4. -/
def frameF : Bytes := b [0xAB, 0xCD, 0x05, 0x00, 0x01, 0x4F, 0x4B, 0xA2, 0x00]

/-! ## WellFormed: for each check a term it refuses -/

/-- `n` zero bytes. -/
def zeros (n : Nat) : Bytes := List.replicate n 0x00#8

theorem length_zeros (n : Nat) : (zeros n).length = n := List.length_replicate

/-- R50: as many bytes follow as the length field says. -/
theorem test_wellFormed_frame :
    (Instr.frame 3#16 [0x05#8]).wellFormed = false ∧ (Instr.frame 1#16 [0x05#8]).wellFormed = true := by decide

theorem wellFormed_msg (x y : Bytes) (hx : x.length = 65533) (hy : y.length = 65532) :
    (Instr.msgReplyCode x).wellFormed = false ∧
    (Instr.msgMeas x).wellFormed = false ∧
    (Instr.msgSaved x).wellFormed = false ∧
    (Instr.msgRecInfo x).wellFormed = false ∧
    (Instr.msgRecData x).wellFormed = false ∧
    (Instr.msgReply x).wellFormed = false ∧
    (Instr.msgReplyCode y).wellFormed = true := by
  simp only [Instr.wellFormed, decide_eq_false_iff_not, decide_eq_true_iff]
  simp only [fitsFrame]
  omega

/-- R50: a payload has at most 65533 bytes. -/
theorem test_wellFormed_msg :
    (Instr.msgReplyCode (zeros 65533)).wellFormed = false ∧
    (Instr.msgMeas (zeros 65533)).wellFormed = false ∧
    (Instr.msgSaved (zeros 65533)).wellFormed = false ∧
    (Instr.msgRecInfo (zeros 65533)).wellFormed = false ∧
    (Instr.msgRecData (zeros 65533)).wellFormed = false ∧
    (Instr.msgReply (zeros 65533)).wellFormed = false ∧
    (Instr.msgReplyCode (zeros 65532)).wellFormed = true :=
  wellFormed_msg _ _ (length_zeros _) (length_zeros _)

theorem wellFormed_replyCode (x y : Bytes) (hx : x.length = 65531) (hy : y.length = 65530) :
    (Instr.replySuccess x).wellFormed = false ∧
    (Instr.replyDeviceError x).wellFormed = false ∧
    (Instr.replySuccess y).wellFormed = true := by
  simp only [Instr.wellFormed, decide_eq_false_iff_not, decide_eq_true_iff]
  simp only [fitsFrame]
  omega

/-- R50, R53. -/
theorem test_wellFormed_replyCode :
    (Instr.replySuccess (zeros 65531)).wellFormed = false ∧
    (Instr.replyDeviceError (zeros 65531)).wellFormed = false ∧
    (Instr.replySuccess (zeros 65530)).wellFormed = true :=
  wellFormed_replyCode _ _ (length_zeros _) (length_zeros _)

theorem wellFormed_meas (x y : Bytes) (hx : x.length = 65532) (hy : y.length = 65531) :
    (Instr.measNormal .live ⟨false, false, false, false, false⟩ x).wellFormed = false ∧
    (Instr.measRelative .live ⟨false, false, false, false, false⟩ x).wellFormed = false ∧
    (Instr.measMinMax .live ⟨false, false, false, false, false⟩ x).wellFormed = false ∧
    (Instr.measPeak .live ⟨false, false, false, false, false⟩ x).wellFormed = false ∧
    (Instr.measNormal .live ⟨false, false, false, false, false⟩ y).wellFormed = true := by
  simp only [Instr.wellFormed, decide_eq_false_iff_not, decide_eq_true_iff]
  simp only [fitsFrame, Carrier.base]
  omega

/-- R50, R54, R59. -/
theorem test_wellFormed_meas :
    (Instr.measNormal .live ⟨false, false, false, false, false⟩ (zeros 65532)).wellFormed = false ∧
    (Instr.measRelative .live ⟨false, false, false, false, false⟩ (zeros 65532)).wellFormed = false ∧
    (Instr.measMinMax .live ⟨false, false, false, false, false⟩ (zeros 65532)).wellFormed = false ∧
    (Instr.measPeak .live ⟨false, false, false, false, false⟩ (zeros 65532)).wellFormed = false ∧
    (Instr.measNormal .live ⟨false, false, false, false, false⟩ (zeros 65531)).wellFormed = true :=
  wellFormed_meas _ _ (length_zeros _) (length_zeros _)

theorem wellFormed_meas_saved (x y : Bytes) (hx : x.length = 65528) (hy : y.length = 65527) :
    (Instr.measNormal (.saved 0 0 0 0) ⟨false, false, false, false, false⟩ x).wellFormed = false ∧
    (Instr.measNormal (.saved 0 0 0 0) ⟨false, false, false, false, false⟩ y).wellFormed = true := by
  simp only [Instr.wellFormed, decide_eq_false_iff_not, decide_eq_true_iff]
  simp only [fitsFrame, Carrier.base]
  omega

/-- R50, R55, R59. -/
theorem test_wellFormed_meas_saved :
    (Instr.measNormal (.saved 0 0 0 0) ⟨false, false, false, false, false⟩ (zeros 65528)).wellFormed = false ∧
    (Instr.measNormal (.saved 0 0 0 0) ⟨false, false, false, false, false⟩ (zeros 65527)).wellFormed = true :=
  wellFormed_meas_saved _ _ (length_zeros _) (length_zeros _)

/-- A use of a range code with a given body. -/
def rangeUse (body : Bytes) : RangeUse :=
  ⟨.live, .normal, ⟨false, false, false, false, false⟩, 0x01#8, 0x3111#16, body⟩

theorem wellFormed_range (x y : Bytes) (hx : x.length = 65528) (hy : y.length = 65527) :
    (Instr.rangeAuto (rangeUse x)).wellFormed = false ∧
    (Instr.rangeStep1 (rangeUse x)).wellFormed = false ∧
    (Instr.rangeStep2 (rangeUse x)).wellFormed = false ∧
    (Instr.rangeStep3 (rangeUse x)).wellFormed = false ∧
    (Instr.rangeStep4 (rangeUse x)).wellFormed = false ∧
    (Instr.rangeStep5 (rangeUse x)).wellFormed = false ∧
    (Instr.rangeStep6 (rangeUse x)).wellFormed = false ∧
    (Instr.rangeStep7 (rangeUse x)).wellFormed = false ∧
    (Instr.rangeStep8 (rangeUse x)).wellFormed = false ∧
    (Instr.rangeAuto (rangeUse y)).wellFormed = true := by
  simp only [Instr.wellFormed, decide_eq_false_iff_not, decide_eq_true_iff]
  simp only [fitsFrame, rangeUse, Carrier.base]
  omega

/-- R50, R59. -/
theorem test_wellFormed_range :
    (Instr.rangeAuto (rangeUse (zeros 65528))).wellFormed = false ∧
    (Instr.rangeStep1 (rangeUse (zeros 65528))).wellFormed = false ∧
    (Instr.rangeStep2 (rangeUse (zeros 65528))).wellFormed = false ∧
    (Instr.rangeStep3 (rangeUse (zeros 65528))).wellFormed = false ∧
    (Instr.rangeStep4 (rangeUse (zeros 65528))).wellFormed = false ∧
    (Instr.rangeStep5 (rangeUse (zeros 65528))).wellFormed = false ∧
    (Instr.rangeStep6 (rangeUse (zeros 65528))).wellFormed = false ∧
    (Instr.rangeStep7 (rangeUse (zeros 65528))).wellFormed = false ∧
    (Instr.rangeStep8 (rangeUse (zeros 65528))).wellFormed = false ∧
    (Instr.rangeAuto (rangeUse (zeros 65527))).wellFormed = true :=
  wellFormed_range _ _ (length_zeros _) (length_zeros _)

theorem wellFormed_req (x y : Bytes) (hx : x.length = 65533) (hy : y.length = 65532) :
    (Instr.reqSetMode x).wellFormed = false ∧
    (Instr.reqSetRange x).wellFormed = false ∧
    (Instr.reqSetRef x).wellFormed = false ∧
    (Instr.reqSetMinMax x).wellFormed = false ∧
    (Instr.reqMonitor x).wellFormed = false ∧
    (Instr.reqSave x).wellFormed = false ∧
    (Instr.reqReadSave x).wellFormed = false ∧
    (Instr.reqSaveCount x).wellFormed = false ∧
    (Instr.reqDelSave x).wellFormed = false ∧
    (Instr.reqRecStart x).wellFormed = false ∧
    (Instr.reqRecStop x).wellFormed = false ∧
    (Instr.reqRecInfo x).wellFormed = false ∧
    (Instr.reqRecData x).wellFormed = false ∧
    (Instr.reqRecCount x).wellFormed = false ∧
    (Instr.reqSetMode y).wellFormed = true := by
  simp only [Instr.wellFormed, decide_eq_false_iff_not, decide_eq_true_iff]
  simp only [fitsFrame]
  omega

/-- R50, R73. -/
theorem test_wellFormed_req :
    (Instr.reqSetMode (zeros 65533)).wellFormed = false ∧
    (Instr.reqSetRange (zeros 65533)).wellFormed = false ∧
    (Instr.reqSetRef (zeros 65533)).wellFormed = false ∧
    (Instr.reqSetMinMax (zeros 65533)).wellFormed = false ∧
    (Instr.reqMonitor (zeros 65533)).wellFormed = false ∧
    (Instr.reqSave (zeros 65533)).wellFormed = false ∧
    (Instr.reqReadSave (zeros 65533)).wellFormed = false ∧
    (Instr.reqSaveCount (zeros 65533)).wellFormed = false ∧
    (Instr.reqDelSave (zeros 65533)).wellFormed = false ∧
    (Instr.reqRecStart (zeros 65533)).wellFormed = false ∧
    (Instr.reqRecStop (zeros 65533)).wellFormed = false ∧
    (Instr.reqRecInfo (zeros 65533)).wellFormed = false ∧
    (Instr.reqRecData (zeros 65533)).wellFormed = false ∧
    (Instr.reqRecCount (zeros 65533)).wellFormed = false ∧
    (Instr.reqSetMode (zeros 65532)).wellFormed = true :=
  wellFormed_req _ _ (length_zeros _) (length_zeros _)

theorem wellFormed_hold (x : Bytes) (hx : x.length = 65532) : (Instr.reqHold (0x5A#8 :: x)).wellFormed = false := by
  simp only [Instr.wellFormed, Bool.and_eq_false_iff, decide_eq_false_iff_not]
  simp only [fitsFrame, List.length_cons]
  omega

/-- R50, R73: byte 1 of REQ.HOLD is 0x5A. -/
theorem test_wellFormed_hold :
    (Instr.reqHold [0x00#8]).wellFormed = false ∧ (Instr.reqHold []).wellFormed = false ∧
    (Instr.reqHold (0x5A#8 :: zeros 65532)).wellFormed = false ∧ (Instr.reqHold [0x5A#8]).wellFormed = true :=
  ⟨rfl, rfl, wellFormed_hold _ (length_zeros _), rfl⟩

/-! ## Decode: every row's code, written from 30_encoding.md -/

/-- R51: four bits, 0x0 to 0xF. -/
theorem test_decode_hostop :
    let x : Operand := ⟨[0x05#8], .count 9⟩
    decode (.hostop (.select 0b0000#4 x)) = .ok .reset ∧ decode (.hostop (.select 0b0001#4 x)) = .ok (.push [0x05#8]) ∧
    decode (.hostop (.select 0b0010#4 x)) = .ok .scan ∧ decode (.hostop (.select 0b0011#4 x)) = .ok (.drop (.count 9)) ∧
    decode (.hostop (.select 0b0011#4 ⟨[], .consumed⟩)) = .ok (.drop .consumed) ∧
    decode (.hostop (.select 0b0100#4 x)) = .ok (.csum [0x05#8]) ∧
    decode (.hostop (.select 0b0101#4 x)) = .ok (.build [0x05#8]) ∧
    decode (.hostop (.select 0b0110#4 x)) = .ok (.classify [0x05#8]) ∧
    decode (.hostop (.select 0b0111#4 x)) = .ok (.hostopReserved 0 x) ∧
    decode (.hostop (.select 0b1111#4 x)) = .ok (.hostopReserved 8 x) := by decide

/-- R50: K3's frame; the length is told from the two bytes after the marker, low byte first. -/
theorem test_decode_frame :
    decode (.frame frameF) = .ok (.frame 5#16 (b [0x01, 0x4F, 0x4B, 0xA2, 0x00])) ∧
    decode (.frame (frameF ++ [0x00#8])) = .error (.stream (.frameLength 5#16 6) (frameF ++ [0x00#8])) ∧
    decode (.frame (b [0xCD, 0xAB, 0x02, 0x00, 0x04, 0x00])) = .error (.stream .notAFrame (b [0xCD, 0xAB, 0x02, 0x00, 0x04, 0x00])) := by decide

/-- R52: the payload's first byte, compared whole. -/
theorem test_decode_msg :
    decode (.msg [0x01#8, 0x2A#8]) = .ok (.msgReplyCode [0x2A#8]) ∧
    decode (.msg [0x02#8, 0x2A#8]) = .ok (.msgMeas [0x2A#8]) ∧
    decode (.msg [0x03#8, 0x2A#8]) = .ok (.msgSaved [0x2A#8]) ∧
    decode (.msg [0x04#8, 0x2A#8]) = .ok (.msgRecInfo [0x2A#8]) ∧
    decode (.msg [0x05#8, 0x2A#8]) = .ok (.msgRecData [0x2A#8]) ∧
    decode (.msg [0x72#8, 0x2A#8]) = .ok (.msgReply [0x2A#8]) ∧
    decode (.msg [0x12#8, 0x5A#8]) = .error (.payload (.unknownTag 0x12#8) [0x12#8, 0x5A#8]) := by decide

/-- R53: wire bytes `4F 4B` and `45 52` after tag 0x01. -/
theorem test_decode_replyCode :
    decode (.replyCode [0x01#8, 0x4F#8, 0x4B#8]) = .ok (.replySuccess []) ∧
    decode (.replyCode [0x01#8, 0x45#8, 0x52#8, 0xEE#8]) = .ok (.replyDeviceError [0xEE#8]) ∧
    decode (.replyCode [0x01#8, 0x4B#8, 0x4F#8]) = .error (.payload (.unknownReplyCode 0x4F4B#16) [0x01#8, 0x4B#8, 0x4F#8]) := by decide

/-- R59: kind in bits 6 to 4, hold bit 7, fast bit 3, tertiary bit 2, secondary bit 1. -/
theorem test_decode_meas :
    decode (.meas [0x02#8, 0b10001110#8, 0x01#8]) =
      .ok (.measNormal .live ⟨true, true, true, true, false⟩ [0x01#8]) ∧
    decode (.meas [0x03#8, 0x57#8, 0x88#8, 0x41#8, 0x14#8, 0b00011001#8]) =
      .ok (.measRelative (.saved 0x57#8 0x88#8 0x41#8 0x14#8) ⟨false, true, false, false, true⟩ []) ∧
    decode (.meas [0x02#8, 0b00100100#8]) = .ok (.measMinMax .live ⟨false, false, true, false, false⟩ []) ∧
    decode (.meas [0x02#8, 0b11000010#8]) = .ok (.measPeak .live ⟨true, false, false, true, false⟩ []) ∧
    decode (.meas [0x02#8, 0b00110000#8]) = .error (.payload (.unknownKind 0x30#8) [0x02#8, 0b00110000#8]) := by decide

/-- R67: the range byte is measurement byte 4. -/
theorem test_decode_range :
    decode (.range [0x02#8, 0x00#8, 0x01#8, 0x11#8, 0x31#8, 0x00#8]) = .ok (.rangeAuto (rangeUse [])) ∧
    decode (.range [0x02#8, 0x00#8, 0x01#8, 0x11#8, 0x31#8, 0x01#8]) = .ok (.rangeStep1 (rangeUse [])) ∧
    decode (.range [0x02#8, 0x00#8, 0x01#8, 0x11#8, 0x31#8, 0x02#8]) = .ok (.rangeStep2 (rangeUse [])) ∧
    decode (.range [0x02#8, 0x00#8, 0x01#8, 0x11#8, 0x31#8, 0x03#8]) = .ok (.rangeStep3 (rangeUse [])) ∧
    decode (.range [0x02#8, 0x00#8, 0x01#8, 0x11#8, 0x31#8, 0x04#8]) = .ok (.rangeStep4 (rangeUse [])) ∧
    decode (.range [0x02#8, 0x00#8, 0x01#8, 0x11#8, 0x31#8, 0x05#8]) = .ok (.rangeStep5 (rangeUse [])) ∧
    decode (.range [0x02#8, 0x00#8, 0x01#8, 0x11#8, 0x31#8, 0x06#8]) = .ok (.rangeStep6 (rangeUse [])) ∧
    decode (.range [0x02#8, 0x00#8, 0x01#8, 0x11#8, 0x31#8, 0x07#8]) = .ok (.rangeStep7 (rangeUse [])) ∧
    decode (.range [0x02#8, 0x00#8, 0x01#8, 0x11#8, 0x31#8, 0x08#8]) = .ok (.rangeStep8 (rangeUse [])) ∧
    decode (.range [0x02#8, 0x00#8, 0x01#8, 0x11#8, 0x31#8, 0x09#8]) = .error (.payload (.unknownRange 0x09#8) [0x02#8, 0x00#8, 0x01#8, 0x11#8, 0x31#8, 0x09#8]) := by decide

/-- R73: request tags. -/
theorem test_decode_req :
    decode (.req [0x01#8, 0x2A#8]) = .ok (.reqSetMode [0x2A#8]) ∧
    decode (.req [0x02#8, 0x2A#8]) = .ok (.reqSetRange [0x2A#8]) ∧
    decode (.req [0x03#8, 0x2A#8]) = .ok (.reqSetRef [0x2A#8]) ∧
    decode (.req [0x04#8, 0x2A#8]) = .ok (.reqSetMinMax [0x2A#8]) ∧
    decode (.req [0x05#8, 0x2A#8]) = .ok (.reqMonitor [0x2A#8]) ∧
    decode (.req [0x06#8, 0x2A#8]) = .ok (.reqSave [0x2A#8]) ∧
    decode (.req [0x07#8, 0x2A#8]) = .ok (.reqReadSave [0x2A#8]) ∧
    decode (.req [0x08#8, 0x2A#8]) = .ok (.reqSaveCount [0x2A#8]) ∧
    decode (.req [0x09#8, 0x2A#8]) = .ok (.reqDelSave [0x2A#8]) ∧
    decode (.req [0x0A#8, 0x2A#8]) = .ok (.reqRecStart [0x2A#8]) ∧
    decode (.req [0x0B#8, 0x2A#8]) = .ok (.reqRecStop [0x2A#8]) ∧
    decode (.req [0x0C#8, 0x2A#8]) = .ok (.reqRecInfo [0x2A#8]) ∧
    decode (.req [0x0D#8, 0x2A#8]) = .ok (.reqRecData [0x2A#8]) ∧
    decode (.req [0x0E#8, 0x2A#8]) = .ok (.reqRecCount [0x2A#8]) ∧
    decode (.req [0x12#8, 0x5A#8]) = .ok (.reqHold [0x5A#8]) ∧
    decode (.req [0x0F#8]) = .error (.request (.unknownRequest 0x0F#8) [0x0F#8]) := by decide

/-- Words of spec/opcode_table.json (log 12): a HOSTOP word, the marker, a reply code, and the words of one row only. -/
theorem test_tableWord :
    decodeTableWord 8 0x2 = some .scan ∧ decodeTableWord 16 0xCDAB = some (.frame 0#16 []) ∧
    decodeTableWord 16 0x5245 = some (.replyDeviceError []) ∧ decodeTableWord 8 0x72 = some (.msgReply []) ∧
    decodeTableWord 8 0x12 = some (.reqHold [0x00#8]) ∧ decodeTableWord 8 0x30 = none ∧
    decodeTableWord 8 0x40 = some (.measPeak .live ⟨false, false, false, false, false⟩ (List.replicate 55 0x00#8)) := by
  decide

/-- The first step after reset performs the operation of the word. -/
theorem test_withFetchWord :
    resultsAfter (step (State.reset.withFetchWord 8 0x2)) = some { status := .incomplete } ∧
    resultsAfter (step (State.reset.withFetchWord 16 0x4B4F)) = foundMsg (b [0x01, 0x4F, 0x4B]) .success ∧
    step State.reset = .refused .noOperation := by
  refine ⟨?_, ?_, rfl⟩ <;> decide

/-! ## Steps of host operations -/

/-- X11. -/
theorem test_reset :
    (after (exec .reset (holding (b [0xAB, 0xCD, 0x03])))).map (fun t => (t.rxbuf, t.results)) = some ([], { status := .idle }) := by
  decide

/-- X6. -/
theorem test_push_X6 :
    (after (exec (.push (List.replicate 7 0x11#8)) (capped frameF))).map (fun t => (t.rxbuf, t.results)) =
      some (frameF ++ List.replicate 7 0x11#8, { status := .done }) := by decide

/-- X5. -/
theorem test_push_X5 :
    (after (exec (.push (List.replicate 8 0x11#8)) (capped frameF))).map (fun t => (t.rxbuf, t.results)) =
      (refusedBy (.bufOverflow 9 8)).map (fun r => (frameF, r)) := by decide

/-- F16: a false candidate, then a valid one. -/
theorem test_scan_F16 :
    resultsAfter (exec .scan (holding (b [0xAB, 0xCD, 0x10, 0x00, 0xAB, 0xCD, 0x05, 0x00, 0x01, 0x4F, 0x4B, 0xA2, 0x00, 0x00, 0x00, 0x00, 0x00, 0x00, 0x00, 0x00]))) = foundMsg (b [0x01, 0x4F, 0x4B]) .success (some 13) := by decide

/-- F13: the short candidate at 0 hides the frame behind it. -/
theorem test_scan_F13 :
    resultsAfter (exec .scan (holding (b [0xAB, 0xCD, 0xAB, 0xCD, 0x05, 0x00, 0x01, 0x4F, 0x4B, 0xA2, 0x00]))) = some { status := .incomplete } := by decide

/-- X2, and 41_frame_scanner.md R100's example. -/
theorem test_drop_count :
    resultsAfter (exec (.drop (.count 2)) (holding [0xAB#8])) = refusedBy (.badDrop 2 1) ∧
    (after (exec (.drop (.count 7)) (holding (b [0xAB, 0xCD, 0x03, 0x00, 0x05, 0x0A, 0x00, 0xFF])))).map (·.rxbuf) = some [0xFF#8] := by decide

/-- R74 on F8's result: `99 AB` is left; with CONSUMED invalid there is no value to drop. -/
theorem test_drop_consumed :
    (after (exec (.drop .consumed) (holding (b [0x00, 0xFF, 0x12, 0xAB, 0xCD, 0x05, 0x00, 0x01, 0x4F, 0x4B, 0xA2, 0x00, 0x99, 0xAB])).scan)).map (·.rxbuf) = some (b [0x99, 0xAB]) ∧
    exec (.drop .consumed) blank = .fault (.invalidResultRead .consumed) := by
  refine ⟨?_, rfl⟩; decide

/-- K4 and K5: the order of the bytes does not matter. -/
theorem test_csum_K4 :
    resultsAfter (exec (.csum [0x01#8, 0x02#8]) blank) = some { status := .done, csumOut := some 0x0009#16 } ∧
    resultsAfter (exec (.csum [0x02#8, 0x01#8]) blank) = some { status := .done, csumOut := some 0x0009#16 } := by decide

/-- K7, K8: the two length bytes are added as bytes, not as a number. K10: the sum wraps. -/
theorem test_csum_seed :
    seed (lenField 253) = 0x0101#16 ∧ seed (lenField 254) = 0x0003#16 ∧
    seed (lenField 257) + BitVec.ofNat 16 (257 * 255) = 0x0005#16 := by decide

/-- K6. -/
theorem test_build_K6 :
    resultsAfter (exec (.build (b [0xAB, 0xCD])) blank) =
      some { status := .done, txbuf := some (b [0xAB, 0xCD, 0x04, 0x00, 0xAB, 0xCD, 0x7E, 0x01]) } := by decide

/-- K1. -/
theorem test_build_K1 :
    resultsAfter (exec (.build []) blank) = some { status := .done, txbuf := some (b [0xAB, 0xCD, 0x02, 0x00, 0x04, 0x00]) } := by decide

/-- T11. -/
theorem test_classify_T11 :
    resultsAfter (exec (.classify (b [0x06, 0x01])) blank) = foundErr (b [0x06, 0x01]) (.unknownMessageFormat 0x06#8) := by decide

/-- E10: the earlier field's error wins. -/
theorem test_classify_E10 :
    resultsAfter (exec (.classify (b [0x02, 0x02, 0x01, 0x11, 0x31, 0x03, 0x00, 0x00, 0xC0, 0x3F, 0x30, 0x6B, 0x56, 0x00, 0x00, 0x00, 0x00, 0x00, 0x00])) blank) =
      foundErr (b [0x02, 0x02, 0x01, 0x11, 0x31, 0x03, 0x00, 0x00, 0xC0, 0x3F, 0x30, 0x6B, 0x56, 0x00, 0x00, 0x00, 0x00, 0x00, 0x00]) (.unknownMeasurementUnit (b [0x6B, 0x56])) := by decide

/-- X10. -/
theorem test_reserved_X10 :
    resultsAfter (exec (.hostopReserved 8 ⟨[], .count 3⟩) blank) = refusedBy (.badOp 0xF#4) := by decide

/-- F7 presented as a frame. -/
theorem test_frame_F7 :
    resultsAfter (exec (.frame 5#16 (b [0x01, 0x4F, 0x4B, 0xA2, 0x00])) blank) = foundMsg (b [0x01, 0x4F, 0x4B]) .success (some 9) := by decide

/-- F22. -/
theorem test_frame_F22 :
    resultsAfter (exec (.frame 3#16 (b [0x05, 0x0A, 0x00])) blank) = foundErr [0x05#8] (.truncated 2 1) (some 7) := by decide

/-! ## Steps of payload rows -/

/-- T4. -/
theorem test_msgReplyCode_T4 :
    resultsAfter (exec (.msgReplyCode (b [0x4B, 0x4F])) blank) =
      foundErr (b [0x01, 0x4B, 0x4F]) (.unknownReplyCode 0x4F4B#16) := by decide

/-- T5. -/
theorem test_msgReplyCode_T5 :
    resultsAfter (exec (.msgReplyCode (b [0x4F])) blank) =
      foundErr (b [0x01, 0x4F]) (.truncated 3 2) := by decide

/-- M9. -/
theorem test_msgMeas_M9 :
    resultsAfter (exec (.msgMeas (b [0x01, 0x02, 0x11, 0x31, 0x03, 0x00, 0x00, 0xC0, 0x3F, 0x30, 0x56, 0x00, 0x00, 0x00, 0x00, 0x00, 0x00, 0x00])) blank) =
      foundMsg (b [0x02, 0x01, 0x02, 0x11, 0x31, 0x03, 0x00, 0x00, 0xC0, 0x3F, 0x30, 0x56, 0x00, 0x00, 0x00, 0x00, 0x00, 0x00, 0x00])
        (.measurement ⟨mtA, .step3, false, false, .normal (val false false 0x3FC00000#32 3 (some volt)) none none none⟩) := by decide

/-- E5. -/
theorem test_msgMeas_E5 :
    resultsAfter (exec (.msgMeas (b [0x00, 0x01, 0x22, 0x22, 0x09])) blank) =
      foundErr (b [0x02, 0x00, 0x01, 0x22, 0x22, 0x09]) (.unknownMeasurementMode 0x2222#16) := by decide

/-- S1. -/
theorem test_msgSaved_S1 :
    resultsAfter (exec (.msgSaved (b [0x57, 0x88, 0x41, 0x14, 0x00, 0x01, 0x11, 0x31, 0x03, 0x00, 0x00, 0xC0, 0x3F, 0x30, 0x56, 0x00, 0x00, 0x00, 0x00, 0x00, 0x00, 0x00])) blank) =
      foundMsg (b [0x03, 0x57, 0x88, 0x41, 0x14, 0x00, 0x01, 0x11, 0x31, 0x03, 0x00, 0x00, 0xC0, 0x3F, 0x30, 0x56, 0x00, 0x00, 0x00, 0x00, 0x00, 0x00, 0x00])
        (.savedMeasurement ⟨2023, 1, 2, 3, 4, 5⟩ ⟨mtA, .step3, false, true, .normal (val false false 0x3FC00000#32 3 (some volt)) none none none⟩) := by decide

/-- E18. -/
theorem test_msgSaved_E18 :
    resultsAfter (exec (.msgSaved (b [0x57, 0x8B, 0x41, 0x14, 0x30])) blank) =
      foundErr (b [0x03, 0x57, 0x8B, 0x41, 0x14, 0x30]) (.invalidDateTime ⟨2023, 13, 2, 3, 4, 5⟩) := by decide

/-- I1. -/
theorem test_msgRecInfo_I1 :
    resultsAfter (exec (.msgRecInfo (b [0x52, 0x45, 0x43, 0x31, 0x00, 0x00, 0x00, 0x00, 0x00, 0x00, 0x00, 0x56, 0x00, 0x00, 0x00, 0x00, 0x00, 0x00, 0x00, 0x3C, 0x00, 0x1E, 0x00, 0x00, 0x00, 0x08, 0x07, 0x00, 0x00, 0x00, 0x00, 0xC8, 0x42, 0x20, 0x00, 0x00, 0xC0, 0x3F, 0x20, 0x00, 0x00, 0x80, 0xBF, 0x20, 0x98, 0xF4, 0xBB, 0xEF])) blank) =
      foundMsg (b [0x04, 0x52, 0x45, 0x43, 0x31, 0x00, 0x00, 0x00, 0x00, 0x00, 0x00, 0x00, 0x56, 0x00, 0x00, 0x00, 0x00, 0x00, 0x00, 0x00, 0x3C, 0x00, 0x1E, 0x00, 0x00, 0x00, 0x08, 0x07, 0x00, 0x00, 0x00, 0x00, 0xC8, 0x42, 0x20, 0x00, 0x00, 0xC0, 0x3F, 0x20, 0x00, 0x00, 0x80, 0xBF, 0x20, 0x98, 0xF4, 0xBB, 0xEF])
        (.recordInfo ⟨b [0x52, 0x45, 0x43, 0x31], volt, 60, 30, 1800, val false false 0x42C80000#32 2 none,
          val false false 0x3FC00000#32 2 none, val false false 0xBF800000#32 2 none, ⟨2024, 2, 29, 23, 59, 59⟩⟩) := by decide

/-- I3. -/
theorem test_msgRecInfo_I3 :
    resultsAfter (exec (.msgRecInfo (b [0x52, 0x45, 0x43, 0x31, 0x00, 0x00, 0x00, 0x00, 0x00, 0x00, 0x00, 0x6B, 0x56, 0x00, 0x00, 0x00, 0x00, 0x00, 0x00])) blank) =
      foundErr (b [0x04, 0x52, 0x45, 0x43, 0x31, 0x00, 0x00, 0x00, 0x00, 0x00, 0x00, 0x00, 0x6B, 0x56, 0x00, 0x00, 0x00, 0x00, 0x00, 0x00]) (.unknownMeasurementUnit (b [0x6B, 0x56])) := by decide

/-- B1. -/
theorem test_msgRecData_B1 :
    resultsAfter (exec (.msgRecData (b [0x02, 0x00, 0x00, 0xC0, 0x3F, 0x30, 0x57, 0x88, 0x41, 0x14, 0x00, 0x00, 0xC8, 0x42, 0x21, 0x57, 0x88, 0x41, 0x18])) blank) =
      foundMsg (b [0x05, 0x02, 0x00, 0x00, 0xC0, 0x3F, 0x30, 0x57, 0x88, 0x41, 0x14, 0x00, 0x00, 0xC8, 0x42, 0x21, 0x57, 0x88, 0x41, 0x18])
        (.recordDataBatch [⟨val false false 0x3FC00000#32 3 none, ⟨2023, 1, 2, 3, 4, 5⟩⟩,
          ⟨val false true 0x42C80000#32 2 none, ⟨2023, 1, 2, 3, 4, 6⟩⟩]) := by decide

/-- B4. -/
theorem test_msgRecData_B4 :
    resultsAfter (exec (.msgRecData (b [0x01, 0x00, 0x00, 0xC0, 0x3F, 0x30, 0x57, 0x88, 0x41])) blank) =
      foundErr (b [0x05, 0x01, 0x00, 0x00, 0xC0, 0x3F, 0x30, 0x57, 0x88, 0x41]) (.truncated 11 10) := by decide

/-- T7. -/
theorem test_msgReply_T7 :
    resultsAfter (exec (.msgReply (b [0x03, 0x00])) blank) =
      foundMsg (b [0x72, 0x03, 0x00]) (.reply (b [0x03, 0x00])) := by decide

/-- T6. -/
theorem test_replySuccess_T6 :
    resultsAfter (exec (.replySuccess (b [0xFF, 0xEE])) blank) =
      foundMsg (b [0x01, 0x4F, 0x4B, 0xFF, 0xEE]) .success := by decide

/-- T2. -/
theorem test_replyDeviceError_T2 :
    resultsAfter (exec (.replyDeviceError ([])) blank) =
      foundMsg (b [0x01, 0x45, 0x52]) .deviceError := by decide

/-- M4: all optional fields. -/
theorem test_measNormal_M4 :
    resultsAfter (exec (.measNormal .live ⟨true, true, true, true, false⟩ (b [0x01, 0x11, 0x31, 0x03, 0x00, 0x00, 0xC0, 0x3F, 0x30, 0x56, 0x00, 0x00, 0x00, 0x00, 0x00, 0x00, 0x00, 0x00, 0x00, 0xC8, 0x42, 0x20, 0x48, 0x7A, 0x00, 0x00, 0x00, 0x00, 0x00, 0x00, 0x00, 0x00, 0x80, 0xBF, 0x42, 0x6D, 0x56, 0x00, 0x00, 0x00, 0x00, 0x00, 0x00, 0xDB, 0x0F, 0x49, 0x40, 0x56, 0x00, 0x00, 0x00, 0x00, 0x00, 0x00, 0x00])) blank) =
      foundMsg (b [0x02, 0x8E, 0x01, 0x11, 0x31, 0x03, 0x00, 0x00, 0xC0, 0x3F, 0x30, 0x56, 0x00, 0x00, 0x00, 0x00, 0x00, 0x00, 0x00, 0x00, 0x00, 0xC8, 0x42, 0x20, 0x48, 0x7A, 0x00, 0x00, 0x00, 0x00, 0x00, 0x00, 0x00, 0x00, 0x80, 0xBF, 0x42, 0x6D, 0x56, 0x00, 0x00, 0x00, 0x00, 0x00, 0x00, 0xDB, 0x0F, 0x49, 0x40, 0x56, 0x00, 0x00, 0x00, 0x00, 0x00, 0x00, 0x00])
        (.measurement ⟨mtA, .step3, true, true, .normal (val false false 0x3FC00000#32 3 (some volt)) (some (val false false 0x42C80000#32 2 (some hertz))) 
          (some (val true false 0xBF800000#32 4 (some milliVolt))) (some ⟨0x40490FDB#32, volt⟩)⟩) := by decide

/-- M8: tertiary without secondary. -/
theorem test_measNormal_M8 :
    resultsAfter (exec (.measNormal .live ⟨false, false, true, false, false⟩ (b [0x01, 0x11, 0x31, 0x03, 0x00, 0x00, 0xC0, 0x3F, 0x30, 0x56, 0x00, 0x00, 0x00, 0x00, 0x00, 0x00, 0x00, 0x00, 0x00, 0x80, 0xBF, 0x42, 0x6D, 0x56, 0x00, 0x00, 0x00, 0x00, 0x00, 0x00])) blank) =
      foundMsg (b [0x02, 0x04, 0x01, 0x11, 0x31, 0x03, 0x00, 0x00, 0xC0, 0x3F, 0x30, 0x56, 0x00, 0x00, 0x00, 0x00, 0x00, 0x00, 0x00, 0x00, 0x00, 0x80, 0xBF, 0x42, 0x6D, 0x56, 0x00, 0x00, 0x00, 0x00, 0x00, 0x00])
        (.measurement ⟨mtA, .step3, false, true, .normal (val false false 0x3FC00000#32 3 (some volt)) none 
          (some (val true false 0xBF800000#32 4 (some milliVolt))) none⟩) := by decide

/-- M5. -/
theorem test_measRelative_M5 :
    resultsAfter (exec (.measRelative .live ⟨false, true, false, false, false⟩ (b [0x00, 0x11, 0x11, 0x08, 0x00, 0x00, 0x80, 0xBF, 0x30, 0x56, 0x00, 0x00, 0x00, 0x00, 0x00, 0x00, 0x00, 0x00, 0x00, 0x80, 0x3F, 0x30, 0x56, 0x00, 0x00, 0x00, 0x00, 0x00, 0x00, 0x00, 0x00, 0x00, 0x00, 0x00, 0x30, 0x56, 0x00, 0x00, 0x00, 0x00, 0x00, 0x00, 0x00, 0xDB, 0x0F, 0x49, 0x40, 0x6D, 0x56, 0x00, 0x00, 0x00, 0x00, 0x00, 0x00])) blank) =
      foundMsg (b [0x02, 0x18, 0x00, 0x11, 0x11, 0x08, 0x00, 0x00, 0x80, 0xBF, 0x30, 0x56, 0x00, 0x00, 0x00, 0x00, 0x00, 0x00, 0x00, 0x00, 0x00, 0x80, 0x3F, 0x30, 0x56, 0x00, 0x00, 0x00, 0x00, 0x00, 0x00, 0x00, 0x00, 0x00, 0x00, 0x00, 0x30, 0x56, 0x00, 0x00, 0x00, 0x00, 0x00, 0x00, 0x00, 0xDB, 0x0F, 0x49, 0x40, 0x6D, 0x56, 0x00, 0x00, 0x00, 0x00, 0x00, 0x00])
        (.measurement ⟨mtB, .step8, false, false, .relative (val false false 0xBF800000#32 3 (some volt))
          (val false false 0x3F800000#32 3 (some volt)) (val false false 0x00000000#32 3 (some volt)) (some ⟨0x40490FDB#32, milliVolt⟩)⟩) := by decide

/-- M10: bits 2 and 1 change nothing. -/
theorem test_measRelative_M10 :
    resultsAfter (exec (.measRelative .live ⟨false, false, true, true, false⟩ (b [0x00, 0x11, 0x11, 0x08, 0x00, 0x00, 0x80, 0xBF, 0x30, 0x56, 0x00, 0x00, 0x00, 0x00, 0x00, 0x00, 0x00, 0x00, 0x00, 0x80, 0x3F, 0x30, 0x56, 0x00, 0x00, 0x00, 0x00, 0x00, 0x00, 0x00, 0x00, 0x00, 0x00, 0x00, 0x30, 0x56, 0x00, 0x00, 0x00, 0x00, 0x00, 0x00, 0x00])) blank) =
      foundMsg (b [0x02, 0x16, 0x00, 0x11, 0x11, 0x08, 0x00, 0x00, 0x80, 0xBF, 0x30, 0x56, 0x00, 0x00, 0x00, 0x00, 0x00, 0x00, 0x00, 0x00, 0x00, 0x80, 0x3F, 0x30, 0x56, 0x00, 0x00, 0x00, 0x00, 0x00, 0x00, 0x00, 0x00, 0x00, 0x00, 0x00, 0x30, 0x56, 0x00, 0x00, 0x00, 0x00, 0x00, 0x00, 0x00])
        (.measurement ⟨mtB, .step8, false, false, .relative (val false false 0xBF800000#32 3 (some volt))
          (val false false 0x3F800000#32 3 (some volt)) (val false false 0x00000000#32 3 (some volt)) none⟩) := by decide

/-- M6. -/
theorem test_measMinMax_M6 :
    resultsAfter (exec (.measMinMax .live ⟨false, false, false, false, false⟩ (b [0x01, 0x11, 0x31, 0x03, 0x6D, 0x56, 0x00, 0x00, 0x00, 0x00, 0x00, 0x00, 0x00, 0x00, 0xC0, 0x3F, 0x30, 0x0A, 0x00, 0x00, 0x00, 0x00, 0x00, 0xC8, 0x42, 0x31, 0x03, 0x00, 0x00, 0x00, 0x00, 0x00, 0x80, 0x3F, 0x30, 0x0A, 0x00, 0x00, 0x00, 0x00, 0x00, 0x80, 0xBF, 0x32, 0x00, 0x00, 0x01, 0x00])) blank) =
      foundMsg (b [0x02, 0x20, 0x01, 0x11, 0x31, 0x03, 0x6D, 0x56, 0x00, 0x00, 0x00, 0x00, 0x00, 0x00, 0x00, 0x00, 0xC0, 0x3F, 0x30, 0x0A, 0x00, 0x00, 0x00, 0x00, 0x00, 0xC8, 0x42, 0x31, 0x03, 0x00, 0x00, 0x00, 0x00, 0x00, 0x80, 0x3F, 0x30, 0x0A, 0x00, 0x00, 0x00, 0x00, 0x00, 0x80, 0xBF, 0x32, 0x00, 0x00, 0x01, 0x00])
        (.measurement ⟨mtA, .step3, false, true, .minMax milliVolt ⟨val false false 0x3FC00000#32 3 none, 10#32⟩
          ⟨val false true 0x42C80000#32 3 none, 3#32⟩ ⟨val false false 0x3F800000#32 3 none, 10#32⟩
          ⟨val true false 0xBF800000#32 3 none, 65536#32⟩⟩) := by decide

/-- E14: M6 one byte short. -/
theorem test_measMinMax_E14 :
    resultsAfter (exec (.measMinMax .live ⟨false, false, false, false, false⟩ (b [0x01, 0x11, 0x31, 0x03, 0x6D, 0x56, 0x00, 0x00, 0x00, 0x00, 0x00, 0x00, 0x00, 0x00, 0xC0, 0x3F, 0x30, 0x0A, 0x00, 0x00, 0x00, 0x00, 0x00, 0xC8, 0x42, 0x31, 0x03, 0x00, 0x00, 0x00, 0x00, 0x00, 0x80, 0x3F, 0x30, 0x0A, 0x00, 0x00, 0x00, 0x00, 0x00, 0x80, 0xBF, 0x32, 0x00, 0x00, 0x01])) blank) =
      foundErr (b [0x02, 0x20, 0x01, 0x11, 0x31, 0x03, 0x6D, 0x56, 0x00, 0x00, 0x00, 0x00, 0x00, 0x00, 0x00, 0x00, 0xC0, 0x3F, 0x30, 0x0A, 0x00, 0x00, 0x00, 0x00, 0x00, 0xC8, 0x42, 0x31, 0x03, 0x00, 0x00, 0x00, 0x00, 0x00, 0x80, 0x3F, 0x30, 0x0A, 0x00, 0x00, 0x00, 0x00, 0x00, 0x80, 0xBF, 0x32, 0x00, 0x00, 0x01]) (.truncated 50 49) := by decide

/-- M7. -/
theorem test_measPeak_M7 :
    resultsAfter (exec (.measPeak .live ⟨true, false, false, false, false⟩ (b [0x01, 0x11, 0x31, 0x01, 0x00, 0x00, 0xC8, 0x42, 0x10, 0x56, 0x00, 0x00, 0x00, 0x00, 0x00, 0x00, 0x00, 0x00, 0x00, 0x80, 0xBF, 0x10, 0x56, 0x00, 0x00, 0x00, 0x00, 0x00, 0x00, 0x00])) blank) =
      foundMsg (b [0x02, 0xC0, 0x01, 0x11, 0x31, 0x01, 0x00, 0x00, 0xC8, 0x42, 0x10, 0x56, 0x00, 0x00, 0x00, 0x00, 0x00, 0x00, 0x00, 0x00, 0x00, 0x80, 0xBF, 0x10, 0x56, 0x00, 0x00, 0x00, 0x00, 0x00, 0x00, 0x00])
        (.measurement ⟨mtA, .step1, true, true, .peak (val false false 0x42C80000#32 1 (some volt))
          (val false false 0xBF800000#32 1 (some volt))⟩) := by decide

/-- E12. -/
theorem test_measPeak_E12 :
    resultsAfter (exec (.measPeak .live ⟨false, false, false, false, false⟩ (b [0x01, 0x11, 0x31, 0x03, 0x00, 0x00, 0xC8, 0x42, 0x10, 0x56, 0x00, 0x00, 0x00, 0x00, 0x00, 0x00, 0x00, 0x00, 0x00, 0x80, 0xBF, 0x10, 0x56, 0x00, 0x00, 0x00, 0x00])) blank) =
      foundErr (b [0x02, 0x40, 0x01, 0x11, 0x31, 0x03, 0x00, 0x00, 0xC8, 0x42, 0x10, 0x56, 0x00, 0x00, 0x00, 0x00, 0x00, 0x00, 0x00, 0x00, 0x00, 0x80, 0xBF, 0x10, 0x56, 0x00, 0x00, 0x00, 0x00]) (.truncated 32 29) := by decide

/-- The range of a message that is a live measurement. -/
def rangeOf (o : Host.Outcome State Fault Refusal) : Option Range :=
  match (after o).bind (·.results.msg) with
  | some (.measurement m) => some m.range
  | _ => none

/-- M1 with each range byte (RG0 to RG8). -/
def m1Use : RangeUse :=
  ⟨.live, .normal, ⟨false, false, false, false, false⟩, 0x01#8, 0x3111#16, b [0x00, 0x00, 0xC0, 0x3F, 0x30, 0x56, 0x00, 0x00, 0x00, 0x00, 0x00, 0x00, 0x00]⟩

theorem test_ranges :
    rangeOf (exec (.rangeAuto m1Use) blank) = some .auto ∧
    rangeOf (exec (.rangeStep1 m1Use) blank) = some .step1 ∧
    rangeOf (exec (.rangeStep2 m1Use) blank) = some .step2 ∧
    rangeOf (exec (.rangeStep3 m1Use) blank) = some .step3 ∧
    rangeOf (exec (.rangeStep4 m1Use) blank) = some .step4 ∧
    rangeOf (exec (.rangeStep5 m1Use) blank) = some .step5 ∧
    rangeOf (exec (.rangeStep6 m1Use) blank) = some .step6 ∧
    rangeOf (exec (.rangeStep7 m1Use) blank) = some .step7 ∧
    rangeOf (exec (.rangeStep8 m1Use) blank) = some .step8 := by
  refine ⟨?_, ?_, ?_, ?_, ?_, ?_, ?_, ?_, ?_⟩ <;> decide

/-- RANGE.STEP3 gives the whole message of M1. -/
theorem test_range_M1 :
    (resultsAfter (exec (.rangeStep3 m1Use) blank)).bind (·.msg) =
      some (.measurement ⟨mtA, .step3, false, true, .normal (val false false 0x3FC00000#32 3 (some volt)) none none none⟩) := by decide

/-- The frame of a request payload of one byte `t`: length 3, checksum 2 + 3 + 0 + t (R80). -/
def requestFrame (t : Nat) : Option Results :=
  some { status := .done, txbuf := some (b [0xAB, 0xCD, 0x03, 0x00, t, t + 5, 0x00]) }

theorem test_requests :
    resultsAfter (exec (.reqSetMode []) blank) = requestFrame 0x01 ∧
    resultsAfter (exec (.reqSetRange []) blank) = requestFrame 0x02 ∧
    resultsAfter (exec (.reqSetRef []) blank) = requestFrame 0x03 ∧
    resultsAfter (exec (.reqSetMinMax []) blank) = requestFrame 0x04 ∧
    resultsAfter (exec (.reqMonitor []) blank) = requestFrame 0x05 ∧
    resultsAfter (exec (.reqSave []) blank) = requestFrame 0x06 ∧
    resultsAfter (exec (.reqReadSave []) blank) = requestFrame 0x07 ∧
    resultsAfter (exec (.reqSaveCount []) blank) = requestFrame 0x08 ∧
    resultsAfter (exec (.reqDelSave []) blank) = requestFrame 0x09 ∧
    resultsAfter (exec (.reqRecStart []) blank) = requestFrame 0x0A ∧
    resultsAfter (exec (.reqRecStop []) blank) = requestFrame 0x0B ∧
    resultsAfter (exec (.reqRecInfo []) blank) = requestFrame 0x0C ∧
    resultsAfter (exec (.reqRecData []) blank) = requestFrame 0x0D ∧
    resultsAfter (exec (.reqRecCount []) blank) = requestFrame 0x0E := by
  refine ⟨?_, ?_, ?_, ?_, ?_, ?_, ?_, ?_, ?_, ?_, ?_, ?_, ?_, ?_⟩ <;> decide

/-- PG5: monitor on. -/
theorem test_reqMonitor :
    resultsAfter (exec (.reqMonitor [0x01#8]) blank) =
      some { status := .done, txbuf := some (b [0xAB, 0xCD, 0x04, 0x00, 0x05, 0x01, 0x0C, 0x00]) } := by decide

/-- T16's checksum 0x0072. -/
theorem test_reqHold :
    resultsAfter (exec (.reqHold [0x5A#8]) blank) =
      some { status := .done, txbuf := some (b [0xAB, 0xCD, 0x04, 0x00, 0x12, 0x5A, 0x72, 0x00]) } := by decide

/-! ## Primitive codecs and the host's side -/

/-- DT1 to DT6, DT10 to DT13, DT16. -/
theorem test_dateTimes :
    decDateTime (b [0x57, 0x88, 0x41, 0x14]) 0 = .ok ⟨2023, 1, 2, 3, 4, 5⟩ ∧
    decDateTime (b [0x57, 0x8B, 0x41, 0x14]) 0 = .error (.invalidDateTime ⟨2023, 13, 2, 3, 4, 5⟩) ∧
    decDateTime (b [0x98, 0xF4, 0xBB, 0xEF]) 0 = .ok ⟨2024, 2, 29, 23, 59, 59⟩ ∧
    decDateTime (b [0x97, 0x74, 0x00, 0x00]) 0 = .error (.invalidDateTime ⟨2023, 2, 29, 0, 0, 0⟩) ∧
    decDateTime (b [0x40, 0x04, 0x00, 0x00]) 0 = .ok ⟨2000, 1, 1, 0, 0, 0⟩ ∧
    decDateTime (b [0x3F, 0xFF, 0xBB, 0xEF]) 0 = .ok ⟨2063, 12, 31, 23, 59, 59⟩ ∧
    decDateTime (b [0x17, 0x7D, 0x00, 0x00]) 0 = .error (.invalidDateTime ⟨2023, 4, 31, 0, 0, 0⟩) ∧
    decDateTime (b [0x57, 0x04, 0x0C, 0x00]) 0 = .error (.invalidDateTime ⟨2023, 1, 1, 24, 0, 0⟩) ∧
    decDateTime (b [0x57, 0x04, 0xC0, 0x03]) 0 = .error (.invalidDateTime ⟨2023, 1, 1, 0, 60, 0⟩) ∧
    decDateTime (b [0x57, 0x04, 0x00, 0xF0]) 0 = .error (.invalidDateTime ⟨2023, 1, 1, 0, 0, 60⟩) ∧
    decDateTime (b [0xFF, 0xFF, 0xFF, 0xFF]) 0 = .error (.invalidDateTime ⟨2063, 15, 31, 31, 63, 63⟩) := by decide

/-- UN3, UN5, UN6. -/
theorem test_units :
    decUnitExp tc (b [0x6D, 0x56, 0x00, 0x41, 0x42, 0x00, 0x00, 0x00]) 0 = .ok milliVolt ∧
    decUnitExp tc (b [0x56, 0x56, 0x56, 0x56, 0x56, 0x56, 0x56, 0x56]) 0 = .error (.unknownMeasurementUnit (b [0x56, 0x56, 0x56, 0x56, 0x56, 0x56, 0x56, 0x56])) ∧
    decUnitExp tc (b [0x00, 0x00, 0x00, 0x00, 0x00, 0x00, 0x00, 0x00]) 0 = .error (.unknownMeasurementUnit []) := by decide

/-- MD1 to MD3. -/
theorem test_modes :
    decMode tc (le16 (b [0x11, 0x31])) = .ok mtA ∧ decMode tc (le16 (b [0x31, 0x11])) = .error (.unknownMeasurementMode 0x1131#16) ∧
    encMode tc mtB = some 0x1111#16 := by decide

/-- Section 6.1: 0x32, 0x21, 0xF1, 0xFF. -/
theorem test_flags :
    mkValue 0 0x32#8 none = val true false 0 3 none ∧ mkValue 0 0x21#8 none = val false true 0 2 none ∧
    mkValue 0 0xF1#8 none = val false true 0 15 none ∧ mkValue 0 0xFF#8 none = val false true 0 15 none := by decide

/-- A session with reads to come. -/
def session (rx : Bytes) (drops : Bool) (reads : List TransportRead) : Session :=
  ⟨{ blank with rxbuf := rx, config := { tc with hostDrops := drops } }, 0, reads, [], []⟩

/-- Q8, first half: the Success frame in three reads. -/
theorem test_readMessage :
    (readMessage (session [] true 
      [{ bytes := b [0xAB, 0xCD, 0x05], ms := 100 }, { bytes := b [0x00, 0x01, 0x4F], ms := 100 },
       { bytes := b [0x4B, 0xA2, 0x00], ms := 100 }])).1 = .ok .success := by
  decide

/-- Q8, second half: at the deadline, not before. -/
theorem test_waitTimeout :
    (readMessage (session [] true [{ bytes := [], ms := 4999 }])).1 = .error .waitTimeout ∧
    (readMessage (session [] true [{ bytes := [], ms := 4999 }])).2.now = 5000 ∧
    (readMessage (session [] true [{ bytes := [], ms := 4999 }, { bytes := frameF, ms := 0 }])).1 = .ok .success := by decide

/-- PG3, both policies. -/
def pg3 : Bytes := b [0xAB, 0xCD, 0x03, 0x00, 0x05, 0x0A, 0x00, 0xAB, 0xCD, 0x05, 0x00, 0x01, 0x4F, 0x4B, 0xA2, 0x00]

theorem test_hostPolicy :
    (readMessage (session pg3 true [])).1 = .error (.block .truncated (.pair 2 1)) ∧
    (readMessage (session pg3 true [])).2.block.rxbuf = frameF ∧
    (readMessage (session pg3 false [])).2.block.rxbuf = pg3 := by decide

/-- R177: a violation fails with nothing written; R174: a write that fails; R84: a request that BUILD refuses. -/
theorem test_commands :
    startRecording (fun n _ _ => n) (b [0x41]) 3601 1 (session [] true []) = (.error .invalidInput, session [] true []) ∧
    deleteSave (fun _ => []) 0xFFFF (session [] true []) = (.error .invalidInput, session [] true []) ∧
    (deleteAllSaves (fun i => b [i % 256, i / 256]) (session frameF true [])).1 = .ok .success ∧
    (deleteAllSaves (fun i => b [i % 256, i / 256]) (session frameF true [])).2.sent =
      [b [0xAB, 0xCD, 0x05, 0x00, 0x09, 0xFF, 0xFF, 0x0E, 0x02]] ∧
    (command [0x06#8] (· == .success) { session frameF true [] with writes := [false] }).1 = .error .transport := by
  decide

/-- PG6 in one buffer: a Success before the reply is discarded, two batches are concatenated, the third is empty, and the cursor
of each request counts the items so far. -/
theorem test_getRecordData :
    let batches := frameF ++
      b [0xAB, 0xCD, 0x16, 0x00, 0x05, 0x02, 0x00, 0x00, 0xC0, 0x3F, 0x30, 0x57, 0x88, 0x41, 0x14, 0x00, 0x00, 0xC8, 0x42, 0x21,
        0x57, 0x88, 0x41, 0x18, 0xE5, 0x04] ++
      b [0xAB, 0xCD, 0x0D, 0x00, 0x05, 0x01, 0x00, 0x00, 0x80, 0xBF, 0x32, 0x57, 0x88, 0x41, 0x1C, 0xC2, 0x02] ++
      b [0xAB, 0xCD, 0x04, 0x00, 0x05, 0x00, 0x0B, 0x00]
    let r := getRecordData (fun c => [BitVec.ofNat 8 c]) (· + ·) 0 (session batches true [])
    r.1.toOption.map (·.map (·.v.magnitude)) = some [0x3FC00000#32, 0x42C80000#32, 0xBF800000#32] ∧
    r.2.sent = [frameOf [0x0D#8, 0#8], frameOf [0x0D#8, 2#8], frameOf [0x0D#8, 3#8]] ∧ r.2.block.rxbuf = [] := by
  decide

/-- R174, R175: a DeviceError is a CommandError; a buffered message that is not accepted is discarded and the wait goes on. -/
theorem test_awaitReply :
    (awaitReply (· == .success) (session (frameOf (b [0x01, 0x45, 0x52]) ++ frameF) true [])).1 = .error .commandError ∧
    (awaitReply (· == .success) (session (frameOf (b [0x72]) ++ frameF) true [])).1 = .ok .success ∧
    (awaitReply (· == .success) (session (frameOf (b [0x72])) true [⟨frameF, 4999, by decide⟩])).1 = .ok .success ∧
    (awaitReply (· == .success) (session (frameOf (b [0x72])) true [])).2.now = 5000 := by decide

/-- R71, R73: values of no row, presented. -/
theorem test_illegal :
    resultsAfter (step { blank with requests := [.msg [0x06#8]] }) = foundErr [0x06#8] (.unknownMessageFormat 0x06#8) ∧
    resultsAfter (step { blank with requests := [.meas [0x02#8, 0x30#8]] }) =
      foundErr [0x02#8, 0x30#8] (.unknownMeasurementKind 0x30#8) ∧
    resultsAfter (step { blank with requests := [.req [0x0F#8]] }) =
      some { status := .done, txbuf := some (b [0xAB, 0xCD, 0x03, 0x00, 0x0F, 0x14, 0x00]) } ∧
    resultsAfter (step { blank with requests := [.frame ([0x00#8] ++ frameF)] }) =
      foundMsg (b [0x01, 0x4F, 0x4B]) .success (some 10) := by decide

/-- R177. -/
theorem test_inputs :
    recordNameOk (b [0x52, 0x45, 0x43, 0x31]) = true ∧ recordNameOk (List.replicate 11 0x41#8) = false ∧ recordNameOk [0x1F#8] = false ∧
    intervalOk 0 = false ∧ intervalOk 3600 = true ∧ intervalOk 3601 = false ∧ durationOk 143999 = true ∧
    durationOk 144000 = false ∧ saveIndexOk 0 = false ∧ saveIndexOk 0xFFFE = true ∧ saveIndexOk 0xFFFF = false := by decide


/-! ## Witnesses: the hypotheses of each statement, met together -/

theorem length_zeros_le {n : Nat} (h : n ≤ 65533) : (zeros n).length ≤ 65533 := by rw [length_zeros]; exact h

theorem isMarker_bound {rx : Bytes} {P : Nat → Prop} (h : ∀ m < rx.length, IsMarker rx m → P m) (m : Nat)
    (hm : IsMarker rx m) : P m := h m (by have := hm.lt; omega) hm

/-- ReservedOpIsRefused, first and last code. -/
theorem test_witness_reserved : 7 ≤ (0x7#4).toNat ∧ 7 ≤ (0xF#4).toNat := by decide

/-- PushAppendsOrIsRefused: the last count that fits, and the first that does not. -/
theorem test_witness_push :
    (∀ cap, (capped frameF).config.rxCap = some cap → (capped frameF).rxbuf.length + (zeros 7).length ≤ cap) ∧
    ∃ cap, (capped frameF).config.rxCap = some cap ∧ cap < (capped frameF).rxbuf.length + (zeros 8).length :=
  ⟨by intro cap h; cases h; decide, 16, rfl, by decide⟩

/-- DropRemovesPrefixOrIsRefused. -/
theorem test_witness_drop : 9 ≤ (holding frameF).rxbuf.length ∧ (holding frameF).rxbuf.length < 10 := by decide

/-- The state after a SCAN of `F`. -/
def found : State :=
  { holding frameF with results := { status := .foundMsg, consumed := some 9, payload := some (b [0x01, 0x4F, 0x4B]),
                                     msg := some .success } }

theorem blank_good : blank.Good where
  cap := by intro c h; cases h
  cfg := by decide
  valid := rfl
  plen := by intro p h; cases h
  msg := by intro p m h; cases h
  consumed := by intro c h; cases h
  tx := by intro t h; cases h

theorem found_good : found.Good where
  cap := by intro c h; cases h
  cfg := by decide
  valid := ⟨_, _, _, rfl⟩
  plen := by intro p h; cases h; decide
  msg := by intro p m h hm; cases h; cases hm; rfl
  consumed := by intro c h; cases h; exact ⟨0, by decide, by decide, by decide, by decide⟩
  tx := by intro t h; cases h

/-- DropConsumedUsesTheRegister, StatusDecidesValidRegisters, both clauses. -/
theorem test_witness_dropConsumed : (found.Good ∧ found.results.consumed = some 9) ∧ blank.results.consumed = none :=
  ⟨⟨found_good, rfl⟩, rfl⟩

/-- OnlyPushDropResetChangeTheBuffer, NoOperationChangesTheConfiguration, ScanHasThreeOutcomesAndRepeats. -/
theorem test_witness_exec : exec .scan (holding frameF) = .next (holding frameF).scan := rfl

/-- CsumIsTheSumFormula, BuildMakesTheFrame, BuiltFrameScansBack, ClassifyReportsTheDecoder: the empty payload and the longest
one, on an unbounded buffer; and the longest that a buffer of 16 bytes holds. -/
theorem test_witness_payload :
    ([] : Bytes).length ≤ 65533 ∧ (zeros 65533).length ≤ 65533 ∧ blank.config.rxCap = none ∧
    (capped []).config.rxCap = some 16 ∧ (zeros 10).length + 6 ≤ 16 :=
  ⟨by decide, length_zeros_le (by omega), rfl, rfl, by decide⟩

/-- RequestRowsAreFramed. -/
theorem test_witness_request : (0x12#8 :: zeros 65532).length ≤ 65533 := by rw [List.length_cons, length_zeros]

/-- OverlongPayloadIsRefused. -/
theorem test_witness_overlong : 65533 < (zeros 65534).length := by rw [length_zeros]; omega

/-- ScanIsDecidedByFirstCandidateNotFalse, a valid candidate: F16 decides at 4, behind a false one, and decodes; F20 does not
decode. -/
theorem test_witness_scan_valid :
    (let rx := b [0xAB, 0xCD, 0x10, 0x00, 0xAB, 0xCD, 0x05, 0x00, 0x01, 0x4F, 0x4B, 0xA2, 0x00, 0, 0, 0, 0, 0, 0, 0]
     IsFalse rx 0 ∧ Decides rx 4 ∧ IsValid rx 4 ∧ classify tc (payloadAt rx 4) = .ok .success) ∧
    (let rx := b [0xAB, 0xCD, 0x02, 0x00, 0x04, 0x00]
     Decides rx 0 ∧ IsValid rx 0 ∧ classify tc (payloadAt rx 0) = .error (.truncated 1 0)) := by
  refine ⟨⟨?_, ?_, ?_, ?_⟩, ?_, ?_, ?_⟩ <;> decide

/-- The other two clauses: F3 and F6 are short, F23 and the empty buffer hold no candidate that is not false. -/
theorem test_witness_scan_incomplete :
    (Decides (b [0xAB, 0xCD]) 0 ∧ IsShort (b [0xAB, 0xCD]) 0) ∧
    (Decides (frameF.take 8) 0 ∧ IsShort (frameF.take 8) 0) ∧
    (∀ m, IsMarker [] m → IsFalse [] m) ∧
    (∀ m, IsMarker (b [0xAB, 0xCD, 0x03, 0x00, 0x05, 0x12, 0x21]) m →
      IsFalse (b [0xAB, 0xCD, 0x03, 0x00, 0x05, 0x12, 0x21]) m) :=
  ⟨by decide, by decide, isMarker_bound (by decide), isMarker_bound (by decide)⟩

/-- FramesAreFoundOrAwaited: F8 and F9 (garbage that is a corrupt frame), and the prefixes of 0 and of n + 5 bytes. -/
theorem test_witness_frames :
    (let p := b [0x01, 0x4F, 0x4B]
     let g := b [0x00, 0xFF, 0x12]
     p.length ≤ 65533 ∧ (holding (g ++ frameOf p ++ b [0x99, 0xAB])).rxbuf = g ++ frameOf p ++ b [0x99, 0xAB] ∧
       ∀ m < g.length, IsMarker (g ++ frameOf p ++ b [0x99, 0xAB]) m → IsFalse (g ++ frameOf p ++ b [0x99, 0xAB]) m) ∧
    (let p := b [0x01, 0x4F, 0x4B]
     let g := b [0xAB, 0xCD, 0x05, 0x00, 0x01, 0x4F, 0x4B, 0xA3, 0x00]
     ∀ m < g.length, IsMarker (g ++ frameOf p) m → IsFalse (g ++ frameOf p) m) ∧
    (0 < 9 ∧ blank.rxbuf = (frameOf (b [0x01, 0x4F, 0x4B])).take 0) ∧
    (8 < 9 ∧ (holding (frameF.take 8)).rxbuf = (frameOf (b [0x01, 0x4F, 0x4B])).take 8) := by decide

/-- ShortCandidateStallsTheScan: F15 with up to one byte less than it takes. -/
theorem test_witness_stall :
    let rx := b [0xAB, 0xCD, 0x10, 0x00, 0xAB, 0xCD, 0x05, 0x00, 0x01, 0x4F, 0x4B, 0xA2, 0x00]
    Decides rx 0 ∧ 0 + 4 ≤ rx.length ∧ 2 ≤ lenAt rx 0 ∧ rx.length + (zeros 6).length < 0 + 4 + lenAt rx 0 := by decide

/-- FrameRowIsPushedAndScanned: both sides of the capacity; a right and a wrong checksum; lengths 0 and 1. -/
theorem test_witness_frameRow :
    ((b [0x05, 0x0A, 0x00]).length = (3#16).toNat ∧
      (∀ cap, (capped frameF).config.rxCap = some cap →
        (capped frameF).rxbuf.length + ((b [0x05, 0x0A, 0x00]).length + 4) ≤ cap)) ∧
    ((b [0x00, 0x00, 0x00, 0x00]).length = (4#16).toNat ∧ (capped frameF).config.rxCap = some 16 ∧
      16 < (capped frameF).rxbuf.length + ((b [0x00, 0x00, 0x00, 0x00]).length + 4)) ∧
    (blank.rxbuf = [] ∧ blank.config.rxCap = none) ∧
    (b [0x05, 0x0A, 0x00] = [0x05#8] ++ [0x0A#8, 0x00#8] ∧
      (0x0A#8).toNat + 256 * (0x00#8).toNat = sumFormula [0x05#8]) ∧
    ((∀ m, 0 < m → ¬ IsMarker (frameBytes 3#16 (b [0x05, 0x12, 0x21])) m) ∧
      (0x12#8).toNat + 256 * (0x21#8).toNat ≠ sumFormula [0x05#8]) ∧
    (∀ m, 0 < m → ¬ IsMarker (frameBytes 0#16 []) m) ∧ (0#16).toNat < 2 ∧
    (∀ m, 0 < m → ¬ IsMarker (frameBytes 1#16 [0x05#8]) m) ∧ (1#16).toNat < 2 := by
  refine ⟨⟨by decide, by intro cap h; cases h; decide⟩, by decide, ⟨rfl, rfl⟩, by decide, ⟨?_, by decide⟩, ?_, by decide, ?_,
    by decide⟩ <;>
  exact fun m hm h => isMarker_bound (P := fun m => ¬ 0 < m) (by decide) m h hm

/-- NoHiddenStateInfluencesResults: two states that differ in everything else. -/
theorem test_witness_hidden :
    let s := holding frameF
    let t : State := { s with acc := 7#16, lenr := 9#16, scanoff := 4, freeTick := 3, requests := [.req []],
                              results := { status := .done, csumOut := some 1#16 } }
    s.rxbuf = t.rxbuf ∧ s.config = t.config ∧ s.results.consumed = t.results.consumed ∧ s ≠ t ∧
      exec .scan s = .next s.scan ∧ exec .scan t = .next t.scan := by
  refine ⟨rfl, rfl, rfl, by decide, rfl, rfl⟩

/-- ClassifyReportsTheDecoder, both clauses; ExtraBytesAreIgnored; TruncatedNamesTheLengths. -/
theorem test_witness_classify :
    classify tc (b [0x01, 0x4F, 0x4B]) = .ok .success ∧ classify tc [] = .error (.truncated 1 0) ∧
    (b [0x01, 0x4F, 0x4B]).head? ≠ some 0x72#8 ∧ (b [0x01, 0x4F, 0x4B] ++ b [0xFF, 0xEE]).length ≤ 65533 ∧
    exec (.classify (b [0x01, 0x4F, 0x4B])) blank = .next (afterMsg blank (b [0x01, 0x4F, 0x4B]) .success) := by
  refine ⟨by decide, by decide, by decide, by decide, rfl⟩

/-- PayloadRowsAreClassify, each format. -/
theorem test_witness_rows :
    rowPayload (.msgReply [0x03#8]) = some [0x72#8, 0x03#8] ∧ rowPayload (.replySuccess []) = some (b [0x01, 0x4F, 0x4B]) ∧
    rowPayload (.measPeak .live ⟨true, false, false, false, false⟩ []) = some [0x02#8, 0xC0#8] ∧
    rowPayload (.rangeStep8 (rangeUse [])) = some (b [0x02, 0x00, 0x01, 0x11, 0x31, 0x08]) := by decide

/-- UnknownTagEndsClassification: the tags next to the assigned ones. -/
theorem test_witness_tag :
    (∀ tag ∈ b [0x00, 0x06, 0x71, 0x73, 0xFF], tag ∉ [0x01#8, 0x02#8, 0x03#8, 0x04#8, 0x05#8, 0x72#8]) ∧
    (0x06#8 :: zeros 65532).length ≤ 65533 := ⟨by decide, by rw [List.length_cons, length_zeros]⟩

/-- ReplyCodesDecode, RawReplyIsVerbatim: the longest payloads, and codes that are neither reply. -/
theorem test_witness_reply :
    (zeros 65530).length + 3 ≤ 65533 ∧ (zeros 65532).length + 1 ≤ 65533 ∧
    (0x4B#8).toNat + 256 * (0x4F#8).toNat ≠ 0x4B4F ∧ (0x4B#8).toNat + 256 * (0x4F#8).toNat ≠ 0x5245 :=
  ⟨by rw [length_zeros], by rw [length_zeros], by decide, by decide⟩

/-- SavedDateTimeErrorWins: DT2, before the longest rest; no byte and three bytes (E19) of a date/time. -/
theorem test_witness_saved :
    (zeros 65528).length + 5 ≤ 65533 ∧ validDateTime (unpackDateTime 0x57#8 0x8B#8 0x41#8 0x14#8) = false ∧
    ([] : Bytes).length < 4 ∧ (b [0x57, 0x88, 0x41]).length < 4 :=
  ⟨by rw [length_zeros], by decide, by decide, by decide⟩

def leapDay : DateTime := ⟨2024, 2, 29, 23, 59, 59⟩

/-- RecordInfoDecodes: I1's fields and the longest tail. -/
theorem test_witness_recordInfo :
    blank.config.recInfo = defaultRecInfo ∧ (b [0x52, 0x45, 0x43, 0x31, 0, 0, 0, 0, 0, 0, 0]).length = 11 ∧
    UnitField blank.config (b [0x56, 0, 0, 0, 0, 0, 0, 0]) volt ∧ Packable leapDay ∧ 49 + (zeros 65484).length ≤ 65533 :=
  ⟨rfl, by decide, by decide, by decide, by rw [length_zeros]⟩

def item : WireItem := ⟨0x3FC00000#32, 0x30#8, ⟨2023, 1, 2, 3, 4, 5⟩⟩

/-- RecordDataDecodes: no item, and 255 of them. -/
theorem test_witness_recordData :
    (([] : List WireItem).length ≤ 255 ∧ 2 + 9 * ([] : List WireItem).length + (zeros 65531).length ≤ 65533) ∧
    ((List.replicate 255 item).length ≤ 255 ∧ (∀ i ∈ List.replicate 255 item, Packable i.ts) ∧
      2 + 9 * (List.replicate 255 item).length + ([] : Bytes).length ≤ 65533) := by
  refine ⟨⟨by decide, by rw [length_zeros]; decide⟩, by rw [List.length_replicate], ?_, by rw [List.length_replicate]; decide⟩
  intro i hi
  rw [(List.mem_replicate.mp hi).2]
  decide

/-- FirstBadItemFailsTheBatch: B3 (the first item is bad), and a bad second item of two; B4 (8 bytes of an item), and 0, 4 and 5
bytes. -/
theorem test_witness_badItem :
    ([] : List WireItem).length < (0x02#8).toNat ∧ [item].length < (0x02#8).toNat ∧ (∀ i ∈ [item], Packable i.ts) ∧
    2 + 9 * ([item].length + 1) + ([] : Bytes).length ≤ 65533 ∧
    validDateTime (unpackDateTime 0x57#8 0x8B#8 0x41#8 0x14#8) = false ∧ ([] : List WireItem).length < (0x01#8).toNat ∧
    (b [0x00, 0x00, 0xC0, 0x3F, 0x30, 0x57, 0x88, 0x41]).length < 9 ∧ ([] : Bytes).length < 9 ∧
    (b [0x00, 0x00, 0xC0, 0x3F]).length < 9 ∧ (b [0x00, 0x00, 0xC0, 0x3F, 0x30]).length < 9 := by decide

/-- TruncatedNamesTheLengths. -/
theorem test_witness_truncated : classify tc [0x05#8] = .error (.truncated 2 1) := by decide

/-! ### Measurements -/

def wireVolt : WireValue := ⟨0x3FC00000#32, 0x30#8, b [0x56, 0, 0, 0, 0, 0, 0, 0], volt⟩
def wireMilli : WireValue := ⟨0xBF800000#32, 0x42#8, b [0x6D, 0x56, 0, 0x41, 0, 0, 0, 0], milliVolt⟩
def wireFast : WireFast := ⟨0x40490FDB#32, b [0x56, 0, 0, 0, 0, 0, 0, 0], volt⟩
def wireTimed : WireTimed := ⟨0x3FC00000#32, 0x31#8, 65536#32⟩

/-- No optional field, and all of them. -/
def bodyMain : WireBody := .normal wireVolt none none none
def bodyAll : WireBody := .normal wireVolt (some wireMilli) (some wireVolt) (some wireFast)
def bodyRelative : WireBody := .relative wireVolt wireMilli wireVolt (some wireFast)
def bodyMinMax : WireBody := .minMax (b [0x6D, 0x56, 0, 0, 0, 0, 0, 0]) milliVolt wireTimed wireTimed wireTimed wireTimed
def bodyPeak : WireBody := .peak wireVolt wireMilli

def noFlags : HdrFlags := ⟨false, false, false, false, false⟩
def allFlags : HdrFlags := ⟨true, true, true, true, true⟩

/-- The body's conditions, for every kind. -/
theorem test_witness_bodies :
    bodyMain.Ok blank.config noFlags ∧ bodyAll.Ok blank.config allFlags ∧ bodyRelative.Ok blank.config allFlags ∧
    bodyMinMax.Ok blank.config noFlags ∧ bodyPeak.Ok blank.config allFlags := by
  refine ⟨⟨by decide, by simp, by simp, by simp, rfl, rfl, rfl, by simp⟩,
    ⟨by decide, ?_, ?_, ?_, rfl, rfl, rfl, fun _ => rfl⟩, ⟨by decide, by decide, by decide, ?_, rfl, fun _ => rfl⟩,
    ⟨by decide, rfl⟩, ⟨by decide, by decide⟩⟩
  all_goals intro v hv; cases hv; decide

/-- The rest of the premises of the four kinds' statements and of the range rows, under either tag. -/
theorem test_witness_meas (w : WireBody) (hw : w.bytes.length ≤ 100) (f : HdrFlags) (r : Range) :
    MeasOk blank none 0x3111#16 mtA (measPayload (carrierOf none) (hdrByte w.kind f) (afterHeader 0x01#8 0x3111#16 r w [])) ∧
    MeasOk blank (some leapDay) 0x1111#16 mtB
      (measPayload (carrierOf (some leapDay)) (hdrByte w.kind f) (afterHeader 0x00#8 0x1111#16 r w (b [0xDE, 0xAD]))) := by
  refine ⟨⟨?_, by simp [PackableOpt], by decide⟩, ⟨?_, ?_, by decide⟩⟩
  · simp [measPayload, Carrier.lead, carrierOf, afterHeader, le16Bytes]; omega
  · simp [measPayload, Carrier.lead, carrierOf, afterHeader, le16Bytes, encDateTime, le32Bytes, b]; omega
  · intro x hx; cases hx; decide

/-- Those premises hold of each body above. -/
theorem test_witness_lengths :
    bodyMain.bytes.length ≤ 100 ∧ bodyAll.bytes.length ≤ 100 ∧ bodyRelative.bytes.length ≤ 100 ∧
    bodyMinMax.bytes.length ≤ 100 ∧ bodyPeak.bytes.length ≤ 100 := by decide

/-- TaggedMeasurementsDecode: the lengths of both tags. -/
theorem test_witness_tagged :
    (hdrByte bodyAll.kind allFlags :: afterHeader 0x01#8 0x3111#16 .step8 bodyAll []).length + 5 ≤ 65533 ∧
    tableGet blank.config.modeTable 0x3111#16 = some mtA ∧ Packable leapDay := by decide

/-- RangeRowsDecode: its payload is one of `test_witness_meas`. -/
theorem test_witness_range :
    bodyPeak.Ok blank.config allFlags ∧
    MeasOk blank none 0x3111#16 mtA
      ((⟨carrierOf none, bodyPeak.kind, allFlags, 0x01#8, 0x3111#16, bodyPeak.bytes ++ []⟩ : RangeUse).payload 0x00#8) :=
  ⟨test_witness_bodies.2.2.2.2, (test_witness_meas bodyPeak test_witness_lengths.2.2.2.2 allFlags .auto).1⟩

/-- MeasurementHeaderErrorsInOrder: E1, E5, E6, under either tag. -/
theorem test_witness_headerErrors :
    PackableOpt none ∧ PackableOpt (some leapDay) ∧
    (0x30#8).toNat / 16 % 8 ∉ [0, 1, 2, 4] ∧ (0x00#8).toNat / 16 % 8 ∈ [0, 1, 2, 4] ∧
    (0xC0#8).toNat / 16 % 8 ∈ [0, 1, 2, 4] ∧ tableGet blank.config.modeTable 0x2222#16 = none ∧
    (tableGet blank.config.modeTable 0x3111#16).isSome ∧ 9 ≤ (0x09#8).toNat ∧
    (measPayload .live 0x30#8 (b [0x01, 0xFF, 0xFF, 0xFF])).length ≤ 65533 ∧
    (measPayload .live 0x00#8 (0x01#8 :: (le16Bytes 0x2222#16 ++ [0x09#8]))).length ≤ 65533 ∧
    (measPayload .live 0x00#8 (0x01#8 :: (le16Bytes 0x3111#16 ++ 0x09#8 :: []))).length ≤ 65533 := by
  refine ⟨by simp [PackableOpt], ?_, by decide, by decide, by decide, by decide, by decide, by decide, by decide, by decide,
    by decide⟩
  intro x hx; cases hx; decide

/-- UnknownUnitIsReported: E8's field, the layouts' offsets, and one byte short of a Value and of a fast value. -/
theorem test_witness_unit :
    (b [0x6B, 0x56, 0, 0, 0, 0, 0, 0]).length = 8 ∧ tableGet tc.unitTable (cstr (b [0x6B, 0x56, 0, 0, 0, 0, 0, 0])) = none ∧
    12 < 13 ∧ tc.fastUnitW = 8 ∧ 11 < 12 ∧ (b [0x02, 0x20, 0x01, 0x11, 0x31, 0x03]).length = 1 + tc.minMax.unit ∧
    tc.recInfo = defaultRecInfo ∧ (zeros 11).length = 11 := by decide

/-- ShortMeasurementsNeverDecode: one byte less than each minimum. -/
theorem test_witness_short :
    (zeros 16).length + 1 < 18 ∧ (zeros 42).length + 1 < 44 ∧ blank.config.minMax = defaultMinMax ∧
    (zeros 47).length + 1 < 49 ∧ (zeros 29).length + 1 < 31 := by decide

/-! ### Codecs and the machine -/

/-- DateTimeFieldsAreBitRanges: DT6 is packable, DT16 is not; one byte short; the first and the last
year. -/
theorem test_witness_dateTime :
    b [0x01, 0x3F, 0xFF, 0xBB, 0xEF] = [0x01#8] ++ [0x3F#8, 0xFF#8, 0xBB#8, 0xEF#8] ++ [] ∧ [0x01#8].length = 1 ∧
    Packable ⟨2063, 12, 31, 23, 59, 59⟩ ∧ ¬ Packable ⟨2063, 15, 31, 31, 63, 63⟩ ∧
    (b [0x01, 0x3F, 0xFF, 0xBB]).length < 1 + 4 ∧ 2000 ≤ 2063 ∧ 2000 % 4 = 0 ∧ 2063 % 4 ≠ 0 := by decide

/-- DateTimeRoundTrips: the lowest and the highest date/time. -/
theorem test_witness_packable : Packable ⟨2000, 1, 1, 0, 0, 0⟩ ∧ Packable ⟨2063, 12, 31, 23, 59, 59⟩ := by decide

/-- ModeTableBothWays. -/
theorem test_witness_config : tc.Ok := by decide

/-- RangeByteDecodes, at the boundary. -/
theorem test_witness_rangeByte : 9 ≤ (0x09#8).toNat ∧ (0x08#8).toNat < 9 := by decide

/-- CStrEndsAtFirstNul: UN3 at offset 1 ends at 2; an empty field, one that is its own NUL, and UN5 with no NUL. -/
theorem test_witness_cstr :
    (let s := b [0xFF, 0x6D, 0x56, 0, 0x41, 0x42, 0, 0, 0]
     1 + 8 ≤ s.length ∧ 2 < 8 ∧ s[1 + 2]? = some 0x00#8 ∧ ∀ i < 2, s[1 + i]? ≠ some 0x00#8) ∧
    (let s := b [0x00]
     0 + 1 ≤ s.length ∧ 0 < 1 ∧ s[0 + 0]? = some 0x00#8) ∧
    (let s := List.replicate 8 0x56#8
     0 + 8 ≤ s.length ∧ ∀ i < 8, s[0 + i]? ≠ some 0x00#8) := by decide

/-- A state in which the host has issued a SCAN. -/
def issued : State := { found with requests := [.hostop .scan] }

/-- StepKeepsGoodStates, StepRunsTheOldestOperation. -/
theorem test_witness_step :
    issued.Good ∧ (∃ t, step issued = .next t) ∧ issued.requests = .hostop .scan :: [] ∧
    decode (.hostop .scan) = .ok .scan :=
  ⟨⟨found_good.cap, found_good.cfg, found_good.valid, found_good.plen, found_good.msg, found_good.consumed, found_good.tx⟩,
    ⟨_, rfl⟩, rfl, rfl⟩

/-- EveryOperationEnds: its premise is met by `DROP CONSUMED` after a found frame, and by any other instruction. -/
theorem test_witness_ends :
    (Instr.drop .consumed = .drop .consumed → found.results.consumed ≠ none) ∧
    (Instr.scan = .drop .consumed → blank.results.consumed ≠ none) :=
  ⟨fun _ => by decide, fun h => by cases h⟩

/-- ErrorsChangeOnlyTheResults: a refusal, and a payload that does not decode. -/
theorem test_witness_errors :
    (exec (.drop (.count 1)) blank = .next (blank.refuse (.badDrop 1 0)) ∧
      (blank.refuse (.badDrop 1 0)).results.status = .refused) ∧
    (exec (.msgRecData []) blank = .next (afterError blank [0x05#8] (.truncated 2 1)) ∧
      (afterError blank [0x05#8] (.truncated 2 1)).results.status = .foundErr) := ⟨⟨rfl, rfl⟩, rfl, rfl⟩

/-- OperationsSetTheirStatusCodes: each operation has a next state. -/
theorem test_witness_status :
    (∃ t, exec .reset blank = .next t) ∧ (∃ t, exec (.push []) blank = .next t) ∧
    (∃ t, exec (.drop .consumed) found = .next t) ∧ (∃ t, exec (.csum []) blank = .next t) ∧
    (∃ t, exec (.build []) blank = .next t) ∧ (∃ t, exec (.classify []) blank = .next t) ∧
    ∃ t, exec .scan blank = .next t :=
  ⟨⟨_, rfl⟩, ⟨_, rfl⟩, ⟨_, rfl⟩, ⟨_, rfl⟩, ⟨_, rfl⟩, ⟨_, rfl⟩, ⟨_, rfl⟩⟩

/-- IllegalValuesTakeTheirEffect: one request for each clause, at the values next to the legal ones, and a capacity that the
bytes just fit and just do not. -/
theorem test_witness_illegal :
    (decode (.frame [0x00#8]) = .error (.stream .notAFrame [0x00#8]) ∧
      (capped (zeros 15)).config.rxCap = some 16 ∧ (zeros 15).length + [0x00#8].length ≤ 16 ∧
      16 < (zeros 16).length + [0x00#8].length) ∧
    decode (.replyCode [0x01#8, 0x4F#8]) = .error (.payload .tooShort [0x01#8, 0x4F#8]) ∧
    decode (.req [0x0F#8]) = .error (.request (.unknownRequest 0x0F#8) [0x0F#8]) ∧
    0x06#8 ∉ [0x01#8, 0x02#8, 0x03#8, 0x04#8, 0x05#8, 0x72#8] ∧ (0x30#8).toNat / 16 % 8 ∉ [0, 1, 2, 4] ∧
    ((0x40#8).toNat / 16 % 8 ∈ [0, 1, 2, 4] ∧ (tableGet blank.config.modeTable 0x3111#16).isSome ∧ 9 ≤ (0x09#8).toNat) ∧
    (∀ tag ∈ [0x00#8, 0x0F#8, 0x11#8, 0x13#8],
      (tag : Byte).toNat ∉ [1, 2, 3, 4, 5, 6, 7, 8, 9, 10, 11, 12, 13, 14, 18]) := by decide

/-- DecodeInvertsEncode (its statement's premise), EncodeInvertsDecode. -/
theorem test_witness_encoding :
    (Instr.reqHold [0x5A#8]).wellFormed = true ∧ (Instr.frame 5#16 (b [0x01, 0x4F, 0x4B, 0xA2, 0x00])).wellFormed = true ∧
    decode (.req [0x12#8, 0x5A#8]) = .ok (.reqHold [0x5A#8]) := by decide

/-- ReadMessageCompactsTheBuffer: F8. -/
theorem test_witness_readMessage :
    let h := session (b [0x00, 0xFF, 0x12] ++ frameF ++ b [0x99, 0xAB]) true []
    exec .scan h.block = .next h.block.scan ∧ h.block.scan.results.msg = some .success ∧
      h.block.scan.results.consumed = some 12 ∧ 12 ≤ h.block.rxbuf.length := by
  refine ⟨rfl, ?_, ?_, ?_⟩ <;> decide

/-- WaitTimeoutNotBeforeTheDeadline: each wait times out, a reply fails by DeviceError, is accepted, or is discarded; a batch with
an item, and none. -/
theorem test_witness_timeout :
    let request (_ : Nat) : Bytes := []
    let ask (rx : Bytes) := command (0x0D#8 :: request 0) (fun m => (batchItems m).isSome) (session rx true [])
    (readMessage (session [] true [])).1 = .error .waitTimeout ∧
    (awaitReply (fun _ => true) (session [] true [])).1 = .error .waitTimeout ∧
    (getRecordData request (· + ·) 0 (session [] true [])).1 = .error .waitTimeout ∧
    (readMessage (session (frameOf (b [0x01, 0x45, 0x52])) true [])).1 = .ok .deviceError ∧
    (readMessage (session frameF true [])).1 = .ok .success ∧
    (ask []).1 = .error .waitTimeout ∧ (ask (frameOf (b [0x05, 0x00]))).1 = .ok (.recordDataBatch []) ∧
    (∃ i, (ask (frameOf (0x05#8 :: 0x01#8 :: item.bytes))).1 = .ok (.recordDataBatch [i])) ∧
    (getRecordData request (· + ·) 0 (session (frameOf (b [0x05, 0x00])) true [])).1 = .ok [] := by
  refine ⟨?_, ?_, ?_, ?_, ?_, ?_, ?_, ⟨item.item, ?_⟩, ?_⟩ <;> decide

/-- DecodeErrorFollowsTheHostPolicy: PG3, both policies. -/
theorem test_witness_policy (drops : Bool) :
    let h := session pg3 drops []
    exec .scan h.block = .next h.block.scan ∧ h.block.scan.results.status = .foundErr ∧
      h.block.scan.results.errCode = some .truncated ∧ h.block.scan.results.errInfo = some (.pair 2 1) ∧
      h.block.scan.results.msg = none ∧ h.block.scan.results.consumed = some 7 ∧ 7 ≤ h.block.rxbuf.length ∧
      h.block.config.hostDrops = drops := by
  cases drops <;> refine ⟨rfl, ?_, ?_, ?_, ?_, ?_, ?_, rfl⟩ <;> decide

end Sys2Proof.Tests
end

section
/-! The frame codec's sum (40_frame_codec.md R80, R81). -/

namespace Sys2Proof.Machine

/-- CSUM always steps (R81): a payload that is too long is reported in STATUS, not by a fault. -/
theorem exec_csum (p : Bytes) (s : State) : exec (.csum p) s = .next (s.csum p) := rfl

/-- Settles O8: CSUMOUT is the checksum of the payload, whose number is the closed formula. -/
theorem csumIsTheSumFormula : Obligations.CsumIsTheSumFormula := by
  intro p s hp
  refine ⟨s.csum p, checksum p, exec_csum p s, checksum_toNat hp, ?_⟩
  rw [csum_fits hp]
  rfl

end Sys2Proof.Machine
end

section
/-! The classifier's tag byte (42_message_classifier.md R110, R118). -/

namespace Sys2Proof.Machine

/-- CLASSIFY always steps (R111): the decoder's error is reported in STATUS, not by a fault. -/
theorem exec_classify (p : Bytes) (s : State) :
    exec (.classify p) s = .next (s.classified p (classify s.config p)) := rfl

/-- The decoder refuses a tag outside the table without reading past it (R118). -/
theorem classify_unknownTag (cfg : Config) {tag : Byte} (rest : Bytes)
    (htag : tag ∉ [0x01#8, 0x02#8, 0x03#8, 0x04#8, 0x05#8, 0x72#8]) :
    classify cfg (tag :: rest) = .error (.unknownMessageFormat tag) := by
  simp only [classify, readByte_cons, bind, Except.bind]
  split
  case h_7 => rfl
  all_goals
    -- the tag is the one this arm of the decoder lists
    rename_i hlisted
    exact absurd (by simp [← BitVec.toNat_inj, hlisted]) htag

/-- Settles O21: the decoder refuses the tag, and CLASSIFY reports that error (R111). -/
theorem unknownTagEndsClassification : Obligations.UnknownTagEndsClassification := by
  intro s tag rest hfits htag
  rw [exec_classify, classify_unknownTag s.config rest htag, classified_error hfits]

end Sys2Proof.Machine
end

section
/-! The mode code (44_primitive_codecs.md R153, R154). -/

namespace Sys2Proof.Machine

/-- A key of a table without repeated keys has exactly the value of its entry. -/
theorem tableGet_eq_some_iff {α β : Type} [DecidableEq α] {t : List (α × β)} {k : α} {v : β}
    (hkeys : (t.map (·.1)).Nodup) : tableGet t k = some v ↔ (k, v) ∈ t :=
  ⟨tableGet_mem, tableGet_of_mem hkeys⟩

/-- A value of a table without repeated values has exactly the key of its entry. -/
theorem tableKey_eq_some_iff {α β : Type} [DecidableEq β] {t : List (α × β)} {k : α} {v : β}
    (hvals : (t.map (·.2)).Nodup) : tableKey t v = some k ↔ (k, v) ∈ t :=
  ⟨tableKey_mem, tableKey_of_mem hvals⟩

/-- DecMode answers with an identifier only where the mode table has one (R153). -/
theorem decMode_eq_ok_iff {cfg : Config} {code : Half} {id : ModeId} :
    decMode cfg code = .ok id ↔ tableGet cfg.modeTable code = some id := by
  simp only [decMode]
  cases tableGet cfg.modeTable code <;> simp

/-- Settles O42: both directions say that the table holds the entry of the code and the identifier. -/
theorem modeTableBothWays : Obligations.ModeTableBothWays := by
  intro cfg hcfg code id
  obtain ⟨⟨hkeys, hvals⟩, -⟩ := hcfg
  calc decMode cfg code = .ok id
    _ ↔ tableGet cfg.modeTable code = some id := decMode_eq_ok_iff
    _ ↔ (code, id) ∈ cfg.modeTable := tableGet_eq_some_iff hkeys
    _ ↔ tableKey cfg.modeTable id = some code := (tableKey_eq_some_iff hvals).symm

end Sys2Proof.Machine
end

section
/-! The range byte (44_primitive_codecs.md R155). -/

namespace Sys2Proof.Machine

/-- What DecRange can answer: the range whose code the byte is, or, from 9 on, the error of that byte. -/
theorem decRange_cases (b : Byte) :
    (b.toNat < 9 ∧ ∃ r, decRange b = .ok r ∧ encRange r = b) ∨
      (9 ≤ b.toNat ∧ decRange b = .error (.unknownMeasurementRange b)) := by
  simp only [decRange]
  split
  case h_10 =>
    -- the byte's number is none of the nine codes
    refine .inr ⟨?_, rfl⟩
    simp only [imp_false] at *
    omega
  all_goals
    -- the byte's number is the one this arm of the decoder lists
    rename_i hlisted
    exact .inl ⟨by omega, _, rfl, BitVec.eq_of_toNat_eq hlisted.symm⟩

/-- A byte decodes to a range exactly when it is that range's code. -/
theorem decRange_eq_ok_iff {b : Byte} {r : Range} : decRange b = .ok r ↔ encRange r = b := by
  constructor
  · intro h
    obtain ⟨-, r', hdec, henc⟩ | ⟨-, herr⟩ := decRange_cases b
    · obtain rfl : r' = r := Except.ok.inj (hdec.symm.trans h)
      exact henc
    · rw [herr] at h
      cases h
  · rintro rfl
    exact decRange_encRange r

/-- Settles O43: every byte falls under one of the decoder's two outcomes, and the nine codes are EncRange's own table. -/
theorem rangeByteDecodes : Obligations.RangeByteDecodes := by
  refine ⟨fun b => ⟨fun r => decRange_eq_ok_iff, ?_, ?_⟩, rfl, rfl, rfl, rfl, rfl, rfl, rfl, rfl, rfl⟩
  · intro hb
    obtain ⟨hlt, -⟩ | ⟨-, herr⟩ := decRange_cases b
    · omega
    · exact herr
  · intro hb
    obtain ⟨-, r, hdec, -⟩ | ⟨hge, -⟩ := decRange_cases b
    · exact ⟨r, hdec⟩
    · omega

end Sys2Proof.Machine
end

section
/-! The flags byte (44_primitive_codecs.md R150). -/

namespace Sys2Proof.Machine

/-- Settles O39: both sides say the same digits of the byte's number. -/
theorem flagsByteDecodes : Obligations.FlagsByteDecodes := by
  intro f
  have hf : f.toNat < 256 := f.isLt
  refine ⟨?_, ?_, ?_⟩
  · simp only [overloadNeg_eq, ← BitVec.testBit_toNat, Nat.testBit_eq_decide_div_mod_eq,
      decide_eq_true_eq, decide_eq_false_iff_not]
    omega
  · simp only [overloadPos_eq, ← BitVec.testBit_toNat, Nat.testBit_eq_decide_div_mod_eq,
      decide_eq_true_eq]
    omega
  · simp only [precisionOf_eq, BitVec.toNat_ofNat]
    omega

end Sys2Proof.Machine
end

section
/-! The host operations by name, and a frame in RXBUF as SCAN finds it (30_encoding.md R51, 41_frame_scanner.md R96). -/

namespace Sys2Proof.Machine

theorem exec_push (b : Bytes) (s : State) : exec (.push b) s = .next (s.push b) := rfl

theorem exec_scan (s : State) : exec .scan s = .next s.scan := rfl

theorem exec_drop (k : Nat) (s : State) : exec (.drop (.count k)) s = .next (s.drop k) := rfl

theorem exec_build (p : Bytes) (s : State) : exec (.build p) s = .next (s.build p) := rfl

theorem exec_hostopReserved (k : Fin 9) (x : Operand) (s : State) :
    exec (.hostopReserved k x) s = .next (afterRefusal s (.badOp (reservedOp k))) := rfl

/-- What is fixed of the state after RESET (R220). -/
theorem exec_reset (s : State) : ∃ t, exec .reset s = .next t ∧ t.rxbuf = [] ∧ t.results = { status := .idle } ∧
    t.config = s.config ∧ t.requests = s.requests := ⟨_, rfl, rfl, rfl, rfl, rfl⟩

theorem exec_dropConsumed {s : State} {c : Nat} (h : s.results.consumed = some c) :
    exec (.drop .consumed) s = .next (s.drop c) := by
  simp only [exec, execDrop, h]

theorem exec_dropConsumed_invalid {s : State} (h : s.results.consumed = none) :
    exec (.drop .consumed) s = .fault (.invalidResultRead .consumed) := by
  simp only [exec, execDrop, h]

/-- What SCAN and CLASSIFY report of a payload, whatever it decodes to (R96, R111). -/
theorem report_results (s : State) (p : Bytes) (c : Option Nat) (r : Except DecodeError Message) :
    ((s.report p c r).results.status = .foundMsg ∨ (s.report p c r).results.status = .foundErr) ∧
      (s.report p c r).results.payload = some p ∧ (s.report p c r).results.consumed = c := by
  cases r with
  | ok m => exact ⟨.inl rfl, rfl, rfl⟩
  | error e => exact ⟨.inr rfl, rfl, rfl⟩

/-- A frame behind bytes whose marker offsets are all *false* is the one SCAN finds (R98, R102). -/
theorem scan_frame_found {s : State} {p g t : Bytes} (hp : p.length ≤ 65533) (hrx : s.rxbuf = g ++ frameOf p ++ t)
    (hfalse : ∀ m < g.length, IsMarker s.rxbuf m → IsFalse s.rxbuf m) :
    (s.scan.results.status = .foundMsg ∨ s.scan.results.status = .foundErr) ∧
      s.scan.results.payload = some p ∧ s.scan.results.consumed = some (g.length + (p.length + 6)) ∧
      ∀ msg, classify s.config p = .ok msg → s.scan.results.status = .foundMsg ∧ s.scan.results.msg = some msg := by
  have hat : StandsAt s.rxbuf g.length (frameOf p) := ⟨g, t, by rw [hrx, List.append_assoc], rfl⟩
  obtain ⟨hmarker, hlen, hpay, hvalid⟩ := frame_at hp hat
  obtain ⟨r, h⟩ := scan_valid ⟨hmarker, hfalse⟩ hvalid
  rw [hpay, hlen, show g.length + 4 + (p.length + 2) = g.length + (p.length + 6) by omega] at h
  rw [h]
  obtain ⟨hstatus, hpayload, hconsumed⟩ := report_results (s.withScanRegs r) p (some (g.length + (p.length + 6)))
    (classify s.config p)
  refine ⟨hstatus, hpayload, hconsumed, fun msg hmsg => ?_⟩
  rw [hmsg]
  exact ⟨rfl, rfl⟩

/-- Settles O12: in the buffer that RESET left empty the frame stands alone, so SCAN finds it. -/
theorem builtFrameScansBack : Obligations.BuiltFrameScansBack := by
  intro p s hp hcap
  obtain ⟨b, hb, hbrx, -, hbcfg, -⟩ := exec_reset (s.build p)
  have hfits : b.pushFits (frameOf p).length = true := by
    rw [pushFits_iff, hbcfg, hbrx, build_fits hp]
    simpa using hcap
  have hc := push_fits hfits
  have hcrx : (b.push (frameOf p)).rxbuf = [] ++ frameOf p ++ [] := by rw [hc, hbrx]; simp
  obtain ⟨hstatus, hpay, hconsumed, -⟩ := scan_frame_found hp hcrx (by simp)
  refine ⟨_, b, _, _, frameOf p, exec_build p s, by rw [build_fits hp]; rfl, hb, exec_push _ b, exec_scan _, hstatus,
    hpay, by simpa using hconsumed, by simpa using hcrx⟩

end Sys2Proof.Machine
end

section
/-! Good states (10_state.md R10 to R19, 00_scope.md R222): the state after reset is good, and every step keeps it so. -/

namespace Sys2Proof.Machine

/-- What the result registers of a good state must say about each other and about RXBUF; the rest of `State.Good` is about
RXBUF and the configuration, which most operations leave alone. -/
theorem State.Good.withResults {s t : State} (h : s.Good) (hrx : t.rxbuf = s.rxbuf) (hcfg : t.config = s.config)
    (valid : t.results.Valid)
    (plen : ∀ p, t.results.payload = some p → p.length ≤ 65533)
    (msg : ∀ p m, t.results.payload = some p → t.results.msg = some m → classify s.config p = .ok m)
    (consumed : ∀ c, t.results.consumed = some c →
      ∃ m, IsMarker s.rxbuf m ∧ IsValid s.rxbuf m ∧ t.results.payload = some (payloadAt s.rxbuf m) ∧
        c = m + 4 + lenAt s.rxbuf m)
    (tx : ∀ x, t.results.txbuf = some x →
      ∃ p : Bytes, p.length ≤ 65533 ∧ x.length = p.length + 6 ∧ IsValid x 0 ∧ IsMarker x 0 ∧ payloadAt x 0 = p) :
    t.Good where
  cap := by rw [hcfg, State.rxlen, hrx]; exact h.cap
  cfg := hcfg ▸ h.cfg
  valid := valid
  plen := plen
  msg := hcfg ▸ msg
  consumed := hrx ▸ consumed
  tx := tx

/-- A state in which PAYLOAD, CONSUMED and TXBUF are invalid is good when its buffer, its configuration and its STATUS
are. -/
theorem good_of_blank {t : State} (cap : ∀ c, t.config.rxCap = some c → t.rxbuf.length ≤ c) (cfg : t.config.Ok)
    (valid : t.results.Valid) (hp : t.results.payload = none) (hc : t.results.consumed = none)
    (ht : t.results.txbuf = none) : t.Good where
  cap := cap
  cfg := cfg
  valid := valid
  plen p h := by simp [hp] at h
  msg p m h := by simp [hp] at h
  consumed c h := by simp [hc] at h
  tx x h := by simp [ht] at h

theorem State.Good.afterRefusal {s : State} (h : s.Good) (e : OpRefusal) : (afterRefusal s e).Good :=
  good_of_blank h.cap h.cfg ⟨e, rfl⟩ rfl rfl rfl

theorem State.Good.withoutRequest {s : State} (h : s.Good) (rest : List Request) :
    ({ s with requests := rest } : State).Good :=
  h.withResults rfl rfl h.valid h.plen h.msg h.consumed h.tx

/-- A reported decode is good when CONSUMED, where it is valid, is the end of the payload's frame (R15, R38). -/
theorem State.Good.report {s : State} (h : s.Good) {p : Bytes} {c : Option Nat} (hp : p.length ≤ 65533)
    (hc : ∀ n, c = some n → ∃ m, IsMarker s.rxbuf m ∧ IsValid s.rxbuf m ∧ p = payloadAt s.rxbuf m ∧
      n = m + 4 + lenAt s.rxbuf m) : (s.report p c (classify s.config p)).Good := by
  have hconsumed : ∀ n, c = some n → ∃ m, IsMarker s.rxbuf m ∧ IsValid s.rxbuf m ∧
      some p = some (payloadAt s.rxbuf m) ∧ n = m + 4 + lenAt s.rxbuf m := by simpa using hc
  cases hm : classify s.config p with
  | ok m =>
    refine h.withResults rfl rfl ⟨p, m, c, rfl⟩ ?_ ?_ hconsumed (fun x hx => by cases hx)
    · rintro q ⟨⟩; exact hp
    · rintro q m' ⟨⟩ ⟨⟩; exact hm
  | error e =>
    refine h.withResults rfl rfl ⟨p, c, e, rfl⟩ ?_ (fun q m _ hx => by cases hx) hconsumed (fun x hx => by cases hx)
    rintro q ⟨⟩; exact hp

/-- CLASSIFY of a payload that fits reports what it decodes to. -/
theorem classified_fits {s : State} {p : Bytes} {r : Except DecodeError Message} (h : p.length ≤ 65533) :
    s.classified p r = s.report p none r := by
  simp [State.classified, maxPayload, Nat.not_lt.mpr h]

theorem State.Good.classified {s : State} (h : s.Good) (p : Bytes) : (s.classified p (classify s.config p)).Good := by
  rcases Nat.lt_or_ge 65533 p.length with hp | hp
  · rw [classified_long hp]
    exact h.afterRefusal _
  · rw [classified_fits hp]
    exact h.report hp (by simp)

theorem State.Good.build {s : State} (h : s.Good) (p : Bytes) : (s.build p).Good := by
  obtain ⟨hp, e⟩ | ⟨-, e⟩ := build_cases s p <;> rw [e]
  · obtain ⟨hmarker, -, hpay, hvalid⟩ := frame_at hp (b := frameOf p) (o := 0) ⟨[], [], by simp, rfl⟩
    refine h.withResults rfl rfl (.inr ⟨_, rfl⟩) (fun q hx => by cases hx) (fun q m hx => by cases hx)
      (fun c hx => by cases hx) ?_
    rintro x ⟨⟩
    exact ⟨p, hp, length_frameOf p, hvalid, hmarker, hpay⟩
  · exact h.afterRefusal _

theorem State.Good.csum {s : State} (h : s.Good) (p : Bytes) : (s.csum p).Good := by
  obtain ⟨-, e⟩ | ⟨-, e⟩ := csum_cases s p <;> rw [e]
  · exact good_of_blank h.cap h.cfg (.inl ⟨_, rfl⟩) rfl rfl rfl
  · exact h.afterRefusal _

theorem State.Good.push {s : State} (h : s.Good) (b : Bytes) : (s.push b).Good := by
  obtain ⟨hfits, e⟩ | ⟨-, e⟩ := push_cases s b <;> rw [e]
  · refine good_of_blank (fun c hc => ?_) h.cfg (.inl ⟨none, rfl⟩) rfl rfl rfl
    simpa using pushFits_iff.mp hfits c hc
  · exact h.afterRefusal _

theorem State.Good.drop {s : State} (h : s.Good) (k : Nat) : (s.drop k).Good := by
  obtain ⟨-, e⟩ | ⟨-, e⟩ := drop_cases s k <;> rw [e]
  · refine good_of_blank (fun c hc => ?_) h.cfg (.inl ⟨none, rfl⟩) rfl rfl rfl
    have := h.cap c hc
    simp only [State.rxlen] at this
    simp only [List.length_drop]
    omega
  · exact h.afterRefusal _

theorem length_payloadAt_le (b : Bytes) (m : Nat) : (payloadAt b m).length ≤ 65533 := by
  have := lenAt_lt b m
  simp only [payloadAt, slice, List.length_take, List.length_drop]
  omega

theorem State.Good.scan {s : State} (h : s.Good) : s.scan.Good := by
  obtain ⟨r, ⟨m, hd, hv, e⟩ | ⟨-, e⟩⟩ := scan_cases s <;> rw [e]
  · have hr : (s.withScanRegs r).Good := h.withResults rfl rfl h.valid h.plen h.msg h.consumed h.tx
    exact hr.report (length_payloadAt_le _ _) fun n hn => ⟨m, hd.1, hv, rfl, (Option.some.inj hn).symm⟩
  · exact good_of_blank h.cap h.cfg rfl rfl rfl rfl

theorem State.Good.pushScan {s : State} (h : s.Good) (b : Bytes) : (s.pushScan b).Good := by
  rw [State.pushScan]
  split
  · exact (h.push b).scan
  · exact h.push b

/-- Every instruction keeps good states good. -/
theorem State.Good.exec {i : Instr} {s t : State} (h : s.Good) (he : exec i s = .next t) : t.Good := by
  cases shape i with
  | reset =>
    cases he
    exact good_of_blank (fun _ _ => Nat.zero_le _) h.cfg rfl rfl rfl rfl
  | push b => cases he; exact h.push b
  | scan => cases he; exact h.scan
  | drop k =>
    cases k with
    | count k => cases he; exact h.drop k
    | consumed =>
      cases hc : s.results.consumed with
      | none => rw [exec_dropConsumed_invalid hc] at he; cases he
      | some c => rw [exec_dropConsumed hc] at he; cases he; exact h.drop c
  | csum p => cases he; exact h.csum p
  | reserved k x => cases he; exact h.afterRefusal _
  | frame len rest => cases he; exact h.pushScan _
  | build i p hi => rw [hi] at he; cases he; exact h.build p
  | classify i p hi => rw [hi] at he; cases he; exact h.classified p

theorem State.Good.execIllegal {i : Illegal} {s t : State} (h : s.Good) (he : execIllegal i s = .next t) : t.Good := by
  obtain ⟨_, b, -, e⟩ | ⟨_, p, -, e⟩ | ⟨_, p, -, e⟩ := execIllegal_cases i s <;> rw [e] at he
  · cases he; exact h.pushScan b
  · exact h.exec he
  · exact h.exec he

/-- Settles O46: the step takes a request off the list and performs what it decodes to, or its illegal value. -/
theorem stepKeepsGoodStates : Obligations.StepKeepsGoodStates := by
  intro s t h hstep
  rw [step] at hstep
  split at hstep
  · cases hstep
  · split at hstep
    · exact (h.withoutRequest _).execIllegal hstep
    · exact (h.withoutRequest _).exec hstep

theorem device_ok : device.Ok := by
  have hdegree : ∀ d : BitVec 7, 0x80#8 ≤ 0x80#8 ||| d.setWidth 8 := by decide
  refine ⟨?_, hdegree Config.freeDegree, ?_⟩
  · simp only [device]
    split
    · assumption
    · decide
  · simp only [device]
    split
    · assumption
    · exact ⟨by simp, by simp⟩

/-- Settles O45: nothing is in RXBUF and no result register is valid; the device's tables are cut to their constraints. -/
theorem resetStateIsGood : Obligations.ResetStateIsGood :=
  good_of_blank (fun _ _ => Nat.zero_le _) device_ok rfl rfl rfl rfl

end Sys2Proof.Machine
end

section
/-! Decode and encode (30_encoding.md R50 to R76). -/

namespace Sys2Proof.Machine

/-- Settles O56: one round trip per instruction. -/
theorem decodeInvertsEncode : Obligations.DecodeInvertsEncode := by
  intro i
  cases i with
  | reset => exact Laws.RoundTrip.reset
  | push b => exact Laws.RoundTrip.push b
  | scan => exact Laws.RoundTrip.scan
  | drop k => exact Laws.RoundTrip.drop k
  | csum p => exact Laws.RoundTrip.csum p
  | build p => exact Laws.RoundTrip.build p
  | classify p => exact Laws.RoundTrip.classify p
  | hostopReserved op operand => exact Laws.RoundTrip.hostopReserved op operand
  | frame len rest => exact Laws.RoundTrip.frame len rest
  | msgReplyCode rest => exact Laws.RoundTrip.msgReplyCode rest
  | msgMeas rest => exact Laws.RoundTrip.msgMeas rest
  | msgSaved rest => exact Laws.RoundTrip.msgSaved rest
  | msgRecInfo rest => exact Laws.RoundTrip.msgRecInfo rest
  | msgRecData rest => exact Laws.RoundTrip.msgRecData rest
  | msgReply rest => exact Laws.RoundTrip.msgReply rest
  | replySuccess rest => exact Laws.RoundTrip.replySuccess rest
  | replyDeviceError rest => exact Laws.RoundTrip.replyDeviceError rest
  | measNormal c f rest => exact Laws.RoundTrip.measNormal c f rest
  | measRelative c f rest => exact Laws.RoundTrip.measRelative c f rest
  | measMinMax c f rest => exact Laws.RoundTrip.measMinMax c f rest
  | measPeak c f rest => exact Laws.RoundTrip.measPeak c f rest
  | rangeAuto u => exact Laws.RoundTrip.rangeAuto u
  | rangeStep1 u => exact Laws.RoundTrip.rangeStep1 u
  | rangeStep2 u => exact Laws.RoundTrip.rangeStep2 u
  | rangeStep3 u => exact Laws.RoundTrip.rangeStep3 u
  | rangeStep4 u => exact Laws.RoundTrip.rangeStep4 u
  | rangeStep5 u => exact Laws.RoundTrip.rangeStep5 u
  | rangeStep6 u => exact Laws.RoundTrip.rangeStep6 u
  | rangeStep7 u => exact Laws.RoundTrip.rangeStep7 u
  | rangeStep8 u => exact Laws.RoundTrip.rangeStep8 u
  | reqSetMode operand => exact Laws.RoundTrip.reqSetMode operand
  | reqSetRange operand => exact Laws.RoundTrip.reqSetRange operand
  | reqSetRef operand => exact Laws.RoundTrip.reqSetRef operand
  | reqSetMinMax operand => exact Laws.RoundTrip.reqSetMinMax operand
  | reqMonitor operand => exact Laws.RoundTrip.reqMonitor operand
  | reqSave operand => exact Laws.RoundTrip.reqSave operand
  | reqReadSave operand => exact Laws.RoundTrip.reqReadSave operand
  | reqSaveCount operand => exact Laws.RoundTrip.reqSaveCount operand
  | reqDelSave operand => exact Laws.RoundTrip.reqDelSave operand
  | reqRecStart operand => exact Laws.RoundTrip.reqRecStart operand
  | reqRecStop operand => exact Laws.RoundTrip.reqRecStop operand
  | reqRecInfo operand => exact Laws.RoundTrip.reqRecInfo operand
  | reqRecData operand => exact Laws.RoundTrip.reqRecData operand
  | reqRecCount operand => exact Laws.RoundTrip.reqRecCount operand
  | reqHold operand => exact Laws.RoundTrip.reqHold operand

end Sys2Proof.Machine
end

section
/-! The receive buffer and the frame codec (41_frame_scanner.md R90, R100; 40_frame_codec.md R82 to R84). -/

namespace Sys2Proof.Machine

/-- Settles O4: the two outcomes of a PUSH. -/
theorem pushAppendsOrIsRefused : Obligations.PushAppendsOrIsRefused := by
  intro b s
  refine ⟨fun hfits => ?_, fun cap hcap hlt => ?_⟩
  · rw [exec_push, push_fits (pushFits_iff.mpr hfits)]
  · have hno : s.pushFits b.length = false := by
      rw [← Bool.not_eq_true, pushFits_iff]
      exact fun h => absurd (h cap hcap) (by omega)
    rw [exec_push, push_refused hno]

/-- A DROP that is performed renumbers the bytes behind it (R100). -/
theorem drop_renumbers {s : State} {k : Nat} (h : k ≤ s.rxbuf.length) :
    s.drop k = { s with rxbuf := (s.drop k).rxbuf, results := { status := .done } } ∧
      (s.drop k).rxbuf.length = s.rxbuf.length - k ∧ ∀ i, (s.drop k).rxRead i = s.rxRead (k + i) :=
  ⟨by rw [drop_fits h], by simp [drop_fits h], fun _ => rxRead_drop h⟩

/-- Settles O5: the two outcomes of a DROP. -/
theorem dropRemovesPrefixOrIsRefused : Obligations.DropRemovesPrefixOrIsRefused := by
  intro k s
  refine ⟨fun h => ⟨s.drop k, exec_drop k s, drop_renumbers h⟩, fun h => ?_⟩
  rw [exec_drop, drop_refused h]

/-- In a good state CONSUMED counts bytes of RXBUF. -/
theorem State.Good.consumed_le {s : State} (h : s.Good) {c : Nat} (hc : s.results.consumed = some c) :
    c ≤ s.rxbuf.length := by
  obtain ⟨m, -, ⟨-, -, hle, -⟩, -, rfl⟩ := h.consumed c hc
  exact hle

/-- Settles O6: the good state bounds CONSUMED, so the DROP is performed. -/
theorem dropConsumedUsesTheRegister : Obligations.DropConsumedUsesTheRegister := fun _ =>
  ⟨fun _ hgood hc => ⟨_, exec_dropConsumed hc, drop_renumbers (hgood.consumed_le hc)⟩, exec_dropConsumed_invalid⟩

/-- The bytes of a built frame: marker, length, payload, checksum (R50, R82). -/
theorem frameOf_bytes {p : Bytes} (hp : p.length ≤ 65533) : ∃ l0 l1 c0 c1 : Byte,
    l0.toNat + 256 * l1.toNat = p.length + 2 ∧ c0.toNat + 256 * c1.toNat = sumFormula p ∧
      frameOf p = [0xAB#8, 0xCD#8, l0, l1] ++ p ++ [c0, c1] := by
  refine ⟨_, _, _, _, ?_, ?_, rfl⟩
  · rw [← le16_pair_toNat]
    exact (congrArg BitVec.toNat (le16_le16Bytes _)).trans (lenField_toNat hp)
  · rw [← le16_pair_toNat]
    exact (congrArg BitVec.toNat (le16_le16Bytes _)).trans (checksum_toNat hp)

/-- An instruction that is BUILD of a payload makes that payload's frame (R82). -/
theorem buildsFrame_of_exec {i : Instr} {p : Bytes} (hi : ∀ s, exec i s = .next (s.build p)) : BuildsFrame i p := by
  intro s hp
  obtain ⟨l0, l1, c0, c1, hl, hc, hframe⟩ := frameOf_bytes hp
  refine ⟨s.build p, l0, l1, c0, c1, hi s, hl, hc, ?_⟩
  rw [build_fits hp, ← hframe]
  rfl

/-- Settles O9: TXLEN is the length of the frame's bytes. -/
theorem buildMakesTheFrame : Obligations.BuildMakesTheFrame := by
  intro p s hp
  obtain ⟨t, l0, l1, c0, c1, he, hl, hc, ht⟩ := buildsFrame_of_exec (exec_build p) s hp
  refine ⟨t, l0, l1, c0, c1, he, hl, hc, ?_, ht⟩
  rw [ht]
  simp only [State.txlen, Option.map_some, List.length_append, List.length_cons, List.length_nil]
  congr 1
  omega

/-- Settles O10: each row is BUILD of its tag and operand bytes. -/
theorem requestRowsAreFramed : Obligations.RequestRowsAreFramed := by
  intro o
  refine ⟨?_, ?_, ?_, ?_, ?_, ?_, ?_, ?_, ?_, ?_, ?_, ?_, ?_, ?_, ?_⟩ <;> exact buildsFrame_of_exec fun _ => rfl

/-- Settles O11: the three operations on a payload check its length first. -/
theorem overlongPayloadIsRefused : Obligations.OverlongPayloadIsRefused := by
  intro p s hp
  refine ⟨?_, ?_, ?_⟩
  · rw [exec_csum, csum_long hp]
    rfl
  · rw [exec_build, build_long hp]
    rfl
  · rw [exec_classify, classified_long hp]

end Sys2Proof.Machine
end

section
/-! The frame scanner (41_frame_scanner.md R91 to R102, 70_reset_and_hazards.md R226). -/

namespace Sys2Proof.Machine

/-- Settles O13: the first marker offset that is not *false* fixes which of the two ends of a SCAN is taken. -/
theorem scanIsDecidedByFirstCandidateNotFalse : Obligations.ScanIsDecidedByFirstCandidateNotFalse := by
  intro s
  refine ⟨s.scan, exec_scan s, scan_frame s, fun m hd hv => ?_, fun hshort => ?_, fun hfalse => ?_⟩
  · obtain ⟨r, h⟩ := scan_valid hd hv
    rw [h]
    obtain ⟨-, hpay, hconsumed⟩ := report_results (s.withScanRegs r) (payloadAt s.rxbuf m)
      (some (m + 4 + lenAt s.rxbuf m)) (classify s.config (payloadAt s.rxbuf m))
    refine ⟨hpay, hconsumed, fun msg hmsg => ?_, fun e he => ?_, ?_⟩
    · rw [hmsg]
      exact ⟨rfl, rfl, rfl, rfl⟩
    · rw [he]
      exact ⟨rfl, rfl, rfl, rfl⟩
    · cases classify s.config (payloadAt s.rxbuf m) <;> exact ⟨rfl, rfl⟩
  · obtain ⟨r, h⟩ := scan_incomplete (.inl hshort)
    rw [h, State.finish_results]
  · obtain ⟨r, h⟩ := scan_incomplete (.inr hfalse)
    rw [h, State.finish_results]

/-- The three outcomes of a SCAN, with the result registers of each (R101). -/
theorem scan_results_cases (s : State) :
    s.scan.results = { status := .incomplete } ∨
      (∃ p c m, s.scan.results = { status := .foundMsg, payload := some p, consumed := c, msg := some m }) ∨
      ∃ (p : Bytes) (c : Option Nat) (e : DecodeError), s.scan.results =
        { status := .foundErr, payload := some p, consumed := c, errCode := some e.code, errInfo := some e.info } := by
  obtain ⟨r, ⟨m, -, -, h⟩ | ⟨-, h⟩⟩ := scan_cases s <;> rw [h]
  · cases classify s.config (payloadAt s.rxbuf m) with
    | ok msg => exact .inr (.inl ⟨_, _, msg, rfl⟩)
    | error e => exact .inr (.inr ⟨_, _, e, rfl⟩)
  · exact .inl rfl

/-- Settles O14: RXBUF and the configuration are as before, and a SCAN reads nothing else. -/
theorem scanHasThreeOutcomesAndRepeats : Obligations.ScanHasThreeOutcomesAndRepeats := by
  rintro s t ⟨⟩
  refine ⟨?_, scan_rxbuf s, s.scan.scan, rfl, scan_rxbuf _, scan_congr (scan_rxbuf s) (scan_config s)⟩
  obtain h | ⟨p, c, m, h⟩ | ⟨p, c, e, h⟩ := scan_results_cases s <;> simp [h]

/-- A SCAN without a frame leaves everything but its working registers and STATUS (R99). -/
theorem scan_incomplete_frame {s : State}
    (h : (∃ m, Decides s.rxbuf m ∧ IsShort s.rxbuf m) ∨ ∀ m, IsMarker s.rxbuf m → IsFalse s.rxbuf m) :
    s.scan = { s with acc := s.scan.acc, lenr := s.scan.lenr, scanoff := s.scan.scanoff,
                      results := { status := .incomplete } } := by
  obtain ⟨r, h⟩ := scan_incomplete h
  rw [h]
  rfl

/-- The declared length of a candidate does not depend on what follows its header. -/
theorem lenAt_append {b c : Bytes} {m : Nat} (h : m + 4 ≤ b.length) : lenAt (b ++ c) m = lenAt b m := by
  rw [lenAt, lenAt, slice_append_left (by omega)]

/-- A frame that is cut off holds no marker, or a *short* candidate at its front (R102 (c)). -/
theorem frame_take_undecided {p b : Bytes} {n : Nat} (hp : p.length ≤ 65533) (hn : n < p.length + 6)
    (hb : b = (frameOf p).take n) :
    (∃ m, Decides b m ∧ IsShort b m) ∨ ∀ m, IsMarker b m → IsFalse b m := by
  have hlen : b.length = n := by rw [hb, List.length_take, length_frameOf]; omega
  obtain ⟨hmarker, hl, -, -⟩ := frame_at hp (b := frameOf p) (o := 0) ⟨[], [], by simp, rfl⟩
  rw [← List.take_append_drop n (frameOf p), ← hb] at hmarker hl
  rcases Nat.lt_or_ge n 2 with h2 | h2
  · refine .inr fun m hm => ?_
    have := hm.lt
    omega
  · refine .inl ⟨0, ⟨(isMarker_append (by omega)).mp hmarker, fun m hm => absurd hm (Nat.not_lt_zero m)⟩, ?_⟩
    rcases Nat.lt_or_ge n 4 with h4 | h4
    · exact .inl (by omega)
    · rw [lenAt_append (by omega)] at hl
      exact .inr ⟨by omega, by omega⟩

/-- Settles O15: a frame behind *false* candidates is found and dropped; one that is cut off is awaited. -/
theorem framesAreFoundOrAwaited : Obligations.FramesAreFoundOrAwaited := by
  intro p s hp
  refine ⟨fun g t hrx hfalse => ?_, fun n hn hrx =>
    ⟨s.scan, exec_scan s, scan_incomplete_frame (frame_take_undecided hp hn hrx)⟩⟩
  obtain ⟨-, hpay, hconsumed, -⟩ := scan_frame_found hp hrx hfalse
  have hend : (g ++ frameOf p).length = g.length + (p.length + 6) := by simp
  have hle : g.length + (p.length + 6) ≤ s.scan.rxbuf.length := by
    rw [scan_rxbuf, hrx, ← hend, List.length_append (as := g ++ frameOf p)]
    exact Nat.le_add_right _ _
  refine ⟨s.scan, _, exec_scan s, exec_dropConsumed hconsumed, hpay, hconsumed, ?_⟩
  rw [drop_fits hle, scan_rxbuf, hrx, ← hend]
  exact List.drop_left

/-- Settles O16: the first candidate that is not *false* keeps its header, so it stays *short*. -/
theorem shortCandidateStallsTheScan : Obligations.ShortCandidateStallsTheScan := by
  rintro s m more ⟨hmarker, hbelow⟩ hheader hlen hshort
  have hd : Decides (s.rxbuf ++ more) m := by
    refine ⟨(isMarker_append (by omega)).mpr hmarker, fun m' hm' h => ?_⟩
    exact isFalse_append (hbelow m' hm' ((isMarker_append (by omega)).mp h))
  have hs : IsShort (s.rxbuf ++ more) m := by
    refine .inr ?_
    rw [lenAt_append hheader, List.length_append]
    exact ⟨hlen, hshort⟩
  exact ⟨_, exec_scan _, by rw [scan_incomplete_frame (.inl ⟨m, hd, hs⟩)]⟩

/-- A frame's bytes whose checksum is that of its payload are the bytes BUILD makes (R82). -/
theorem frameBytes_eq_frameOf {len : Half} {p : Bytes} {c0 c1 : Byte} (hlen : len.toNat = p.length + 2)
    (hsum : c0.toNat + 256 * c1.toNat = sumFormula p) : frameBytes len (p ++ [c0, c1]) = frameOf p := by
  have hp : p.length ≤ 65533 := by have := len.isLt; omega
  have hl : len = lenField p.length := BitVec.eq_of_toNat_eq (by rw [hlen, lenField_toNat hp])
  have hc : le16 [c0, c1] = checksum p := BitVec.eq_of_toNat_eq (by rw [le16_pair_toNat, checksum_toNat hp, hsum])
  rw [frameOf, ← hl, ← hc, le16Bytes_le16]
  simp [frameBytes, marker0, marker1]

/-- A whole frame in RXBUF whose length is below 2 or whose checksum is wrong is a *false* candidate (R98). -/
theorem frameBytes_isFalse {len : Half} {rest : Bytes} (hrest : rest.length = len.toNat)
    (h : len.toNat < 2 ∨ ∃ (p : Bytes) (c0 c1 : Byte), rest = p ++ [c0, c1] ∧ c0.toNat + 256 * c1.toNat ≠ sumFormula p) :
    IsFalse (frameBytes len rest) 0 := by
  have hbytes : frameBytes len rest = [0xAB#8, 0xCD#8] ++ (le16Bytes len ++ rest) := by simp [frameBytes]
  have hat : StandsAt (frameBytes len rest) 2 (le16Bytes len ++ rest) := ⟨_, [], by rw [hbytes, List.append_nil], rfl⟩
  have hlength : (frameBytes len rest).length = 4 + rest.length := by simp [frameBytes]; omega
  have hl : lenAt (frameBytes len rest) 0 = len.toNat := by
    rw [lenAt, hat.left.slice_eq (length_le16Bytes _), leNat_le16Bytes]
  refine ⟨by omega, ?_⟩
  rw [hl]
  obtain hlt | ⟨p, c0, c1, rfl, hsum⟩ := h
  · exact .inl hlt
  · have h4 : StandsAt (frameBytes len (p ++ [c0, c1])) 4 (p ++ [c0, c1]) := hat.right
    rw [List.length_append, List.length_cons, List.length_cons, List.length_nil] at hrest
    have hpay : payloadAt (frameBytes len (p ++ [c0, c1])) 0 = p := by
      rw [payloadAt, hl]
      exact h4.left.slice_eq (by omega)
    have hemb : embeddedAt (frameBytes len (p ++ [c0, c1])) 0 = c0.toNat + 256 * c1.toNat := by
      rw [embeddedAt, hl, show 0 + 2 + len.toNat = 4 + p.length by omega, h4.right.slice_eq (n := 2) rfl]
      simp [leNat]
    rw [hpay, hemb]
    exact .inr ⟨by simp only [List.length_append, List.length_cons, List.length_nil] at hlength; omega, hsum.symm⟩

theorem length_frameBytes (len : Half) (rest : Bytes) : (frameBytes len rest).length = rest.length + 4 := by
  simp [frameBytes]
  omega

/-- Settles O17: the row's two outcomes, and, on an empty unbounded RXBUF, its one candidate at the front. -/
theorem frameRowIsPushedAndScanned : Obligations.FrameRowIsPushedAndScanned := by
  intro len rest s hrest
  refine ⟨fun hfits => ?_, fun cap hcap hlt => ?_, fun hempty hcap => ?_⟩
  · obtain ⟨-, h⟩ | ⟨hno, -⟩ := frame_cases s len rest
    · exact h
    · rw [← length_frameBytes len rest] at hfits
      rw [pushFits_iff.mpr hfits] at hno
      cases hno
  · obtain ⟨hfits, -⟩ | ⟨-, h⟩ := frame_cases s len rest
    · have := pushFits_iff.mp hfits cap hcap
      rw [length_frameBytes] at this
      omega
    · rw [h, length_frameBytes]
  · have hfits : s.pushFits (frameBytes len rest).length = true := pushFits_iff.mpr (by simp [hcap])
    obtain ⟨-, h⟩ | ⟨hno, -⟩ := frame_cases s len rest
    · rw [hempty, List.nil_append] at h
      refine ⟨_, h, ?_, ?_, fun honly => ?_⟩
      · rw [scan_frame]
      · rintro p c0 c1 rfl hsum
        have hlen : len.toNat = p.length + 2 := by rw [← hrest]; simp
        rw [frameBytes_eq_frameOf hlen hsum]
        obtain ⟨-, hpay, hconsumed, hmsg⟩ := scan_frame_found (g := []) (t := []) (p := p)
          (s := { s with rxbuf := frameOf p, results := { status := .done } }) (by have := len.isLt; omega)
          (by simp) (by simp)
        exact ⟨hpay, by simpa using hconsumed, hmsg⟩
      · have hscan (hbad : IsFalse (frameBytes len rest) 0) :
            ({ s with rxbuf := frameBytes len rest, results := { status := .done } } : State).scan.results =
              { status := .incomplete } := by
          rw [scan_incomplete_frame (.inr fun m hm => ?_)]
          obtain rfl : m = 0 := by
            by_contra hne
            exact honly m (by omega) hm
          exact hbad
        exact ⟨fun hlt => hscan (frameBytes_isFalse hrest (.inl hlt)),
          fun p c0 c1 hp hsum => hscan (frameBytes_isFalse hrest (.inr ⟨p, c0, c1, hp, hsum⟩))⟩
    · rw [hfits] at hno
      cases hno

end Sys2Proof.Machine
end

section
/-! The whole machine: everything an instruction can do to the state (10_state.md R10, R14, R25, R26; 60_exceptions.md R204;
70_reset_and_hazards.md R220, R232). -/

namespace Sys2Proof.Machine

/-- What the instruction `i` can make of the state `s`: one form of next state per way an operation ends. -/
inductive Effect (i : Instr) (s : State) : State → Prop where
  | reset (hi : i = .reset) (acc lenr : Half) (scanoff tick : Nat) :
      Effect i s { s with rxbuf := [], acc := acc, lenr := lenr, scanoff := scanoff, freeTick := tick,
                          results := { status := .idle } }
  | buffer (hi : (∃ b, i = .push b) ∨ ∃ k, i = .drop k) (rx : Bytes) :
      Effect i s { s with rxbuf := rx, results := { status := .done } }
  | codec (acc lenr : Half) (csum : Option Half) (tx : Option Bytes) :
      Effect i s { s with acc := acc, lenr := lenr, results := { status := .done, csumOut := csum, txbuf := tx } }
  | refused (e : OpRefusal) : Effect i s (afterRefusal s e)
  | classifiedMsg (p : Bytes) (m : Message) : Effect i s (afterMsg s p m)
  | classifiedError (p : Bytes) (e : DecodeError) : Effect i s (afterError s p e)
  | scan (rx : Bytes) (hrx : (∃ l r, i = .frame l r ∧ rx = s.rxbuf ++ frameBytes l r) ∨ rx = s.rxbuf)
      (acc lenr : Half) (scanoff : Nat) (r : Results)
      (hr : r = { status := .incomplete } ∨
        (∃ p c m, r = { status := .foundMsg, payload := some p, consumed := c, msg := some m }) ∨
        ∃ (p : Bytes) (c : Option Nat) (e : DecodeError),
          r = { status := .foundErr, payload := some p, consumed := c, errCode := some e.code, errInfo := some e.info }) :
      Effect i s { s with rxbuf := rx, acc := acc, lenr := lenr, scanoff := scanoff, results := r }

theorem effect_drop (k : DropCount) (s : State) (n : Nat) : Effect (.drop k) s (s.drop n) := by
  obtain ⟨-, e⟩ | ⟨-, e⟩ := drop_cases s n <;> rw [e]
  · exact .buffer (.inr ⟨k, rfl⟩) _
  · exact .refused _

/-- Everything an instruction that gives a next state can do. -/
theorem exec_effect {i : Instr} {s t : State} (h : exec i s = .next t) : Effect i s t := by
  cases shape i with
  | reset => cases h; exact .reset rfl _ _ _ _
  | push b =>
    cases h
    obtain ⟨-, e⟩ | ⟨-, e⟩ := push_cases s b <;> rw [e]
    · exact .buffer (.inl ⟨b, rfl⟩) _
    · exact .refused _
  | scan =>
    cases h
    rw [scan_frame]
    exact .scan _ (.inr rfl) _ _ _ _ (scan_results_cases s)
  | drop k =>
    cases k with
    | count n => cases h; exact effect_drop _ s n
    | consumed =>
      cases hc : s.results.consumed with
      | none => rw [exec_dropConsumed_invalid hc] at h; cases h
      | some c => rw [exec_dropConsumed hc] at h; cases h; exact effect_drop _ s c
  | csum p =>
    cases h
    obtain ⟨-, e⟩ | ⟨-, e⟩ := csum_cases s p <;> rw [e]
    · exact .codec _ _ _ none
    · exact .refused _
  | reserved k x => cases h; exact .refused _
  | frame len rest =>
    obtain ⟨-, e⟩ | ⟨-, e⟩ := frame_cases s len rest <;> rw [e] at h <;> cases h
    · rw [scan_frame]
      exact .scan _ (.inl ⟨len, rest, rfl, rfl⟩) _ _ _ _ (scan_results_cases _)
    · exact .refused _
  | build i p hi =>
    rw [hi] at h
    cases h
    obtain ⟨-, e⟩ | ⟨-, e⟩ := build_cases s p <;> rw [e]
    · exact .codec _ _ none _
    · exact .refused _
  | classify i p hi =>
    rw [hi] at h
    cases h
    obtain ⟨-, m, -, e⟩ | ⟨-, err, -, e⟩ | ⟨-, e⟩ := classified_cases s p (classify s.config p) <;> rw [e]
    · exact .classifiedMsg p m
    · exact .classifiedError p err
    · exact .refused _

/-- Settles O7: of the effects only those of RESET, PUSH, DROP and FRAME name another RXBUF. -/
theorem onlyPushDropResetChangeTheBuffer : Obligations.OnlyPushDropResetChangeTheBuffer := by
  intro i s t h
  cases exec_effect h with
  | reset hi => exact .inl hi
  | buffer hi rx => exact hi.elim (fun h => .inr (.inl h)) fun h => .inr (.inr (.inl h))
  | scan rx hrx acc lenr scanoff r hr =>
    obtain ⟨l, b, hi, -⟩ | hrx := hrx
    · exact .inr (.inr (.inr (.inl ⟨l, b, hi⟩)))
    · exact .inr (.inr (.inr (.inr hrx)))
  | codec | refused | classifiedMsg | classifiedError => exact .inr (.inr (.inr (.inr rfl)))

/-- Settles O48: no effect names another configuration or another list of requests. -/
theorem noOperationChangesTheConfiguration : Obligations.NoOperationChangesTheConfiguration := by
  intro i s t h
  cases exec_effect h <;> exact ⟨rfl, rfl⟩

/-- Settles O50: REFUSED and FOUND_ERR are the STATUS of a refusal, of a CLASSIFY's error and of a SCAN's. -/
theorem errorsChangeOnlyTheResults : Obligations.ErrorsChangeOnlyTheResults := by
  intro i s t h
  cases exec_effect h with
  | refused e => exact ⟨fun _ => ⟨e, rfl⟩, nofun⟩
  | classifiedError p e => exact ⟨nofun, fun _ => ⟨p, none, e, rfl, .inr rfl⟩⟩
  | scan rx hrx acc lenr scanoff r hr =>
    obtain rfl | ⟨p, c, m, rfl⟩ | ⟨p, c, e, rfl⟩ := hr
    · exact ⟨nofun, nofun⟩
    · exact ⟨nofun, nofun⟩
    · exact ⟨nofun, fun _ => ⟨p, c, e, rfl, hrx⟩⟩
  | reset | buffer | codec | classifiedMsg => exact ⟨nofun, nofun⟩

/-- Settles O49: every form of an instruction but DROP CONSUMED is written with a next state. -/
theorem everyOperationEnds : Obligations.EveryOperationEnds := by
  intro i s hc
  cases shape i with
  | drop k =>
    cases k with
    | count n => exact ⟨_, exec_drop n s⟩
    | consumed =>
      obtain ⟨c, hc⟩ := Option.ne_none_iff_exists'.mp (hc rfl)
      exact ⟨_, exec_dropConsumed hc⟩
  | build i p hi => exact ⟨_, hi s⟩
  | classify i p hi => exact ⟨_, hi s⟩
  | reset | push | scan | csum | reserved | frame => exact ⟨_, rfl⟩

/-! ## What an operation reads -/

/-- Two next states agree on what an operation gives: RXBUF and the result registers (R26). -/
def SameOutcome (s t : State) : Prop := s.rxbuf = t.rxbuf ∧ s.results = t.results

theorem push_congr {s t : State} (hrx : s.rxbuf = t.rxbuf) (hcfg : s.config = t.config) (b : Bytes) :
    SameOutcome (s.push b) (t.push b) := by
  have hfits : s.pushFits b.length = t.pushFits b.length := by simp only [State.pushFits, hrx, hcfg]
  obtain ⟨hs, e⟩ | ⟨hs, e⟩ := push_cases s b <;> rw [hfits] at hs
  · rw [e, push_fits hs, hrx]
    exact ⟨rfl, rfl⟩
  · rw [e, push_refused hs, hrx]
    exact ⟨hrx, rfl⟩

theorem drop_congr {s t : State} (hrx : s.rxbuf = t.rxbuf) (k : Nat) : SameOutcome (s.drop k) (t.drop k) := by
  obtain ⟨hs, e⟩ | ⟨hs, e⟩ := drop_cases s k <;> rw [hrx] at hs
  · rw [e, drop_fits hs, hrx]
    exact ⟨rfl, rfl⟩
  · rw [e, drop_refused hs, hrx]
    exact ⟨hrx, rfl⟩

theorem csum_congr {s t : State} (hrx : s.rxbuf = t.rxbuf) (p : Bytes) : SameOutcome (s.csum p) (t.csum p) := by
  obtain ⟨hp, e⟩ | ⟨hp, e⟩ := csum_cases s p <;> rw [e]
  · rw [csum_fits hp]
    exact ⟨hrx, rfl⟩
  · rw [csum_long hp]
    exact ⟨hrx, rfl⟩

theorem build_congr {s t : State} (hrx : s.rxbuf = t.rxbuf) (p : Bytes) : SameOutcome (s.build p) (t.build p) := by
  obtain ⟨hp, e⟩ | ⟨hp, e⟩ := build_cases s p <;> rw [e]
  · rw [build_fits hp]
    exact ⟨hrx, rfl⟩
  · rw [build_long hp]
    exact ⟨hrx, rfl⟩

theorem classified_congr {s t : State} (hrx : s.rxbuf = t.rxbuf) (p : Bytes) (r : Except DecodeError Message) :
    SameOutcome (s.classified p r) (t.classified p r) := by
  rcases Nat.lt_or_ge 65533 p.length with hp | hp
  · rw [classified_long hp, classified_long hp]
    exact ⟨hrx, rfl⟩
  · rw [classified_fits hp, classified_fits hp]
    cases r <;> exact ⟨hrx, rfl⟩

theorem pushScan_congr {s t : State} (hrx : s.rxbuf = t.rxbuf) (hcfg : s.config = t.config) (b : Bytes) :
    SameOutcome (s.pushScan b) (t.pushScan b) := by
  have hfits : s.pushFits b.length = t.pushFits b.length := by simp only [State.pushFits, hrx, hcfg]
  obtain ⟨hs, e⟩ | ⟨hs, e⟩ := pushScan_cases s b <;> obtain ⟨ht, e'⟩ | ⟨ht, e'⟩ := pushScan_cases t b
  · rw [e, e']
    exact ⟨by simp [hrx], scan_congr (by simp [hrx]) hcfg⟩
  · rw [hfits, ht] at hs; cases hs
  · rw [hfits, ht] at hs; cases hs
  · rw [e, e', hrx]
    exact ⟨hrx, rfl⟩

/-- Settles O18: each form of an instruction reads RXBUF and the configuration, and DROP CONSUMED the register. -/
theorem noHiddenStateInfluencesResults : Obligations.NoHiddenStateInfluencesResults := by
  intro i s₁ s₂ t₁ t₂ hrx hcfg hconsumed h₁ h₂
  suffices SameOutcome t₁ t₂ from this
  cases shape i with
  | reset => cases h₁; cases h₂; exact ⟨rfl, rfl⟩
  | push b => cases h₁; cases h₂; exact push_congr hrx hcfg b
  | scan => cases h₁; cases h₂; exact ⟨by simp [hrx], scan_congr hrx hcfg⟩
  | drop k =>
    cases k with
    | count n => cases h₁; cases h₂; exact drop_congr hrx n
    | consumed =>
      cases hc : s₁.results.consumed with
      | none => rw [exec_dropConsumed_invalid hc] at h₁; cases h₁
      | some c =>
        rw [exec_dropConsumed hc] at h₁
        rw [exec_dropConsumed (hconsumed ▸ hc)] at h₂
        cases h₁; cases h₂
        exact drop_congr hrx c
  | csum p => cases h₁; cases h₂; exact csum_congr hrx p
  | reserved k x => cases h₁; cases h₂; exact ⟨hrx, rfl⟩
  | frame len rest => cases h₁; cases h₂; exact pushScan_congr hrx hcfg _
  | build i p hi => rw [hi] at h₁ h₂; cases h₁; cases h₂; exact build_congr hrx p
  | classify i p hi =>
    rw [hi] at h₁ h₂
    cases h₁; cases h₂
    rw [hcfg]
    exact classified_congr hrx p _

/-! ## STATUS -/

/-- Settles O51: the outcomes of each operation with their codes. -/
theorem operationsSetTheirStatusCodes : Obligations.OperationsSetTheirStatusCodes := by
  intro s t b k
  refine ⟨?_, ?_, ?_, ?_, ?_, ?_, ?_⟩
  · rintro ⟨⟩
    rfl
  · rintro ⟨⟩
    obtain ⟨-, e⟩ | ⟨-, e⟩ := push_cases s b <;> rw [e]
    · exact .inl rfl
    · exact .inr rfl
  · intro h
    obtain ⟨n, rfl⟩ : ∃ n, t = s.drop n := by
      cases k with
      | count n => cases h; exact ⟨n, rfl⟩
      | consumed =>
        cases hc : s.results.consumed with
        | none => rw [exec_dropConsumed_invalid hc] at h; cases h
        | some c => rw [exec_dropConsumed hc] at h; cases h; exact ⟨c, rfl⟩
    obtain ⟨-, e⟩ | ⟨-, e⟩ := drop_cases s n <;> rw [e]
    · exact .inl rfl
    · exact .inr rfl
  · rintro ⟨⟩
    obtain ⟨-, e⟩ | ⟨-, e⟩ := csum_cases s b <;> rw [e]
    · exact .inl rfl
    · exact .inr rfl
  · rintro ⟨⟩
    obtain ⟨-, e⟩ | ⟨-, e⟩ := build_cases s b <;> rw [e]
    · exact .inl rfl
    · exact .inr rfl
  · rintro ⟨⟩
    obtain ⟨-, m, -, e⟩ | ⟨-, err, -, e⟩ | ⟨-, e⟩ := classified_cases s b (classify s.config b) <;> rw [e]
    · exact .inl rfl
    · exact .inr (.inl rfl)
    · exact .inr (.inr rfl)
  · rintro ⟨⟩
    obtain e | ⟨p, c, m, e⟩ | ⟨p, c, err, e⟩ := scan_results_cases s <;> rw [e]
    · exact .inr (.inr rfl)
    · exact .inl rfl
    · exact .inr (.inl rfl)

/-- A host can read a register exactly when it is valid (R14). -/
theorem readResult_ok_iff {s : State} {r : ResultReg} : (∃ v, s.readResult r = .ok v) ↔ (s.result? r).isSome := by
  simp only [State.readResult]
  cases s.result? r <;> simp

theorem readResult_invalid {s : State} {r : ResultReg} (h : s.result? r = none) :
    s.readResult r = .error (.invalidResultRead r) := by
  simp only [State.readResult, h]

/-- Settles O47: the result registers of a good state are those that its STATUS makes valid. -/
theorem statusDecidesValidRegisters : Obligations.StatusDecidesValidRegisters := by
  intro s hgood
  have hvalid := hgood.valid
  simp only [readResult_ok_iff, State.result?, State.plen, State.txlen]
  cases hs : s.results.status <;> simp only [Results.Valid, hs] at hvalid
  case done =>
    obtain ⟨c, hr⟩ | ⟨tx, hr⟩ := hvalid <;> simp [hr]
  case foundMsg =>
    obtain ⟨p, m, c, hr⟩ := hvalid
    simp [hr]
  case foundErr =>
    obtain ⟨p, c, e, hr⟩ := hvalid
    simp [hr]
  case refused =>
    obtain ⟨e, hr⟩ := hvalid
    simp [hr]
  case idle | incomplete => simp [hvalid]

/-- With STATUS alone written, no other register can be read. -/
theorem readResult_of_status_only {s : State} {st : Status} (hs : s.results = { status := st }) {r : ResultReg}
    (hr : r ≠ .status) : s.readResult r = .error (.invalidResultRead r) := by
  apply readResult_invalid
  cases r with
  | status => exact absurd rfl hr
  | consumed | payload | plen | msg | csumOut | txbuf | txlen | errCode | errInfo =>
    simp [State.result?, State.plen, State.txlen, hs]

/-- Settles O1. -/
theorem resetStateHoldsSpecValues : Obligations.ResetStateHoldsSpecValues :=
  ⟨rfl, rfl, rfl, fun _ => readResult_of_status_only rfl⟩

/-- Settles O2. -/
theorem resetEmptiesAndInvalidates : Obligations.ResetEmptiesAndInvalidates := by
  intro s
  obtain ⟨t, he, hrx, hr, hcfg, hreq⟩ := exec_reset s
  exact ⟨t, he, hrx, by rw [hr], fun _ => readResult_of_status_only hr, hcfg, hreq⟩

/-! ## Error codes -/

/-- The error codes in the order of R190's table. -/
def errCodes : List ErrCode :=
  [.unknownReplyCode, .unknownMessageFormat, .unknownMeasurementKind, .unknownMeasurementMode, .unknownMeasurementRange,
    .unknownMeasurementUnit, .invalidDateTime, .truncated, .bufOverflow, .badDrop, .payloadTooLong, .badOp]

/-- A code's number is its place in the table, counted from 1. -/
theorem errCodes_num (c : ErrCode) : errCodes[c.num - 1]? = some c := by cases c <;> rfl

theorem errCode_num_injective {a b : ErrCode} (h : a.num = b.num) : a = b := by
  have ha := errCodes_num a
  rw [h, errCodes_num b] at ha
  exact (Option.some.inj ha).symm

/-- Settles O52: the table's rows by their definitions; the numbers are places in the table. -/
theorem errorCodesAreNumbered : Obligations.ErrorCodesAreNumbered :=
  ⟨fun _ => ⟨rfl, rfl, rfl⟩, fun _ => ⟨rfl, rfl, rfl⟩, fun _ => ⟨rfl, rfl, rfl⟩, fun _ => ⟨rfl, rfl, rfl⟩,
    fun _ => ⟨rfl, rfl, rfl⟩, fun _ => ⟨rfl, rfl, rfl⟩, fun _ _ _ _ _ _ => ⟨rfl, rfl, rfl⟩, fun _ _ => ⟨rfl, rfl, rfl⟩,
    fun _ _ => ⟨rfl, rfl, rfl⟩, fun _ _ => ⟨rfl, rfl, rfl⟩, fun _ => ⟨rfl, rfl, rfl⟩, fun _ => ⟨rfl, rfl, rfl⟩,
    fun _ _ => errCode_num_injective, fun _ _ _ => ⟨rfl, rfl⟩, fun _ _ => ⟨rfl, rfl⟩⟩

/-! ## Steps -/

/-- Settles O53. -/
theorem stepRunsTheOldestOperation : Obligations.StepRunsTheOldestOperation := by
  intro s r rest i hreq hdec
  simp only [step, hreq, hdec]

/-- A step on a request that decodes to no instruction (log 13). -/
theorem step_illegal {s : State} {r : Request} {rest : List Request} {i : Illegal} (hreq : s.requests = r :: rest)
    (hdec : decode r = .error i) : step s = execIllegal i { s with requests := rest } := by
  simp only [step, hreq, hdec]

end Sys2Proof.Machine
end

section
/-! The primitive codecs: strings and packed date/time (44_primitive_codecs.md R156, R160 to R162). -/

namespace Sys2Proof.Machine

theorem slice_split (s : Bytes) (o : Nat) {z w : Nat} (h : z ≤ w) :
    slice s o w = slice s o z ++ slice s (o + z) (w - z) := by
  obtain ⟨k, rfl⟩ := Nat.exists_eq_add_of_le h
  simp only [slice, List.take_add, List.drop_drop, Nat.add_sub_cancel_left]

/-- A field whose bytes are all there holds no NUL exactly when its string is the whole of it (R156). -/
theorem cstr_slice_of_no_nul {s : Bytes} {o w : Nat} (h : ∀ i < w, s[o + i]? ≠ some 0x00#8) :
    ∀ b ∈ slice s o w, (b != 0x00#8) = true := by
  intro b hb
  obtain ⟨i, hi⟩ := List.mem_iff_getElem?.mp hb
  rw [slice, List.getElem?_take] at hi
  split at hi
  · rename_i hlt
    rw [List.getElem?_drop] at hi
    rw [bne_iff_ne]
    rintro rfl
    exact h i hlt hi
  · cases hi

/-- Settles O44: the string is the field up to the first NUL, which the field is cut at. -/
theorem cStrEndsAtFirstNul : Obligations.CStrEndsAtFirstNul := by
  intro s o w hw
  refine ⟨fun z hz hnul hbefore => ?_, fun hno => List.takeWhile_eq_self_iff.mpr (cstr_slice_of_no_nul hno)⟩
  have hlt : o + z < s.length := by omega
  obtain ⟨k, hk⟩ : ∃ k, w - z = k + 1 := ⟨w - z - 1, by omega⟩
  have hrest : slice s (o + z) (w - z) = 0x00#8 :: slice s (o + z + 1) k := by
    rw [List.getElem?_eq_getElem hlt, Option.some.injEq] at hnul
    rw [slice, List.drop_eq_getElem_cons hlt, hnul, hk, List.take_succ_cons, slice]
  rw [slice_split s o hz.le, cstr, List.takeWhile_append_of_pos (cstr_slice_of_no_nul hbefore), hrest,
    List.takeWhile_cons_of_neg (by decide), List.append_nil]

/-- A number that fills four bytes, as the sum of its bytes in place (20_memory.md R32). -/
theorem leNat_four (b0 b1 b2 b3 : Byte) :
    leNat [b0, b1, b2, b3] = b0.toNat + 256 * b1.toNat + 65536 * b2.toNat + 16777216 * b3.toNat := by
  simp only [leNat]
  ring

/-- The six fields that four bytes hold fit their bits, so they are a date/time when they are packable. -/
theorem packable_unpack_iff (b0 b1 b2 b3 : Byte) :
    Packable (unpackDateTime b0 b1 b2 b3) ↔ validDateTime (unpackDateTime b0 b1 b2 b3) = true := by
  refine ⟨validDateTime_of_packable, fun h => ?_⟩
  have hlow : 2000 ≤ (unpackDateTime b0 b1 b2 b3).year := by simp [unpackDateTime]
  have hhigh : (unpackDateTime b0 b1 b2 b3).year ≤ 2063 := by
    rw [unpackDateTime_eq]
    simp only
    omega
  simp only [validDateTime, Bool.and_eq_true, decide_eq_true_eq] at h
  obtain ⟨⟨⟨⟨⟨⟨hmo, hmo'⟩, hd⟩, hd'⟩, hh⟩, hmi⟩, hs⟩ := h
  exact ⟨hlow, hhigh, hmo, hmo', hd, hd', hh, hmi, hs⟩

/-- `DecDateTime` reports the lack of its four bytes before anything else (R160). -/
theorem decDateTime_short {p : Bytes} {o : Nat} (h : p.length < o + 4) :
    decDateTime p o = .error (.truncated (o + 4) p.length) := by
  rw [decDateTime, need_error (n := dateTimeW) h]
  rfl

/-- The days of the months of 31 and 30 days, and of February (R161). -/
theorem daysIn_months (y : Nat) :
    (∀ mo ∈ [1, 3, 5, 7, 8, 10, 12], daysIn y mo = 31) ∧ (∀ mo ∈ [4, 6, 9, 11], daysIn y mo = 30) ∧
      daysIn y 2 = if y % 4 = 0 then 29 else 28 := by
  refine ⟨?_, ?_, rfl⟩ <;> simp [daysIn]

/-- Settles O40: the fields as bit ranges of the number, and the checks in DecDateTime's order. -/
theorem dateTimeFieldsAreBitRanges : Obligations.DateTimeFieldsAreBitRanges := by
  refine ⟨?_, fun p o h => decDateTime_short h, fun y _ _ => ?_⟩
  · rintro p o b0 b1 b2 b3 pre post rfl rfl w t
    have ht : unpackDateTime b0 b1 b2 b3 = t := by
      rw [unpackDateTime_eq, leNat_four]
      simp only [t, w, DateTime.mk.injEq]
      omega
    have hat : StandsAt (pre ++ [b0, b1, b2, b3] ++ post) pre.length [b0, b1, b2, b3] := ⟨pre, post, by simp, rfl⟩
    have hdec := decDateTime_at hat
    have hvalid := packable_unpack_iff b0 b1 b2 b3
    rw [ht] at hdec hvalid
    exact ⟨fun h => by rw [hdec, if_pos (hvalid.mp h)], fun h => by rw [hdec, if_neg (fun hv => h (hvalid.mpr hv))]⟩
  · obtain ⟨h31, h30, hfeb⟩ := daysIn_months y
    exact ⟨h31, h30, fun h => by rw [hfeb, if_pos h], fun h => by rw [hfeb, if_neg h]⟩

/-- Settles O41: the packed number is the sum of the fields in place. -/
theorem dateTimeRoundTrips : Obligations.DateTimeRoundTrips := by
  intro t pre post ht
  obtain ⟨b0, b1, b2, b3, henc, -⟩ := unpack_encDateTime ht
  refine ⟨b0, b1, b2, b3, henc, ?_, decDateTime_enc ⟨pre, post, by simp, rfl⟩ ht⟩
  rw [← leNat_four, ← henc, leNat_encDateTime ht]
  omega

end Sys2Proof.Machine
end

section
/-! The classifier: rows, reply codes, record data and what all shapes share (42_message_classifier.md R110 to R119). -/

namespace Sys2Proof.Machine

/-- CLASSIFY of a payload that fits and decodes (R111). -/
theorem exec_classify_ok {s : State} {p : Bytes} {m : Message} (hp : p.length ≤ 65533)
    (h : classify s.config p = .ok m) : exec (.classify p) s = .next (afterMsg s p m) := by
  rw [exec_classify, h, classified_msg hp]

/-- CLASSIFY of a payload that fits and does not decode (R111, R204). -/
theorem exec_classify_error {s : State} {p : Bytes} {e : DecodeError} (hp : p.length ≤ 65533)
    (h : classify s.config p = .error e) : exec (.classify p) s = .next (afterError s p e) := by
  rw [exec_classify, h, classified_error hp]

/-- Settles O19. -/
theorem classifyReportsTheDecoder : Obligations.ClassifyReportsTheDecoder := fun _ _ hp =>
  ⟨fun _ => exec_classify_ok hp, fun _ => exec_classify_error hp⟩

/-! ## Each row is CLASSIFY of its payload (log 2) -/

theorem exec_msgReplyCode (rest : Bytes) (s : State) :
    exec (.msgReplyCode rest) s = exec (.classify (0x01#8 :: rest)) s := by
  rw [exec_classify, classify_replyCode]; rfl

theorem exec_msgMeas (rest : Bytes) (s : State) : exec (.msgMeas rest) s = exec (.classify (0x02#8 :: rest)) s := by
  rw [exec_classify, classify_meas]; rfl

theorem exec_msgSaved (rest : Bytes) (s : State) : exec (.msgSaved rest) s = exec (.classify (0x03#8 :: rest)) s := by
  rw [exec_classify, classify_saved]; rfl

theorem exec_msgRecInfo (rest : Bytes) (s : State) :
    exec (.msgRecInfo rest) s = exec (.classify (0x04#8 :: rest)) s := by
  rw [exec_classify, classify_recInfo]; rfl

theorem exec_msgRecData (rest : Bytes) (s : State) :
    exec (.msgRecData rest) s = exec (.classify (0x05#8 :: rest)) s := by
  rw [exec_classify, classify_recData]; rfl

theorem exec_msgReply (rest : Bytes) (s : State) : exec (.msgReply rest) s = exec (.classify (0x72#8 :: rest)) s := by
  rw [exec_classify, classify_reply]; rfl

theorem exec_replySuccess (rest : Bytes) (s : State) :
    exec (.replySuccess rest) s = exec (.classify (0x01#8 :: (le16Bytes 0x4B4F#16 ++ rest))) s := by
  rw [exec_classify, classify_replyCode, replyCode_of_code]; rfl

theorem exec_replyDeviceError (rest : Bytes) (s : State) :
    exec (.replyDeviceError rest) s = exec (.classify (0x01#8 :: (le16Bytes 0x5245#16 ++ rest))) s := by
  rw [exec_classify, classify_replyCode, replyCode_of_code]; rfl

/-- A row of format MEAS, by the kind it stands for (R130). -/
theorem exec_measInstr (c : Carrier) (k : Kind) (f : HdrFlags) (rest : Bytes) (s : State) :
    exec (measInstr c f rest k) s = exec (.classify (measPayload c (hdrByte k f) rest)) s := by
  rw [exec_classify, classify_measPayload]
  cases k <;> rfl

/-- A row of format RANGE, by its range byte and the range it means (R155). -/
theorem exec_range {i : Instr} {u : RangeUse} {b : Byte} {r : Range} (hr : decRange b = .ok r) {s : State}
    (hi : exec i s = .next (s.classifiedRange u b r)) : exec i s = exec (.classify (u.payload b)) s := by
  rw [hi, exec_classify, classify_rangePayload s.config u hr]; rfl

/-- Settles O20: the payload of each row is the one its code stands in. -/
theorem payloadRowsAreClassify : Obligations.PayloadRowsAreClassify := by
  intro i p s hp
  cases i <;> simp only [rowPayload, encode, Option.some.injEq, reduceCtorEq] at hp <;> subst hp
  case msgReplyCode rest => exact exec_msgReplyCode rest s
  case msgMeas rest => exact exec_msgMeas rest s
  case msgSaved rest => exact exec_msgSaved rest s
  case msgRecInfo rest => exact exec_msgRecInfo rest s
  case msgRecData rest => exact exec_msgRecData rest s
  case msgReply rest => exact exec_msgReply rest s
  case replySuccess rest => exact exec_replySuccess rest s
  case replyDeviceError rest => exact exec_replyDeviceError rest s
  case measNormal c f rest => exact exec_measInstr c .normal f rest s
  case measRelative c f rest => exact exec_measInstr c .relative f rest s
  case measMinMax c f rest => exact exec_measInstr c .minMax f rest s
  case measPeak c f rest => exact exec_measInstr c .peak f rest s
  case rangeAuto u => exact exec_range (b := 0x00#8) rfl rfl
  case rangeStep1 u => exact exec_range (b := 0x01#8) rfl rfl
  case rangeStep2 u => exact exec_range (b := 0x02#8) rfl rfl
  case rangeStep3 u => exact exec_range (b := 0x03#8) rfl rfl
  case rangeStep4 u => exact exec_range (b := 0x04#8) rfl rfl
  case rangeStep5 u => exact exec_range (b := 0x05#8) rfl rfl
  case rangeStep6 u => exact exec_range (b := 0x06#8) rfl rfl
  case rangeStep7 u => exact exec_range (b := 0x07#8) rfl rfl
  case rangeStep8 u => exact exec_range (b := 0x08#8) rfl rfl

/-! ## Replies -/

/-- Settles O23. -/
theorem rawReplyIsVerbatim : Obligations.RawReplyIsVerbatim := by
  intro rest s hrest
  have h : exec (.classify (0x72#8 :: rest)) s = .next (afterMsg s (0x72#8 :: rest) (.reply rest)) :=
    exec_classify_ok hrest (classify_reply s.config rest)
  exact ⟨h, (exec_msgReply rest s).trans h⟩

/-- The two bytes of a reply code spell it (R31, R112). -/
theorem replyCode_bytes (c0 c1 : Byte) (rest : Bytes) : replyCode (0x01#8 :: c0 :: c1 :: rest) =
    match (le16 [c0, c1]).toNat with
    | 0x4B4F => .ok .success
    | 0x5245 => .ok .deviceError
    | _ => .error (.unknownReplyCode (le16 [c0, c1])) := by
  have h := replyCode_of_code (le16 [c0, c1]) rest
  rwa [le16Bytes_le16] at h

theorem replyCode_unknown {c0 c1 : Byte} (rest : Bytes) (hok : c0.toNat + 256 * c1.toNat ≠ 0x4B4F)
    (herr : c0.toNat + 256 * c1.toNat ≠ 0x5245) : replyCode (0x01#8 :: c0 :: c1 :: rest) =
      .error (.unknownReplyCode (BitVec.ofNat 16 (c0.toNat + 256 * c1.toNat))) := by
  rw [replyCode_bytes, ← le16_pair_toNat, BitVec.ofNat_toNat, BitVec.setWidth_eq]
  rw [← le16_pair_toNat] at hok herr
  split
  · exact absurd ‹_› hok
  · exact absurd ‹_› herr
  · rfl

theorem replyCode_short {p : Bytes} (h : p.length < 3) : replyCode p = .error (.truncated 3 p.length) := by
  simp only [replyCode, readLE16, field_error (n := 2) (o := 1) h, bind, Except.bind]

/-- Settles O22: the rows of the two codes, and of tag 0x01 by the code's two bytes. -/
theorem replyCodesDecode : Obligations.ReplyCodesDecode := by
  intro rest s hrest
  have hlen (c0 c1 : Byte) : (0x01#8 :: c0 :: c1 :: rest).length ≤ 65533 := hrest
  have hok : exec (.msgReplyCode (0x4F#8 :: 0x4B#8 :: rest)) s =
      .next (afterMsg s (0x01#8 :: 0x4F#8 :: 0x4B#8 :: rest) .success) :=
    (exec_msgReplyCode _ s).trans
      (exec_classify_ok (hlen _ _) ((classify_replyCode _ _).trans (replyCode_bytes _ _ _)))
  have herr : exec (.msgReplyCode (0x45#8 :: 0x52#8 :: rest)) s =
      .next (afterMsg s (0x01#8 :: 0x45#8 :: 0x52#8 :: rest) .deviceError) :=
    (exec_msgReplyCode _ s).trans
      (exec_classify_ok (hlen _ _) ((classify_replyCode _ _).trans (replyCode_bytes _ _ _)))
  refine ⟨?_, ?_, hok, herr, fun c0 c1 h1 h2 => ?_, ?_, fun c0 => ?_⟩
  · rw [exec_replySuccess, ← hok, exec_msgReplyCode]; rfl
  · rw [exec_replyDeviceError, ← herr, exec_msgReplyCode]; rfl
  · rw [exec_msgReplyCode]
    exact exec_classify_error (hlen _ _) ((classify_replyCode _ _).trans (replyCode_unknown rest h1 h2))
  · rw [exec_msgReplyCode]
    exact exec_classify_error (by simp) ((classify_replyCode _ _).trans (replyCode_short (by simp)))
  · rw [exec_msgReplyCode]
    exact exec_classify_error (by simp) ((classify_replyCode _ _).trans (replyCode_short (by simp)))

/-! ## Saved measurements and records -/

/-- A saved measurement reports its date/time's error whatever the measurement is (R114, R203). -/
theorem saved_error {cfg : Config} {p : Bytes} {e : DecodeError} (h : decDateTime p 1 = .error e) :
    saved cfg p = .error e := by
  simp only [saved, savedMessage, h, bind, Except.bind]

/-- Settles O24: the date/time stands at offset 1 of the payload and is read first. -/
theorem savedDateTimeErrorWins : Obligations.SavedDateTimeErrorWins := by
  refine ⟨fun b0 b1 b2 b3 rest s hrest hbad => ?_, fun rest s hrest => ?_⟩
  · have hat : StandsAt (0x03#8 :: b0 :: b1 :: b2 :: b3 :: rest) 1 [b0, b1, b2, b3] := ⟨[0x03#8], rest, rfl, rfl⟩
    have hdec := decDateTime_at hat
    rw [hbad] at hdec
    rw [exec_msgSaved]
    exact exec_classify_error (by simp only [List.length_cons]; omega) ((classify_saved _ _).trans (saved_error hdec))
  · have hdec := decDateTime_short (p := 0x03#8 :: rest) (o := 1) (by simp only [List.length_cons]; omega)
    rw [exec_msgSaved]
    exact exec_classify_error (by simp only [List.length_cons]; omega) ((classify_saved _ _).trans (saved_error hdec))

/-- Settles O25: each field stands where the default layout says. -/
theorem recordInfoDecodes : Obligations.RecordInfoDecodes := by
  intro s name unitField tail u interval duration samples vmax vavg vmin start hlayout hname hunit hstart hfits
  obtain ⟨d0, d1, d2, d3, henc, -⟩ := unpack_encDateTime hstart
  set p := 0x04#8 :: (recInfoBytes name unitField interval duration samples vmax vavg vmin start ++ tail) with hp
  have h1 : StandsAt p 1 (name ++ (unitField ++ (le16Bytes interval ++ (le32Bytes duration ++ (le32Bytes samples ++
      ((le32Bytes vmax.1 ++ [vmax.2]) ++ ((le32Bytes vavg.1 ++ [vavg.2]) ++ ((le32Bytes vmin.1 ++ [vmin.2]) ++
        encDateTime start)))))))) := ⟨[0x04#8], tail, by simp [hp, recInfoBytes], rfl⟩
  have h12 := h1.right
  rw [hname] at h12
  have h20 := h12.right
  rw [hunit.1] at h20
  have h22 := h20.right
  have h26 := h22.right
  have h30 := h26.right
  have h35 := h30.right
  have h40 := h35.right
  have h45 := h40.right
  simp only [List.length_append, length_le16Bytes, length_le32Bytes, List.length_singleton,
    Nat.reduceAdd] at h12 h20 h22 h26 h30 h35 h40 h45
  have hlen : p.length ≤ 65533 := by
    simp only [hp, recInfoBytes, List.length_cons, List.length_append, length_le16Bytes, length_le32Bytes, hname,
      hunit.1, henc, List.length_nil]
    omega
  rw [exec_msgRecInfo]
  refine exec_classify_ok hlen ((classify_recInfo _ _).trans ?_)
  rw [← hp]
  simp [recInfo, hlayout, defaultRecInfo, h1.left.field (n := 11) hname,
    readAt_at (l := ⟨12, 8⟩) h12.left hunit.1, decUnitExp_at h12.left hunit, readNat_at h20.left (n := 2) rfl,
    readNat_at h22.left (n := 4) rfl, readNat_at h26.left (n := 4) rfl, readAt_at (l := ⟨30, 5⟩) h30.left rfl,
    decValue5_at h30.left, readAt_at (l := ⟨35, 5⟩) h35.left rfl, decValue5_at h35.left,
    readAt_at (l := ⟨40, 5⟩) h40.left rfl, decValue5_at h40.left, readAt_at (l := ⟨45, 4⟩) h45 rfl,
    decDateTime_enc h45 hstart, leNat_le16Bytes, leNat_le32Bytes, bind, Except.bind, pure, Except.pure]

/-- A batch's payload, its items as wire forms and bytes after them (R57). -/
def batchPayload (count : Byte) (items : List WireItem) (after : Bytes) : Bytes :=
  0x05#8 :: count :: (items.flatMap WireItem.bytes ++ after)

/-- Where the items that decode end and the bytes after them begin. -/
theorem batchPayload_after (count : Byte) (items : List WireItem) (after : Bytes) :
    StandsAt (batchPayload count items after) (2 + 9 * items.length) after :=
  ⟨0x05#8 :: count :: items.flatMap WireItem.bytes, [], by simp [batchPayload], by
    simp only [List.length_cons, length_items]; omega⟩

theorem length_batchPayload (count : Byte) (items : List WireItem) (after : Bytes) :
    (batchPayload count items after).length = 2 + 9 * items.length + after.length := by
  simp only [batchPayload, List.length_cons, List.length_append, length_items]
  omega

/-- The items that decode come first, then what `n` more items at their end give (R116). -/
theorem recData_batchPayload {count : Byte} {items : List WireItem} (hp : ∀ i ∈ items, Packable i.ts) (after : Bytes)
    {n : Nat} (hn : count.toNat = items.length + n) :
    recData (batchPayload count items after) =
      (decItems (batchPayload count items after) (2 + 9 * items.length) n).map
        fun rest => .recordDataBatch (items.map WireItem.item ++ rest) := by
  have hat : StandsAt (batchPayload count items after) 1 (count :: (items.flatMap WireItem.bytes ++ after)) :=
    ⟨[0x05#8], [], by simp [batchPayload], rfl⟩
  have hitems : StandsAt (batchPayload count items after) 2 (items.flatMap WireItem.bytes) := hat.tail.left
  simp only [recData, hat.head.readByte, bind, Except.bind, pure, Except.pure, hn, decItems_at hitems hp n]
  cases decItems (batchPayload count items after) (2 + 9 * items.length) n <;> rfl

/-- Settles O26: the count is the number of items, so no further item is looked at. -/
theorem recordDataDecodes : Obligations.RecordDataDecodes := by
  intro s items tail hcount hp hfits
  have hn : (BitVec.ofNat 8 items.length).toNat = items.length + 0 := by simp only [BitVec.toNat_ofNat]; omega
  have hdec := recData_batchPayload hp tail hn
  rw [exec_msgRecData]
  refine exec_classify_ok ((length_batchPayload _ _ _).trans_le hfits) ((classify_recData _ _).trans (hdec.trans ?_))
  simp only [decItems, Except.map, List.append_nil]

/-- The first item that does not decode gives the batch's error (R116, R203). -/
theorem recData_bad_item {count : Byte} {items : List WireItem} (hp : ∀ i ∈ items, Packable i.ts) {after : Bytes}
    {e : DecodeError} (hcount : items.length < count.toNat)
    (hbad : decItem (batchPayload count items after) (2 + 9 * items.length) = .error e) :
    recData (batchPayload count items after) = .error e := by
  obtain ⟨n, hn⟩ : ∃ n, count.toNat = items.length + (n + 1) := ⟨count.toNat - items.length - 1, by omega⟩
  rw [recData_batchPayload hp after hn]
  simp only [decItems, hbad, bind, Except.bind, Except.map]

/-- An item whose date/time is no real one (R116). -/
theorem decItem_bad_time {p : Bytes} {o : Nat} {m : Word} {f b0 b1 b2 b3 : Byte}
    (h : StandsAt p o (le32Bytes m ++ [f, b0, b1, b2, b3]))
    (hbad : validDateTime (unpackDateTime b0 b1 b2 b3) = false) :
    decItem p o = .error (.invalidDateTime (unpackDateTime b0 b1 b2 b3)) := by
  have h' : StandsAt p o ((le32Bytes m ++ [f]) ++ [b0, b1, b2, b3]) := by simpa using h
  have h5 : StandsAt p (o + 5) [b0, b1, b2, b3] := h'.right
  simp only [decItem, decValue5_at h'.left, value5W, decDateTime_at h5, hbad, bind, Except.bind]
  rfl

theorem decValue5_short {p : Bytes} {o : Nat} (h : p.length < o + 5) :
    decValue5 p o = .error (.truncated (o + 5) p.length) := by
  rw [decValue5, need_error (n := value5W) h]
  rfl

/-- A value that is all there decodes, whatever its bytes are. -/
theorem decValue5_ok {p : Bytes} {o : Nat} (h : o + 5 ≤ p.length) : ∃ v, decValue5 p o = .ok v := by
  simp only [decValue5, need_ok (n := value5W) h, readLE32, readByte, field_ok (show o + 4 ≤ p.length by omega),
    field_ok (show o + 4 + 1 ≤ p.length by omega), bind, Except.bind, pure, Except.pure]
  exact ⟨_, rfl⟩

/-- An item of which less than its nine bytes are there: of its value, else of its date/time (R116, D24). -/
theorem decItem_short {p : Bytes} {o : Nat} (ho : o ≤ p.length) (h : p.length < o + 9) :
    decItem p o = .error (.truncated (if p.length - o < 5 then o + 5 else o + 9) p.length) := by
  by_cases h5 : p.length - o < 5
  · rw [if_pos h5, decItem, decValue5_short (by omega)]
    rfl
  · obtain ⟨v, hv⟩ := decValue5_ok (p := p) (o := o) (by omega)
    rw [if_neg h5, decItem, hv, value5W]
    simp only [decDateTime_short (show p.length < o + 5 + 4 by omega), bind, Except.bind]

/-- Settles O27: the items before the bad one decode, and a batch without its count has no byte to read. -/
theorem firstBadItemFailsTheBatch : Obligations.FirstBadItemFailsTheBatch := by
  refine ⟨fun s items m f b0 b1 b2 b3 count tail hcount hp hfits hbad => ?_, fun s items part count hcount hp hpart => ?_,
    fun s => ?_⟩
  · set after := le32Bytes m ++ [f, b0, b1, b2, b3] ++ tail with hafter
    have hlen : after.length = 9 + tail.length := by simp [hafter]; omega
    have hitem := decItem_bad_time (batchPayload_after count items after).left hbad
    rw [exec_msgRecData]
    exact exec_classify_error ((length_batchPayload count items after).trans_le (by omega))
      ((classify_recData _ _).trans (recData_bad_item hp hcount hitem))
  · intro o
    have hlen := length_batchPayload count items part
    have hcount' := count.isLt
    have hitem := decItem_short (p := batchPayload count items part) (o := o) (by omega) (by omega)
    rw [hlen, show 2 + 9 * items.length + part.length - o = part.length by omega] at hitem
    rw [exec_msgRecData]
    exact exec_classify_error (hlen.trans_le (by omega))
      ((classify_recData _ _).trans (recData_bad_item hp hcount hitem))
  · rw [exec_msgRecData]
    exact exec_classify_error (by simp) ((classify_recData _ _).trans rfl)

/-! ## What every shape shares -/

/-- Bytes after the last field change nothing, except in a raw reply (R119). -/
theorem classify_append {cfg : Config} {p extra : Bytes} {m : Message} (hraw : p.head? ≠ some 0x72#8)
    (h : classify cfg p = .ok m) : classify cfg (p ++ extra) = .ok m := by
  cases p with
  | nil => cases h
  | cons tag rest =>
    simp only [classify, List.cons_append, readByte_cons, bind, Except.bind] at h ⊢
    rw [← List.cons_append]
    split at h
    · exact Reader.replyCode.extend _ extra m h
    · exact (Reader.meas cfg).extend _ extra m h
    · exact (Reader.saved cfg).extend _ extra m h
    · exact (Reader.recInfo cfg).extend _ extra m h
    · exact Reader.recData.extend _ extra m h
    · rename_i htag
      exact absurd (congrArg some (BitVec.eq_of_toNat_eq htag)) hraw
    · cases h

/-- Settles O28: a CLASSIFY that reports a message says that its payload decodes to it. -/
theorem extraBytesAreIgnored : Obligations.ExtraBytesAreIgnored := by
  intro s p extra m hraw hlen h
  rw [List.length_append] at hlen
  have hdec : classify s.config p = .ok m := by
    rw [exec_classify] at h
    injection h with h
    obtain ⟨-, m', hok, e⟩ | ⟨-, err, -, e⟩ | ⟨hlong, -⟩ := classified_cases s p (classify s.config p)
    · have hmsg : some m' = some m := congrArg (·.results.msg) (e.symm.trans h)
      rw [hok, Option.some.inj hmsg]
    · have hmsg : none = some m := congrArg (·.results.msg) (e.symm.trans h)
      cases hmsg
    · omega
  exact exec_classify_ok (by rw [List.length_append]; omega) (classify_append hraw hdec)

/-- Settles O29: every decoder that ends in Truncated names the lengths, and a raw reply never does. -/
theorem truncatedNamesTheLengths : Obligations.TruncatedNamesTheLengths := by
  refine fun cfg => ⟨fun p needed present h => ?_, rfl⟩
  simp only [classify, bind, Except.bind] at h
  split at h
  · rename_i e he
    cases h
    exact (Reader.readByte 0).short p needed present he
  · split at h
    · exact Reader.replyCode.short p needed present h
    · exact (Reader.meas cfg).short p needed present h
    · exact (Reader.saved cfg).short p needed present h
    · exact (Reader.recInfo cfg).short p needed present h
    · exact Reader.recData.short p needed present h
    · cases h
    · cases h

end Sys2Proof.Machine
end

section
/-! Measurements on the wire (43_measurement_decoder.md R130 to R135, 44_primitive_codecs.md R157, R158). -/

namespace Sys2Proof.Machine

/-! ## Measurements that decode -/

theorem autoRange_eq (auto : Byte) : (auto == 0x01#8) = decide (auto.toNat = 1) := by
  rw [Bool.eq_iff_iff, beq_iff_eq, decide_eq_true_iff, ← BitVec.toNat_inj]
  rfl

/-- An instruction that is CLASSIFY of a measurement on the wire gives the message its fields spell (R113, R114, R130). -/
theorem measuresAs_wire {i : Instr} {s : State} {ts : Option DateTime} {f : HdrFlags} {auto : Byte} {code : Half}
    {id : ModeId} {r : Range} {b : WireBody} {tail p : Bytes}
    (hp : p = measPayload (carrierOf ts) (hdrByte b.kind f) (afterHeader auto code r b tail))
    (hi : exec i s = exec (.classify p) s) (hok : MeasOk s ts code id p) (hb : b.Ok s.config f) :
    MeasuresAs i s ts f auto id r b p := by
  obtain ⟨hlen, hts, hid⟩ := hok
  have hrest : afterHeader auto code r b tail = (headerBytes auto code (encRange r) ++ b.bytes) ++ tail := by
    simp [afterHeader, headerBytes]
  have hat : StandsAt p ((carrierOf ts).base + 1) (headerBytes auto code (encRange r) ++ b.bytes) := by
    rw [hp, hrest]
    exact (measPayload_at _ _ _ tail).tail
  have hdec : classify s.config p = .ok (messageOf ts (measurementOf id r f auto b)) := by
    have hmeas := decMeasRest_at hat hid hb
    subst hp
    rw [classify_measPayload, hmeas, carried_carrierOf hts]
  rw [MeasuresAs, hi, ← autoRange_eq]
  exact exec_classify_ok hlen hdec

/-- Settles O30. -/
theorem normalMeasurementDecodes : Obligations.NormalMeasurementDecodes := by
  intro s ts f auto code id r main sec ter fast tail b rest payload hok hb
  exact measuresAs_wire rfl (exec_measInstr _ .normal f rest s) hok hb

/-- Settles O31. -/
theorem relativeMeasurementDecodes : Obligations.RelativeMeasurementDecodes := by
  intro s ts f auto code id r rel ref abs fast tail b rest payload hok hb
  exact measuresAs_wire rfl (exec_measInstr _ .relative f rest s) hok hb

/-- Settles O32. -/
theorem minMaxMeasurementDecodes : Obligations.MinMaxMeasurementDecodes := by
  intro s ts f auto code id r field u main max average min tail b rest payload hok hb
  exact measuresAs_wire rfl (exec_measInstr _ .minMax f rest s) hok hb

/-- Settles O33. -/
theorem peakMeasurementDecodes : Obligations.PeakMeasurementDecodes := by
  intro s ts f auto code id r max min tail b rest payload hok hb
  exact measuresAs_wire rfl (exec_measInstr _ .peak f rest s) hok hb

/-- Settles O34: the payload of each tag is the measurement behind its carrier. -/
theorem taggedMeasurementsDecode : Obligations.TaggedMeasurementsDecode := by
  intro s f auto code id r b tail rest hb hid
  refine ⟨fun hlen => ?_, fun ts hts hlen => ?_⟩
  · exact measuresAs_wire (ts := none) rfl (exec_msgMeas rest s) ⟨hlen, nofun, hid⟩ hb
  · have hfits : (0x03#8 :: (encDateTime ts ++ rest)).length ≤ 65533 := by
      obtain ⟨d0, d1, d2, d3, henc, -⟩ := unpack_encDateTime hts
      simp only [henc, List.length_cons, List.length_append, List.length_nil]
      omega
    refine measuresAs_wire (ts := some ts) rfl (exec_msgSaved _ s) ⟨hfits, ?_, hid⟩ hb
    rintro t ⟨⟩
    exact hts

theorem length_rangePayload (u : RangeUse) (b b' : Byte) : (u.payload b).length = (u.payload b').length := by
  simp [RangeUse.payload, measPayload]

/-- A range row gives the measurement of its range (R155). -/
theorem measuresAs_range {i : Instr} {s : State} {ts : Option DateTime} {f : HdrFlags} {auto : Byte} {code : Half}
    {id : ModeId} {b : WireBody} {tail : Bytes} (r : Range) {u : RangeUse}
    (hu : u = ⟨carrierOf ts, b.kind, f, auto, code, b.bytes ++ tail⟩)
    (hi : exec i s = .next (s.classifiedRange u (encRange r) r)) (hok : MeasOk s ts code id (u.payload 0x00#8))
    (hb : b.Ok s.config f) : MeasuresAs i s ts f auto id r b (u.payload (encRange r)) := by
  obtain ⟨hlen, hts, hid⟩ := hok
  have hp : u.payload (encRange r) =
      measPayload (carrierOf ts) (hdrByte b.kind f) (afterHeader auto code r b tail) := by
    rw [hu]
    rfl
  rw [length_rangePayload u _ (encRange r)] at hlen
  exact measuresAs_wire hp (exec_range (decRange_encRange r) hi) ⟨hlen, hts, hid⟩ hb

/-- Settles O35: the nine rows with their ranges. -/
theorem rangeRowsDecode : Obligations.RangeRowsDecode := by
  intro s ts f auto code id b tail u hb hok
  exact ⟨measuresAs_range .auto rfl rfl hok hb, measuresAs_range .step1 rfl rfl hok hb,
    measuresAs_range .step2 rfl rfl hok hb, measuresAs_range .step3 rfl rfl hok hb,
    measuresAs_range .step4 rfl rfl hok hb, measuresAs_range .step5 rfl rfl hok hb,
    measuresAs_range .step6 rfl rfl hok hb, measuresAs_range .step7 rfl rfl hok hb,
    measuresAs_range .step8 rfl rfl hok hb⟩

/-! ## Errors of the header -/

/-- The kind field, bits 4 to 6, is one of four numbers exactly when it is a kind (R59). -/
theorem kindOf_isSome_iff : ∀ hdr : Byte, (kindOf hdr).isSome ↔ hdr.toNat / 16 % 8 ∈ [0, 1, 2, 4] := by decide

/-- A measurement decodes behind its carrier, whatever its header byte is (R110, R113, R114). -/
theorem classify_carrier (cfg : Config) (c : Carrier) (hdr : Byte) (rest : Bytes) :
    classify cfg (measPayload c hdr rest) =
      carried c (measPayload c hdr rest) (decMeas cfg (measPayload c hdr rest) c.base) := by
  cases c with
  | live => exact classify_meas cfg _
  | saved d0 d1 d2 d3 => exact classify_saved cfg _

/-- Behind a real date/time the measurement's error is the payload's (R113, R114). -/
theorem classify_decMeas_error {cfg : Config} {ts : Option DateTime} {hdr : Byte} {rest : Bytes} {e : DecodeError}
    (hts : PackableOpt ts)
    (h : decMeas cfg (measPayload (carrierOf ts) hdr rest) (carrierOf ts).base = .error e) :
    classify cfg (measPayload (carrierOf ts) hdr rest) = .error e := by
  rw [classify_carrier, h]
  cases ts with
  | none => rfl
  | some t =>
    have hp : Packable t := hts t rfl
    have hat : StandsAt (measPayload (carrierOf (some t)) hdr rest) 1 (encDateTime t) :=
      ⟨[0x03#8], hdr :: rest, rfl, rfl⟩
    change savedMessage _ _ = _
    simp only [savedMessage, decDateTime_enc hat hp, bind, Except.bind]

theorem decMeas_unknown_kind {cfg : Config} {p : Bytes} {base : Nat} {hdr : Byte} (h : StandsAt p base [hdr])
    (hk : kindOf hdr = none) : decMeas cfg p base = .error (.unknownMeasurementKind hdr) := by
  simp only [decMeas, h.readByte, hk, bind, Except.bind]
  rfl

/-- With a known kind the header's fields are read in order: mode, then range (R130). -/
theorem decMeas_unknown_mode {cfg : Config} {p : Bytes} {base : Nat} {hdr auto : Byte} {code : Half}
    (h : StandsAt p base (hdr :: auto :: le16Bytes code)) (hk : (kindOf hdr).isSome)
    (hm : tableGet cfg.modeTable code = none) : decMeas cfg p base = .error (.unknownMeasurementMode code) := by
  obtain ⟨k, hk⟩ := Option.isSome_iff_exists.mp hk
  simp only [decMeas, h.head.readByte, hk, decMeasRest, h.tail.head.readByte, h.tail.tail.readLE16, decMode, hm, bind,
    Except.bind]

theorem decMeas_unknown_range {cfg : Config} {p : Bytes} {base : Nat} {hdr auto rb : Byte} {code : Half}
    (h : StandsAt p base (hdr :: auto :: (le16Bytes code ++ [rb]))) (hk : (kindOf hdr).isSome)
    (hm : (tableGet cfg.modeTable code).isSome) (hrb : 9 ≤ rb.toNat) :
    decMeas cfg p base = .error (.unknownMeasurementRange rb) := by
  obtain ⟨k, hk⟩ := Option.isSome_iff_exists.mp hk
  obtain ⟨id, hm⟩ := Option.isSome_iff_exists.mp hm
  have h4 : StandsAt p (base + 4) [rb] := h.tail.tail.right
  obtain ⟨hlt, -⟩ | ⟨-, hr⟩ := decRange_cases rb
  · omega
  · simp only [decMeas, h.head.readByte, hk, decMeasRest, h.tail.head.readByte, h.tail.tail.left.readLE16, decMode, hm,
      h4.readByte, hr, bind, Except.bind]

/-- Settles O36: the header's fields are read before the body and in this order. -/
theorem measurementHeaderErrorsInOrder : Obligations.MeasurementHeaderErrorsInOrder := by
  intro s ts hdr auto rb code rest hts
  rw [← kindOf_isSome_iff]
  refine ⟨?_, ?_, ?_⟩
  · intro hk p hlen
    refine exec_classify_error hlen (classify_decMeas_error hts (decMeas_unknown_kind ?_ ?_))
    · simpa using measPayload_at (carrierOf ts) hdr [] rest
    · simpa using hk
  · intro hk hm p hlen
    refine exec_classify_error hlen (classify_decMeas_error hts (decMeas_unknown_mode (auto := auto) ?_ hk hm))
    exact measPayload_at (carrierOf ts) hdr (auto :: le16Bytes code) rest
  · intro hk hm hrb p hlen
    refine exec_classify_error hlen (classify_decMeas_error hts (decMeas_unknown_range (auto := auto) ?_ hk hm hrb))
    simpa using measPayload_at (carrierOf ts) hdr (auto :: (le16Bytes code ++ [rb])) rest

/-! ## Units that are not in the table -/

theorem decUnitExp_unknown {cfg : Config} {p : Bytes} {o : Nat} {bs : Bytes} (h : StandsAt p o bs) (hlen : bs.length = 8)
    (hu : tableGet cfg.unitTable (cstr bs) = none) :
    decUnitExp cfg p o = .error (.unknownMeasurementUnit (cstr bs)) := by
  simp only [decUnitExp, h.field (n := unitW) hlen, hu, bind, Except.bind]
  rfl

/-- A value whose bytes are all there reports its unit (R151). -/
theorem decValue13_unknown {cfg : Config} {p : Bytes} {o : Nat} {m : Word} {f : Byte} {bs : Bytes}
    (h : StandsAt p o (le32Bytes m ++ f :: bs)) (hlen : bs.length = 8) (hu : tableGet cfg.unitTable (cstr bs) = none) :
    decValue13 cfg p o = .error (.unknownMeasurementUnit (cstr bs)) := by
  have h4 : StandsAt p (o + 4) (f :: bs) := h.right
  simp only [decValue13, h.need (n := valueW) (by simp [hlen, valueW]), h.left.readLE32, h4.head.readByte,
    decUnitExp_unknown h4.tail hlen hu, bind, Except.bind]

theorem decValue13_short {cfg : Config} {p : Bytes} {o : Nat} (h : p.length < o + 13) :
    decValue13 cfg p o = .error (.truncated (o + 13) p.length) := by
  rw [decValue13, need_error (n := valueW) h]
  rfl

theorem decFast_unknown {cfg : Config} {p : Bytes} {o : Nat} {m : Word} {bs : Bytes} (hw : cfg.fastUnitW = 8)
    (h : StandsAt p o (le32Bytes m ++ bs)) (hlen : bs.length = 8) (hu : tableGet cfg.unitTable (cstr bs) = none) :
    decFast cfg p o = .error (.unknownMeasurementUnit (cstr bs)) := by
  have h4 : StandsAt p (o + 4) bs := h.right
  simp only [decFast, hw, h.need (n := 12) (by simp [hlen]), h.left.readLE32, decUnitExp_unknown h4 hlen hu, bind,
    Except.bind]

theorem decFast_short {cfg : Config} {p : Bytes} {o : Nat} (hw : cfg.fastUnitW = 8) (h : p.length < o + 12) :
    decFast cfg p o = .error (.truncated (o + 12) p.length) := by
  rw [decFast, hw, need_error (n := 4 + 8) h]
  rfl

/-- Settles O37: each place of a unit field reads the field before anything behind it. -/
theorem unknownUnitIsReported : Obligations.UnknownUnitIsReported := by
  intro cfg field hlen hu
  refine ⟨fun pre post => ?_, fun pre post m f => ⟨?_, fun n hn => ?_⟩, fun hw pre post m => ⟨?_, fun n hn => ?_⟩,
    fun pre post base hpre => ?_, fun hlayout name post hname => ?_⟩
  · exact decUnitExp_unknown ⟨pre, post, by simp, rfl⟩ hlen hu
  · exact decValue13_unknown (m := m) (f := f) ⟨pre, post, by simp, rfl⟩ hlen hu
  · have hp : (pre ++ (le32Bytes m ++ f :: field).take n).length = pre.length + n := by simp [hlen]; omega
    rw [decValue13_short (by omega), hp]
  · exact decFast_unknown (m := m) hw ⟨pre, post, by simp, rfl⟩ hlen hu
  · have hp : (pre ++ (le32Bytes m ++ field).take n).length = pre.length + n := by simp [hlen]; omega
    rw [decFast_short hw (by omega), hp]
  · rw [decMinMax, decUnitExp_unknown ⟨pre, post, by simp, hpre⟩ hlen hu]
    rfl
  · have h1 : StandsAt (0x04#8 :: (name ++ field ++ post)) 1 (name ++ field) := ⟨[0x04#8], post, by simp, rfl⟩
    have h12 := h1.right
    rw [hname] at h12
    simp only [recInfo, hlayout, defaultRecInfo, h1.left.field hname, readAt_at (l := ⟨12, 8⟩) h12 hlen,
      decUnitExp_unknown h12 hlen hu, bind, Except.bind]

/-! ## Measurements that are too short -/

theorem except_bind_eq_ok {ε α β : Type} {x : Except ε α} {g : α → Except ε β} {b : β} :
    (x >>= g) = .ok b ↔ ∃ a, x = .ok a ∧ g a = .ok b := by
  cases x <;> simp [bind, Except.bind]

theorem decValue13_ok_le {cfg : Config} {p : Bytes} {o : Nat} {v : Value} (h : decValue13 cfg p o = .ok v) :
    o + 13 ≤ p.length := by
  by_contra hlt
  rw [decValue13_short (Nat.not_le.mp hlt)] at h
  cases h

theorem decTimed_ok_le {p : Bytes} {o : Nat} {v : TimedValue} (h : decTimed p o = .ok v) : o + 9 ≤ p.length := by
  obtain ⟨_, _, h⟩ := except_bind_eq_ok.mp h
  obtain ⟨_, hd, -⟩ := except_bind_eq_ok.mp h
  obtain ⟨_, hf, -⟩ := except_bind_eq_ok.mp hd
  obtain ⟨hle, -⟩ | ⟨-, e⟩ := field_cases p (o + value5W) 4
  · simpa [value5W, Nat.add_assoc] using hle
  · rw [e] at hf
    cases hf

/-- The least number of bytes of a measurement of each kind, its header byte first (R135). -/
def minMeasW : Kind → Nat
  | .normal => 18
  | .relative => 44
  | .minMax => 49
  | .peak => 31

/-- A body that decodes has all its mandatory fields: the last of them tells how many bytes there are. -/
theorem decBody_ok_le {cfg : Config} {p : Bytes} {base : Nat} {f : HdrFlags} {k : Kind} {b : Body}
    (hlayout : k = .minMax → cfg.minMax = defaultMinMax) (h : decBody cfg p base f k = .ok b) :
    base + minMeasW k ≤ p.length := by
  cases k with
  | normal =>
    obtain ⟨_, hmain, -⟩ := except_bind_eq_ok.mp h
    exact decValue13_ok_le hmain
  | relative =>
    obtain ⟨_, _, h⟩ := except_bind_eq_ok.mp h
    obtain ⟨_, _, h⟩ := except_bind_eq_ok.mp h
    obtain ⟨_, habs, -⟩ := except_bind_eq_ok.mp h
    exact decValue13_ok_le habs
  | minMax =>
    obtain ⟨_, _, h⟩ := except_bind_eq_ok.mp h
    obtain ⟨_, _, h⟩ := except_bind_eq_ok.mp h
    obtain ⟨_, _, h⟩ := except_bind_eq_ok.mp h
    obtain ⟨_, _, h⟩ := except_bind_eq_ok.mp h
    obtain ⟨_, hmin, -⟩ := except_bind_eq_ok.mp h
    have := decTimed_ok_le hmin
    rwa [hlayout rfl] at this
  | peak =>
    obtain ⟨_, _, h⟩ := except_bind_eq_ok.mp h
    obtain ⟨_, hmin, -⟩ := except_bind_eq_ok.mp h
    exact decValue13_ok_le hmin

/-- A measurement decodes only with its body. -/
theorem decMeasRest_ok {cfg : Config} {p : Bytes} {base : Nat} {f : HdrFlags} {body : Except DecodeError Body}
    {m : Measurement} (h : decMeasRest cfg p base f body = .ok m) : ∃ b, body = .ok b := by
  obtain ⟨_, _, h⟩ := except_bind_eq_ok.mp h
  obtain ⟨_, _, h⟩ := except_bind_eq_ok.mp h
  obtain ⟨_, _, h⟩ := except_bind_eq_ok.mp h
  obtain ⟨_, _, h⟩ := except_bind_eq_ok.mp h
  obtain ⟨_, _, h⟩ := except_bind_eq_ok.mp h
  obtain ⟨b, hb, -⟩ := except_bind_eq_ok.mp h
  exact ⟨b, hb⟩

/-- A payload of a measurement decodes only with the measurement. -/
theorem carried_ok {c : Carrier} {p : Bytes} {r : Except DecodeError Measurement} {msg : Message}
    (h : carried c p r = .ok msg) : ∃ m, r = .ok m := by
  cases c with
  | live =>
    obtain ⟨m, hm, -⟩ := except_bind_eq_ok.mp h
    exact ⟨m, hm⟩
  | saved d0 d1 d2 d3 =>
    obtain ⟨_, _, h⟩ := except_bind_eq_ok.mp h
    obtain ⟨m, hm, -⟩ := except_bind_eq_ok.mp h
    exact ⟨m, hm⟩

theorem length_measPayload (c : Carrier) (hdr : Byte) (rest : Bytes) :
    (measPayload c hdr rest).length = c.base + (rest.length + 1) := by
  simp [measPayload, length_lead]

/-- A row of format MEAS with fewer bytes than its kind needs ends in a decode error (R135). -/
theorem measInstr_short (s : State) (c : Carrier) (f : HdrFlags) (rest : Bytes) (k : Kind)
    (hlayout : k = .minMax → s.config.minMax = defaultMinMax) (hshort : rest.length + 1 < minMeasW k) :
    ∃ e, exec (measInstr c f rest k) s = .next (afterError s (measPayload c (hdrByte k f) rest) e) := by
  have hlen := length_measPayload c (hdrByte k f) rest
  have hw : minMeasW k ≤ 49 := by cases k <;> simp [minMeasW]
  have hc : c.base ≤ 5 := by cases c <;> simp [Carrier.base]
  cases hdec : classify s.config (measPayload c (hdrByte k f) rest) with
  | error e => exact ⟨e, (exec_measInstr c k f rest s).trans (exec_classify_error (by omega) hdec)⟩
  | ok msg =>
    rw [classify_measPayload] at hdec
    obtain ⟨m, hm⟩ := carried_ok hdec
    obtain ⟨b, hb⟩ := decMeasRest_ok hm
    have := decBody_ok_le hlayout hb
    omega

/-- Settles O38: the four kinds with their least lengths. -/
theorem shortMeasurementsNeverDecode : Obligations.ShortMeasurementsNeverDecode := by
  intro s c f rest
  exact ⟨measInstr_short s c f rest .normal nofun, measInstr_short s c f rest .relative nofun,
    fun hlayout => measInstr_short s c f rest .minMax fun _ => hlayout, measInstr_short s c f rest .peak nofun⟩

end Sys2Proof.Machine
end

section
/-! What is presented and what it means: select codes, encode after decode, and what is of no row (30_encoding.md R50 to R76). -/

namespace Sys2Proof.Machine

/-! ## Select codes (R51) -/

/-- A select code from 7 on names the reserved operation of that code. -/
theorem select_reserved {op : BitVec 4} (h : 7 ≤ op.toNat) (x : Operand) :
    ∃ k, HostOp.select op x = .reserved k x ∧ reservedOp k = op := by
  have hlt := op.isLt
  refine ⟨Fin.ofNat 9 (op.toNat - 7), ?_, BitVec.eq_of_toNat_eq ?_⟩
  · unfold HostOp.select
    split
    case h_8 => rfl
    all_goals omega
  · simp only [reservedOp, Fin.ofNat, BitVec.toNat_ofNat]
    omega

/-- Settles O3: the decoder keeps the code, and the refusal reports it. -/
theorem reservedOpIsRefused : Obligations.ReservedOpIsRefused := by
  refine ⟨fun op x s hop => ?_, exec_hostopReserved⟩
  obtain ⟨k, hsel, hk⟩ := select_reserved hop x
  refine ⟨k, by rw [hsel]; rfl, ?_⟩
  rw [exec_hostopReserved, hk]

/-- A host operation is the one its select code names. -/
theorem code_select (op : BitVec 4) (x : Operand) : (HostOp.select op x).code = op := by
  rcases Nat.lt_or_ge op.toNat 7 with h | h
  · unfold HostOp.select
    split
    case h_8 =>
      -- the code is none of the seven listed
      simp only [imp_false] at *
      omega
    all_goals
      -- the code is the one this arm of the table lists
      rename_i hcode
      exact BitVec.eq_of_toNat_eq hcode.symm
  · obtain ⟨k, hsel, hk⟩ := select_reserved h x
    rw [hsel]
    exact hk

/-- Every host operation has a select code and an operand. -/
theorem exists_select (h : HostOp) : ∃ x : Operand, HostOp.select h.code x = h := by
  cases h with
  | reset => exact ⟨{}, rfl⟩
  | push b => exact ⟨⟨b, .count 0⟩, rfl⟩
  | scan => exact ⟨{}, rfl⟩
  | drop k => exact ⟨⟨[], k⟩, rfl⟩
  | csum p => exact ⟨⟨p, .count 0⟩, rfl⟩
  | build p => exact ⟨⟨p, .count 0⟩, rfl⟩
  | classify p => exact ⟨⟨p, .count 0⟩, rfl⟩
  | reserved k x =>
    refine ⟨x, ?_⟩
    fin_cases k <;> rfl

/-! ## Encode inverts decode -/

theorem mapError_eq_ok {ε ε' α : Type} {x : Except ε α} {g : ε → ε'} {a : α} :
    x.mapError g = .ok a ↔ x = .ok a := by
  cases x <;> simp [Except.mapError]

theorem mapError_eq_error {ε ε' α : Type} {x : Except ε α} {g : ε → ε'} {e : ε'} :
    x.mapError g = .error e ↔ ∃ e', x = .error e' ∧ g e' = e := by
  cases x <;> simp [Except.mapError]

/-- A byte whose number is known is that byte. -/
theorem byte_eq_of_toNat {b : Byte} {n : Nat} (hn : n < 256) (h : b.toNat = n) : b = BitVec.ofNat 8 n :=
  BitVec.eq_of_toNat_eq (by rw [h, BitVec.toNat_ofNat, Nat.mod_eq_of_lt hn])

theorem encode_decodeFrame {b : Bytes} {i : Instr} (h : decodeFrame b = .ok i) : encode i = .frame b := by
  unfold decodeFrame at h
  split at h
  · split at h
    · cases h
      simp [encode, frameBytes]
    · cases h
  · cases h

theorem encode_decodeMsg {p : Bytes} {i : Instr} (h : decodeMsg p = .ok i) : encode i = .msg p := by
  unfold decodeMsg at h
  split at h
  · cases h
  · split at h
    case h_7 => cases h
    all_goals
      -- the tag is the one this arm of the table lists
      rename_i htag
      cases h
      rw [byte_eq_of_toNat (by decide) htag]
      rfl

/-- Two bytes whose number is known are its bytes in wire order. -/
theorem le16Bytes_of_toNat {b0 b1 : Byte} {v : Half} (h : (le16 [b0, b1]).toNat = v.toNat) : le16Bytes v = [b0, b1] := by
  rw [← BitVec.eq_of_toNat_eq h, le16Bytes_le16]

theorem encode_decodeReplyCode {p : Bytes} {i : Instr} (h : decodeReplyCode p = .ok i) : encode i = .replyCode p := by
  unfold decodeReplyCode at h
  split at h
  · rename_i c0 c1 rest
    split at h
    · cases h
      simp only [encode, le16Bytes_of_toNat (v := 0x4B4F#16) ‹_›, List.cons_append, List.nil_append]
    · cases h
      simp only [encode, le16Bytes_of_toNat (v := 0x5245#16) ‹_›, List.cons_append, List.nil_append]
    · cases h
  · split at h <;> cases h
  · cases h

/-- What stands before a measurement, and the rest of the payload (R54, R55). -/
theorem splitCarrier_ok {p m : Bytes} {c : Carrier} (h : splitCarrier p = .ok (c, m)) : p = c.lead ++ m := by
  unfold splitCarrier at h
  split at h
  · cases h; rfl
  · cases h; rfl
  · split at h <;> cases h
  · cases h

/-- The header byte is its kind and its other bits, none dropped (R59). -/
theorem hdrByte_flagsOf : ∀ hdr : Byte, (kindOf hdr).map (hdrByte · (flagsOf hdr)) ∈ [none, some hdr] := by decide

theorem hdrByte_of_kindOf {hdr : Byte} {k : Kind} (h : kindOf hdr = some k) : hdrByte k (flagsOf hdr) = hdr := by
  have := hdrByte_flagsOf hdr
  rw [h] at this
  simpa using this

theorem encode_measInstr (c : Carrier) (f : HdrFlags) (rest : Bytes) (k : Kind) :
    encode (measInstr c f rest k) = .meas (measPayload c (hdrByte k f) rest) := by
  cases k <;> rfl

theorem encode_decodeMeas {p : Bytes} {i : Instr} (h : decodeMeas p = .ok i) : encode i = .meas p := by
  unfold decodeMeas at h
  split at h
  · cases h
  · cases h
  · rename_i c hdr rest hsplit
    split at h
    · rename_i k hk
      cases h
      rw [encode_measInstr, hdrByte_of_kindOf hk, measPayload, ← splitCarrier_ok hsplit]
    · cases h

theorem encode_rangeInstr {u : RangeUse} {b : Byte} {i : Instr} (h : rangeInstr u b = .ok i) :
    encode i = .range (u.payload b) := by
  unfold rangeInstr at h
  split at h
  case h_10 => cases h
  all_goals
    -- the range byte is the one this arm of the table lists
    rename_i hbyte
    cases h
    rw [byte_eq_of_toNat (by decide) hbyte]
    rfl

theorem encode_decodeRange {p : Bytes} {i : Instr} (h : decodeRange p = .ok i) : encode i = .range p := by
  unfold decodeRange at h
  split at h
  · cases h
  · rename_i c hdr auto m0 m1 b body hsplit
    split at h
    · rename_i k hk
      rw [encode_rangeInstr h, RangeUse.payload, hdrByte_of_kindOf hk, le16Bytes_le16, measPayload,
        splitCarrier_ok hsplit]
      rfl
    · cases h
  · cases h

theorem encode_decodeReq {p : Bytes} {i : Instr} (h : decodeReq p = .ok i) : encode i = .req p := by
  unfold decodeReq at h
  split at h
  · cases h
  · split at h
    case h_16 => cases h
    all_goals
      -- the tag is the one this arm of the table lists
      rename_i htag
      cases h
      rw [byte_eq_of_toNat (by decide) htag]
      rfl

/-- Settles O57: one decoder per format, and the table of select codes both ways. -/
theorem encodeInvertsDecode : Obligations.EncodeInvertsDecode := by
  refine ⟨fun r i h => ?_, code_select, exists_select⟩
  cases r with
  | hostop op =>
    cases h
    cases op <;> rfl
  | frame b => exact encode_decodeFrame (mapError_eq_ok.mp h)
  | msg p => exact encode_decodeMsg (mapError_eq_ok.mp h)
  | replyCode p => exact encode_decodeReplyCode (mapError_eq_ok.mp h)
  | meas p => exact encode_decodeMeas (mapError_eq_ok.mp h)
  | range p => exact encode_decodeRange (mapError_eq_ok.mp h)
  | req p => exact encode_decodeReq (mapError_eq_ok.mp h)

/-- Settles O55: each code by the decoder of its format. -/
theorem codesDecodeToTheirRows : Obligations.CodesDecodeToTheirRows := by
  refine ⟨rfl, rfl, rfl, rfl, ?_, rfl, ?_, ?_, ?_, rfl⟩ <;> decide

/-! ## What is of no row (R71, R73, log 13) -/

/-- What is rejected is given to the block whole, by the format it was presented in. -/
theorem decode_error_cases {r : Request} {x : Illegal} (h : decode r = .error x) :
    (∃ why b, x = .stream why b ∧ r = .frame b) ∨
      (∃ why p, x = .payload why p ∧ (r = .msg p ∨ r = .replyCode p ∨ r = .meas p ∨ r = .range p)) ∨
      ∃ why p, x = .request why p ∧ r = .req p := by
  cases r with
  | hostop op => cases h
  | frame b =>
    obtain ⟨why, -, rfl⟩ := mapError_eq_error.mp h
    exact .inl ⟨why, b, rfl, rfl⟩
  | msg p =>
    obtain ⟨why, -, rfl⟩ := mapError_eq_error.mp h
    exact .inr (.inl ⟨why, p, rfl, .inl rfl⟩)
  | replyCode p =>
    obtain ⟨why, -, rfl⟩ := mapError_eq_error.mp h
    exact .inr (.inl ⟨why, p, rfl, .inr (.inl rfl)⟩)
  | meas p =>
    obtain ⟨why, -, rfl⟩ := mapError_eq_error.mp h
    exact .inr (.inl ⟨why, p, rfl, .inr (.inr (.inl rfl))⟩)
  | range p =>
    obtain ⟨why, -, rfl⟩ := mapError_eq_error.mp h
    exact .inr (.inl ⟨why, p, rfl, .inr (.inr (.inr rfl))⟩)
  | req p =>
    obtain ⟨why, -, rfl⟩ := mapError_eq_error.mp h
    exact .inr (.inr ⟨why, p, rfl, rfl⟩)

theorem decode_unknownTag {tag : Byte} (rest : Bytes)
    (h : tag ∉ [0x01#8, 0x02#8, 0x03#8, 0x04#8, 0x05#8, 0x72#8]) :
    decode (.msg (tag :: rest)) = .error (.payload (.unknownTag tag) (tag :: rest)) := by
  refine mapError_eq_error.mpr ⟨.unknownTag tag, ?_, rfl⟩
  simp only [decodeMsg]
  split
  case h_7 => rfl
  all_goals
    -- the tag is the one this arm of the table lists
    rename_i htag
    exact absurd (by simp [byte_eq_of_toNat _ htag]) h

theorem decode_unknownKind {hdr : Byte} (rest : Bytes) (h : kindOf hdr = none) :
    decode (.meas (0x02#8 :: hdr :: rest)) = .error (.payload (.unknownKind hdr) (0x02#8 :: hdr :: rest)) := by
  refine mapError_eq_error.mpr ⟨.unknownKind hdr, ?_, rfl⟩
  simp only [decodeMeas, splitCarrier, h]

theorem rangeInstr_unknown (u : RangeUse) {b : Byte} (h : 9 ≤ b.toNat) : rangeInstr u b = .error (.unknownRange b) := by
  unfold rangeInstr
  split
  case h_10 => rfl
  all_goals omega

theorem decode_unknownRange {hdr auto m0 m1 b : Byte} (body : Bytes) (hk : (kindOf hdr).isSome) (hb : 9 ≤ b.toNat) :
    decode (.range (0x02#8 :: hdr :: auto :: m0 :: m1 :: b :: body)) =
      .error (.payload (.unknownRange b) (0x02#8 :: hdr :: auto :: m0 :: m1 :: b :: body)) := by
  obtain ⟨k, hk⟩ := Option.isSome_iff_exists.mp hk
  refine mapError_eq_error.mpr ⟨.unknownRange b, ?_, rfl⟩
  simp only [decodeRange, splitCarrier, hk]
  exact rangeInstr_unknown _ hb

theorem decode_unknownRequest {tag : Byte} (o : Bytes)
    (h : tag.toNat ∉ [1, 2, 3, 4, 5, 6, 7, 8, 9, 10, 11, 12, 13, 14, 18]) :
    decode (.req (tag :: o)) = .error (.request (.unknownRequest tag) (tag :: o)) := by
  refine mapError_eq_error.mpr ⟨.unknownRequest tag, ?_, rfl⟩
  simp only [decodeReq]
  split
  case h_16 => rfl
  all_goals
    -- the tag is the one this arm of the table lists
    rename_i htag
    exact absurd (by simp [htag]) h

/-- Settles O54: what is rejected keeps its bytes, and the named values are rejected. -/
theorem illegalValuesTakeTheirEffect : Obligations.IllegalValuesTakeTheirEffect := by
  intro s r issued hreq s'
  have hpayload {why p} (h : decode r = .error (.payload why p)) : step s = exec (.classify p) s' := step_illegal hreq h
  refine ⟨fun why b h => ?_, fun why p h => ⟨?_, hpayload h⟩, fun why p h => ⟨?_, step_illegal hreq h⟩, ?_, ?_, ?_, ?_⟩
  · have hstep : step s = .next (s'.pushScan b) := step_illegal hreq h
    refine ⟨?_, fun hfits => ?_, fun cap hcap hlt => ?_⟩
    · obtain ⟨_, _, ⟨⟩, hr⟩ | ⟨_, _, ⟨⟩, -⟩ | ⟨_, _, ⟨⟩, -⟩ := decode_error_cases h
      exact hr
    · obtain ⟨-, e⟩ | ⟨hno, -⟩ := pushScan_cases s' b
      · rw [hstep, e, exec_scan]
      · have hyes : s'.pushFits b.length = true := pushFits_iff.mpr hfits
        rw [hno] at hyes
        cases hyes
    · obtain ⟨hfits, -⟩ | ⟨-, e⟩ := pushScan_cases s' b
      · exact absurd (pushFits_iff.mp hfits cap hcap) (Nat.not_le.mpr hlt)
      · rw [hstep, e]
  · obtain ⟨_, _, ⟨⟩, -⟩ | ⟨_, _, ⟨⟩, hr⟩ | ⟨_, _, ⟨⟩, -⟩ := decode_error_cases h
    exact hr
  · obtain ⟨_, _, ⟨⟩, -⟩ | ⟨_, _, ⟨⟩, -⟩ | ⟨_, _, ⟨⟩, hr⟩ := decode_error_cases h
    exact hr
  · rintro tag rest rfl hlen htag
    rw [hpayload (decode_unknownTag rest htag)]
    exact exec_classify_error hlen (classify_unknownTag s'.config rest htag)
  · rintro hdr rest rfl hlen hk
    obtain ⟨hkind, -⟩ := measurementHeaderErrorsInOrder s' none hdr 0 0 0 rest nofun
    rw [← kindOf_isSome_iff, Option.not_isSome_iff_eq_none] at hk
    rw [hpayload (decode_unknownKind rest hk)]
    refine hkind ?_ hlen
    rw [← kindOf_isSome_iff, hk]
    simp
  · rintro hdr auto rb code rest p rfl hlen hk hm hrb
    obtain ⟨-, -, hrange⟩ := measurementHeaderErrorsInOrder s' none hdr auto rb code rest nofun
    rw [hpayload (decode_unknownRange rest ((kindOf_isSome_iff hdr).mpr hk) hrb)]
    exact hrange hk hm hrb hlen
  · rintro tag o rfl htag
    exact step_illegal hreq (decode_unknownRequest o htag)

end Sys2Proof.Machine
end

section
/-! The host's loop (45_host_contract.md R171 to R176; log 15). -/

namespace Sys2Proof.Machine

/-! ## One call that needs no read of the transport -/

/-- What the first SCAN of `read_message()` decides is its result, before anything is read (R172). -/
theorem readMessage_of_hostScan {h : Session} {r : Except HostError Message} {b : State}
    (e : hostScan h.block = (some r, b)) : readMessage h = (r, { h with block := b }) := by
  obtain ⟨block, now, reads, writes, sent⟩ := h
  cases reads <;> simp only [readMessage, readLoop, e]

theorem hostScan_msg {s : State} {m : Message} (hm : s.scan.results.msg = some m) :
    hostScan s = (some (.ok m), s.scan.dropConsumed) := by
  simp only [hostScan, hm]

/-- After a decode error the policy says whether the frame is dropped (R173). -/
theorem hostScan_decodeError {s : State} {c : ErrCode} {i : ErrInfo} (hm : s.scan.results.msg = none)
    (hc : s.scan.results.errCode = some c) (hi : s.scan.results.errInfo = some i) :
    hostScan s = (some (.error (.block c i)), if s.config.hostDrops then s.scan.dropConsumed else s.scan) := by
  simp only [hostScan, hm, hc, hi]

theorem dropConsumed_fits {s : State} {c : Nat} (hc : s.results.consumed = some c) (hle : c ≤ s.rxbuf.length) :
    s.dropConsumed = { s with rxbuf := s.rxbuf.drop c, results := { status := .done } } := by
  simp only [State.dropConsumed, hc, drop_fits hle]

/-- Settles O58: the message's frame is dropped, so the rest of RXBUF is left. -/
theorem readMessageCompactsTheBuffer : Obligations.ReadMessageCompactsTheBuffer := by
  rintro h t m c ⟨⟩ hm hc hle
  rw [readMessage_of_hostScan (hostScan_msg hm), dropConsumed_fits hc (by rwa [scan_rxbuf]), scan_rxbuf]

/-- Settles O60: where the frame stays in RXBUF the next SCAN reports it again (R99). -/
theorem decodeErrorFollowsTheHostPolicy : Obligations.DecodeErrorFollowsTheHostPolicy := by
  rintro h t c i n ⟨⟩ - hc hi hm hn hle
  refine ⟨_, readMessage_of_hostScan (hostScan_decodeError hm hc hi), fun hdrops => ?_, fun hdrops => ?_⟩
  · simp only [hdrops, if_true]
    rw [dropConsumed_fits hn (by rwa [scan_rxbuf]), scan_rxbuf]
  · have hsame := scan_congr (scan_rxbuf h.block) (scan_config h.block)
    simp only [hdrops, Bool.false_eq_true, if_false]
    refine ⟨scan_rxbuf _, _, readMessage_of_hostScan (hostScan_decodeError ?_ ?_ ?_)⟩
    · rw [hsame, hm]
    · rw [hsame, hc]
    · rw [hsame, hi]

/-! ## Time -/

/-- A host operation from `now` on: time does not go back, and WaitTimeout comes not before a deadline armed in it (R172). -/
def WaitsLong {α : Type} (now : Nat) (r : Except HostError α × Session) : Prop :=
  now ≤ r.2.now ∧ (r.1 = .error .waitTimeout → now + 5000 ≤ r.2.now)

theorem WaitsLong.from {α : Type} {now now' : Nat} {r : Except HostError α × Session} (h : WaitsLong now' r)
    (hle : now ≤ now') : WaitsLong now r :=
  ⟨hle.trans h.1, fun e => (Nat.add_le_add_right hle 5000).trans (h.2 e)⟩

/-- An end other than WaitTimeout only has to respect time. -/
theorem waitsLong_of_ne {α : Type} {now : Nat} {r : Except HostError α × Session} (hle : now ≤ r.2.now)
    (hne : r.1 ≠ .error .waitTimeout) : WaitsLong now r := ⟨hle, fun e => absurd e hne⟩

theorem readMessage_waitsLong (h : Session) : WaitsLong h.now (readMessage h) :=
  ⟨readMessage_now h, (readLoop_spec _ _ h).2.2⟩

theorem timedOut_waitsLong {α : Type} (h : Session) :
    WaitsLong (α := α) h.now (.error .waitTimeout, h.timedOut) :=
  ⟨Nat.le_add_right _ _, fun _ => Nat.le_refl _⟩

theorem awaitLoop_waitsLong (accept : Message → Bool) (n : Nat) (h : Session) :
    WaitsLong h.now (awaitLoop accept n h) := by
  induction n generalizing h with
  | zero => exact timedOut_waitsLong h
  | succ n ih =>
    have hr := readMessage_waitsLong h
    rw [awaitLoop]
    split
    · rename_i e
      rwa [e] at hr
    · rename_i e
      rw [e] at hr
      exact waitsLong_of_ne hr.1 nofun
    · rename_i e
      rw [e] at hr
      split
      · exact waitsLong_of_ne hr.1 nofun
      · exact (ih _).from hr.1

theorem write_now (h : Session) (tx : Bytes) : (h.write tx).2.now = h.now := by
  unfold Session.write
  split <;> rfl

theorem write_error {h h' : Session} {tx : Bytes} {e : HostError} (hw : h.write tx = (.error e, h')) :
    e = .transport := by
  unfold Session.write at hw
  split at hw <;> cases hw
  rfl

theorem command_waitsLong (req : Bytes) (accept : Message → Bool) (h : Session) :
    WaitsLong h.now (command req accept h) := by
  simp only [command]
  split
  · exact waitsLong_of_ne (Nat.le_refl _) nofun
  · have hnow := write_now { h with block := h.block.build req } ((h.block.build req).results.txbuf.getD [])
    split
    · rename_i hw
      rw [hw] at hnow
      exact (awaitLoop_waitsLong accept _ _).from hnow.ge
    · rename_i hw
      rw [hw] at hnow
      obtain rfl := write_error hw
      exact waitsLong_of_ne hnow.ge nofun

theorem recordLoop_waitsLong (request : Nat → Bytes) (advance : Nat → Nat → Nat) (n cursor : Nat)
    (got : List RecordDataItem) (h : Session) : WaitsLong h.now (recordLoop request advance n cursor got h) := by
  induction n generalizing cursor got h with
  | zero => exact timedOut_waitsLong h
  | succ n ih =>
    have hc := command_waitsLong (0x0D#8 :: request cursor) (fun m => (batchItems m).isSome) h
    rw [recordLoop]
    split
    · rename_i e
      rw [e] at hc
      exact ⟨hc.1, fun he => hc.2 (congrArg Except.error (Except.error.inj he))⟩
    · rename_i e
      rw [e] at hc
      split
      · exact (ih _ _ _).from hc.1
      · exact waitsLong_of_ne hc.1 nofun

/-- The time of a WaitTimeout, for an operation that ends in one. -/
theorem WaitsLong.deadline {α : Type} {now : Nat} {r : Except HostError α × Session} {h' : Session} (h : WaitsLong now r)
    (e : r = (.error .waitTimeout, h')) : now + 5000 ≤ h'.now := by
  subst e
  exact h.2 rfl

/-- Settles O59: the deadlines by `WaitsLong`, what ends a wait by the loops without their fuel. -/
theorem waitTimeoutNotBeforeTheDeadline : Obligations.WaitTimeoutNotBeforeTheDeadline := by
  refine ⟨fun h _ => (readMessage_waitsLong h).deadline, fun accept h _ => (awaitLoop_waitsLong accept _ h).deadline,
    fun request advance cursor h _ => (recordLoop_waitsLong request advance _ cursor [] h).deadline,
    fun accept h h' => ⟨fun e he => ?_, fun he => ?_, fun m he hm => ?_⟩, fun request advance cursor h h' => ?_⟩
  · rw [awaitReply_eq, he]
  · rw [awaitReply_eq, he]
  · rw [awaitReply_eq, he]
    cases m with
    | deviceError => exact absurd rfl hm
    | success | measurement | savedMeasurement | reply | recordInfo | recordDataBatch => rfl
  · refine ⟨fun e he => ?_, fun he => ?_, fun items hitems he => ?_⟩
    · rw [getRecordData_eq, he]
    · rw [getRecordData_eq, he]
      rfl
    · obtain ⟨i, is, rfl⟩ := List.exists_cons_of_ne_nil hitems
      refine ⟨fun all h'' hall => ?_, fun e h'' herr => ?_⟩
      · rw [getRecordData_eq, he]
        simp only [batchItems, hall, Except.map]
      · rw [getRecordData_eq, he]
        simp only [batchItems, herr, Except.map]

end Sys2Proof.Machine
end
